-- ==== Sys2Proof/Word.lean ====
section
/-! DEFINITION. The two word types of the block: the byte that system memory, the streams and the pixels are made
of, and the 32-bit word of a register and of an engine address (spec 00_scope.md R7: `REG_W` = `ADDR_W` = 32,
`PIX_W` = 8). -/

namespace Sys2Proof

/-- A byte, unsigned, 0..255 (R9). One bitmap pixel is one byte (R7, `PIX_W`). -/
abbrev Byte := BitVec 8

/-- A 32-bit register (R7, `REG_W`) or a 32-bit system-memory byte address (R7, `ADDR_W`). -/
abbrev Word := BitVec 32

end Sys2Proof
end

