-- ==== Sys2Proof/Config.lean ====
section
/-! DEFINITION. What is fixed for this block (the parameters of 00_scope.md R7 that have a value) and the one free
value. The parameter `MemAdmit` is OPEN: it is plain data of `State` (`State.platform`), so every claim is stated for
every platform. The parameter `Latency` is OPEN too: it is the `after` count of a host event (log entry 4). -/

namespace Sys2Proof

/-- `PAL_CAP`, the number of palette entries the PLU can hold: 256 in this block (R7, R46, D28). -/
def Config.palCap : Nat := 256

/-- The number of system-memory byte addresses, 2^32 (R7 `ADDR_W`, R70). -/
def Config.addrSpace : Nat := 4294967296

/-- What a byte of system memory reads as when nothing has written it. DESIGN CHOICE (log entry 2): the spec gives RAM
no power-on contents; 95_test_vectors.md section 3 lets memory that a program does not name hold 00. -/
def Config.blankByte : Byte := 0#8

/-- The free value (U1, U2, U4): the `n`-th value that the spec leaves unspecified. It has no body, so nothing can
be proved of it. `State.freeCount` says which values have been used (log entry 5). -/
opaque Config.freeValue : Nat → Word

end Sys2Proof
end

