-- ==== Sys2Proof/Syntax.lean ====
section
/-! DEFINITION. The instructions, one constructor per row of spec/opcode_table.json: the mode byte, the six LCW
commands and the two zero-run codes that the engine reads from memory, and the nine host commands that a write to `CMD`
starts (30_encoding.md R100 to R104). -/

namespace Sys2Proof

/-- Which decoder reads a code (R100): "Which decoder reads a byte depends only on which host command is running".
The mode byte is a decoder of its own, because it stands only at offset 0 of an LCW stream (R101). -/
inductive CodeSet where
  | lcwMode
  | lcw
  | zrle
  | cmd
  deriving DecidableEq, Repr

/-- An instruction: one stream code with its payload, or one host command (R11). The fields of a stream code are the
bits of its encoding (R101, R104); a host command's operands are in registers (R107). -/
inductive Instr where
  /-- `MODE.REL`: the mode byte 0x00 (R151). -/
  | modeRel
  /-- `END`: the byte 0x80 (R153). -/
  | endMark
  /-- `LIT b1, .., bn`: short literal (R154). -/
  | lit (bytes : List Byte)
  /-- `SREF c+3, p`: short back-reference (R155). -/
  | sref (c : BitVec 3) (p : BitVec 12)
  /-- `RUN n, v` (R156). -/
  | run (n : BitVec 16) (v : Byte)
  /-- `LREF n, p`: long back-reference (R157). -/
  | lref (n : BitVec 16) (p : BitVec 16)
  /-- `MREF c+3, p`: medium back-reference (R158). -/
  | mref (c : BitVec 6) (p : BitVec 16)
  /-- `ZRUN n`: zero run (R192). -/
  | zrun (n : Byte)
  /-- `ZLIT v`: zero-run literal (R193). -/
  | zlit (v : Byte)
  /-- `LCW_DECODE`, `OP` = 0x01 (R150). -/
  | lcwDecode
  /-- `ZRLE_EXPAND`, `OP` = 0x02 (R190). -/
  | zrleExpand
  /-- `BLIT`, `OP` = 0x03 (R215). -/
  | blit
  /-- `FILL`, `OP` = 0x04 (R218). -/
  | fill
  /-- `PAL_CLEAR`, `OP` = 0x10 (R251). -/
  | palClear
  /-- `PAL_PUSH`, `OP` = 0x11 (R252). -/
  | palPush
  /-- `PAL_LOAD6`, `OP` = 0x12 (R256). -/
  | palLoad6
  /-- `PAL_FIND`, `OP` = 0x13 (R253). -/
  | palFind
  /-- `PAL_READ`, `OP` = 0x14 (R254). -/
  | palRead
  deriving DecidableEq, Repr

/-- The code set of an instruction (R100). -/
def Instr.codeSet : Instr → CodeSet
  | .modeRel => .lcwMode
  | .endMark => .lcw
  | .lit _ => .lcw
  | .sref _ _ => .lcw
  | .run _ _ => .lcw
  | .lref _ _ => .lcw
  | .mref _ _ => .lcw
  | .zrun _ => .zrle
  | .zlit _ => .zrle
  | .lcwDecode => .cmd
  | .zrleExpand => .cmd
  | .blit => .cmd
  | .fill => .cmd
  | .palClear => .cmd
  | .palPush => .cmd
  | .palLoad6 => .cmd
  | .palFind => .cmd
  | .palRead => .cmd

end Sys2Proof
end

