-- ==== Sys2Proof/WellFormed.lean ====
section
/-! DEFINITION. The operand ranges of the assembler syntax (30_encoding.md R113) that the types of the fields do not
already give: a literal's count, the largest MREF count, and the zero-run literal that is not zero. -/

namespace Sys2Proof

/-- R113: an operand outside its range does not assemble. `LIT` holds 1..63 bytes, `MREF`'s count field is at most
0x3D (0x3E and 0x3F are RUN and LREF, R102), and a `ZLIT` byte is not 0 (R104). -/
def Instr.wellFormed : Instr → Bool
  | .modeRel => true
  | .endMark => true
  | .lit bytes => decide (1 ≤ bytes.length) && decide (bytes.length ≤ 63)
  | .sref _ _ => true
  | .run _ _ => true
  | .lref _ _ => true
  | .mref c _ => decide (c.toNat ≤ 0x3D)
  | .zrun _ => true
  | .zlit v => decide (v ≠ 0#8)
  | .lcwDecode => true
  | .zrleExpand => true
  | .blit => true
  | .fill => true
  | .palClear => true
  | .palPush => true
  | .palLoad6 => true
  | .palFind => true
  | .palRead => true

/-- The well-formed instructions, as a proposition that `decide` settles. -/
abbrev WellFormed (i : Instr) : Prop := i.wellFormed = true

end Sys2Proof
end

