-- ==== Sys2Proof/Decode.lean ====
section
/-! DEFINITION. The three decoders of 30_encoding.md (R100 to R111) and, after them, the encoder written from the same
tables, and the reading of an opcode-table row's word. -/

namespace Sys2Proof

/-! ### Bit fields -/

/-- A little-endian u16 (20_memory.md R73, R77): the byte at the lower offset is bits [7:0]. -/
def u16 (lo hi : Byte) : BitVec 16 := hi ++ lo

/-- The low byte of a u16 field. -/
def u16Lo (v : BitVec 16) : Byte := v.extractLsb' 0 8

/-- The high byte of a u16 field. -/
def u16Hi (v : BitVec 16) : Byte := v.extractLsb' 8 8

/-! ### Decoding -/

/-- Why bytes are no code of a code set. -/
inductive DecodeError where
  /-- There is no byte to read a code from. -/
  | noBytes
  /-- The code's payload ends before its last byte (its length is R111's). -/
  | truncated
  /-- A mode byte other than 0x00: it selects absolute mode and is not consumed (R101). -/
  | absoluteMode
  /-- An unassigned `OP`, or a non-zero bit in `CMD` [31:8] (R103, R110). -/
  | illegalCmd
  deriving DecidableEq, Repr

/-- What a decoder answers: the instruction the bytes begin with and the bytes after it, or why there is none. -/
inductive Decoded where
  | code (i : Instr) (rest : List Byte)
  | reject (e : DecodeError)
  deriving DecidableEq, Repr

/-- The length in bytes of the LCW command that begins with `b` (R111). -/
def lcwLength (b : Byte) : Nat :=
  if b = 0x80#8 then 1
  else if b &&& 0xC0#8 = 0x80#8 then 1 + (b &&& 0x3F#8).toNat
  else if b &&& 0x80#8 = 0#8 then 2
  else if b = 0xFE#8 then 4
  else if b = 0xFF#8 then 5
  else 3

/-- `LIT` (R105): the count is `cmd & 0x3F`, and that many literal bytes follow. -/
def decodeLit (b : Byte) (rest : List Byte) : Decoded :=
  if rest.length < (b &&& 0x3F#8).toNat then .reject .truncated
  else .code (.lit (rest.take (b &&& 0x3F#8).toNat)) (rest.drop (b &&& 0x3F#8).toNat)

/-- `SREF` (R105): count field `cmd[6:4]`, position `cmd[3:0] || byte1`. -/
def decodeSref (b : Byte) : List Byte → Decoded
  | p :: rest => .code (.sref (b.extractLsb' 4 3) (b.extractLsb' 0 4 ++ p)) rest
  | [] => .reject .truncated

/-- `RUN` (R105): a u16 count, then the value. -/
def decodeRun : List Byte → Decoded
  | lo :: hi :: v :: rest => .code (.run (u16 lo hi) v) rest
  | _ => .reject .truncated

/-- `LREF` (R105): a u16 count, then a u16 position. -/
def decodeLref : List Byte → Decoded
  | nl :: nh :: pl :: ph :: rest => .code (.lref (u16 nl nh) (u16 pl ph)) rest
  | _ => .reject .truncated

/-- `MREF` (R105): count field `cmd[5:0]`, then a u16 position. -/
def decodeMref (b : Byte) : List Byte → Decoded
  | pl :: ph :: rest => .code (.mref (b.extractLsb' 0 6) (u16 pl ph)) rest
  | _ => .reject .truncated

/-- R102: the first byte of an LCW command is classified in exactly this order. -/
def decodeLcw : List Byte → Decoded
  | [] => .reject .noBytes
  | b :: rest =>
    if b = 0x80#8 then .code .endMark rest
    else if b &&& 0xC0#8 = 0x80#8 then decodeLit b rest
    else if b &&& 0x80#8 = 0#8 then decodeSref b rest
    else if b = 0xFE#8 then decodeRun rest
    else if b = 0xFF#8 then decodeLref rest
    else decodeMref b rest

/-- The mode byte (R101, first row): 0x00 is `MODE.REL`, any other value is not consumed. -/
def decodeMode : List Byte → Decoded
  | [] => .reject .noBytes
  | b :: rest => if b = 0#8 then .code .modeRel rest else .reject .absoluteMode

/-- The zero-run codes (R104, R106). -/
def decodeZrle : List Byte → Decoded
  | [] => .reject .noBytes
  | b :: rest =>
    if b = 0#8 then
      match rest with
      | n :: rest' => .code (.zrun n) rest'
      | [] => .reject .truncated
    else .code (.zlit b) rest

/-- The host command of an `OP` (R103). -/
def cmdOfOp (op : Byte) : Option Instr :=
  if op = 0x01#8 then some .lcwDecode
  else if op = 0x02#8 then some .zrleExpand
  else if op = 0x03#8 then some .blit
  else if op = 0x04#8 then some .fill
  else if op = 0x10#8 then some .palClear
  else if op = 0x11#8 then some .palPush
  else if op = 0x12#8 then some .palLoad6
  else if op = 0x13#8 then some .palFind
  else if op = 0x14#8 then some .palRead
  else none

/-- The host command of a `CMD` word (R103, R110): bits [31:8] must be zero. -/
def decodeCmd (w : Word) : Option Instr :=
  if w.extractLsb' 8 24 = 0#24 then cmdOfOp (w.extractLsb' 0 8) else none

/-- The `CMD` word as four bytes, byte 0 first (R74). -/
def decodeCmdBytes : List Byte → Decoded
  | b0 :: b1 :: b2 :: b3 :: rest =>
    match decodeCmd (b3 ++ b2 ++ b1 ++ b0) with
    | some i => .code i rest
    | none => .reject .illegalCmd
  | [] => .reject .noBytes
  | _ => .reject .truncated

/-- The decoder of each code set (R100). -/
def decode : CodeSet → List Byte → Decoded
  | .lcwMode, bytes => decodeMode bytes
  | .lcw, bytes => decodeLcw bytes
  | .zrle, bytes => decodeZrle bytes
  | .cmd, bytes => decodeCmdBytes bytes

/-! ### Encoding -/

/-- The four bytes of a `CMD` word whose `OP` is `op` (R103, R74). -/
def encodeOp (op : Byte) : List Byte := [op, 0#8, 0#8, 0#8]

/-- The bytes of a well-formed instruction, in the order in which they stand (R101, R103, R104, R113). -/
def encode : Instr → List Byte
  | .modeRel => [0x00#8]
  | .endMark => [0x80#8]
  | .lit bytes => (0b10#2 ++ BitVec.ofNat 6 bytes.length : BitVec 8) :: bytes
  | .sref c p => [(0#1 ++ c ++ p.extractLsb' 8 4 : BitVec 8), p.extractLsb' 0 8]
  | .run n v => [0xFE#8, u16Lo n, u16Hi n, v]
  | .lref n p => [0xFF#8, u16Lo n, u16Hi n, u16Lo p, u16Hi p]
  | .mref c p => [(0b11#2 ++ c : BitVec 8), u16Lo p, u16Hi p]
  | .zrun n => [0x00#8, n]
  | .zlit v => [v]
  | .lcwDecode => encodeOp 0x01#8
  | .zrleExpand => encodeOp 0x02#8
  | .blit => encodeOp 0x03#8
  | .fill => encodeOp 0x04#8
  | .palClear => encodeOp 0x10#8
  | .palPush => encodeOp 0x11#8
  | .palLoad6 => encodeOp 0x12#8
  | .palFind => encodeOp 0x13#8
  | .palRead => encodeOp 0x14#8

/-! ### Words of the opcode table -/

/-- The bytes of an instruction whose bits are `w` (`nbits` of them, the rest 0), byte 0 first: as many as the longest
instruction has, the 64 bytes of a full `LIT`. -/
def tableBytes (nbits w : Nat) : List Byte :=
  (List.range 64).map fun k => BitVec.ofNat 8 ((w % 2 ^ nbits) >>> (8 * k))

/-- Which decoder reads a table word. The code sets share byte values (R100) and a table word does not say which command
is running, so this is the model's choice (log entry 15): a 32-bit word is a `CMD` word, unless its first byte begins an
LCW command of four bytes (no `CMD` word with such a byte is assigned); a lone 0x00 is the mode byte; 0x00 with one more
byte is `ZRUN`; a lone byte 0x01..0x7F is `ZLIT`; every other word is an LCW command. -/
def tableCodeSet (nbits w : Nat) : CodeSet :=
  if nbits = 32 ∧ lcwLength (BitVec.ofNat 8 w) ≠ 4 then .cmd
  else if nbits = 8 ∧ w % 256 = 0 then .lcwMode
  else if nbits = 16 ∧ w % 256 = 0 then .zrle
  else if nbits = 8 ∧ w % 256 < 0x80 then .zrle
  else .lcw

/-- The instruction the decoder reads from an opcode-table word. -/
def decodeTableWord (nbits w : Nat) : Option Instr :=
  match decode (tableCodeSet nbits w) (tableBytes nbits w) with
  | .code i _ => some i
  | .reject _ => none

end Sys2Proof
end

