-- ==== Sys2Proof/Machine/State.lean ====
section
/-! DEFINITION. The state of the block, its platform and its host, as plain data (10_state.md), and the state after
reset. INVENTORY.md lists every field with its rule. -/

namespace Sys2Proof.Machine

/-- System memory (20_memory.md R70, R71): the bytes that differ from `Config.blankByte`, by address, addresses strictly
rising. -/
abbrev Memory := List Host.Cell

/-- A colour (44_palette.md R250): three unsigned 8-bit channels, compared by equality. -/
structure Color where
  r : Byte
  g : Byte
  b : Byte
  deriving DecidableEq, Repr

/-- A byte range `[base, base + len)` of system memory (20_memory.md R75). -/
structure Window where
  base : Nat
  len : Nat
  deriving DecidableEq, Repr

/-- What answers in a region of the platform (20_memory.md R84): ordinary memory, or a device. -/
inductive RegionKind where
  | ordinary
  | device
  deriving DecidableEq, Repr

/-- A region of the platform's address map in which an engine access is answered (20_memory.md R71, R85). -/
structure Region where
  range : Window
  kind : RegionKind
  deriving DecidableEq, Repr

/-- `STATUS` but for `BUSY`, which is a view of the phase (10_state.md R24). -/
structure Status where
  done : Bool
  err : Bool
  found : Bool
  deriving DecidableEq, Repr

/-- `IRQ_EN` (10_state.md R26). -/
structure IrqEnable where
  doneIe : Bool
  errIe : Bool
  deriving DecidableEq, Repr

/-- The RW operand registers that only the host writes (10_state.md R27 to R30, R34 to R42). -/
structure Operands where
  srcAddr : Word
  srcLen : Word
  dstAddr : Word
  dstCap : Word
  bsAddr : Word
  bsDim : Word
  bdAddr : Word
  bdDim : Word
  srX : Word
  srY : Word
  srW : Word
  srH : Word
  drX : Word
  drY : Word
  drW : Word
  drH : Word
  fillVal : Byte
  deriving DecidableEq, Repr

/-- The LCW addressing mode (10_state.md R50). -/
inductive LcwMode where
  | rel
  | abs
  deriving DecidableEq, Repr

/-- The engine's internal state while a stream command runs (10_state.md R50). -/
structure Engine where
  inPos : Word
  outLen : Word
  mode : LcwMode
  cmdStart : Word
  deriving DecidableEq, Repr

/-- Where the engine stands in the command it runs (40_command_interface.md R130, R131). `BUSY` is "not idle". -/
inductive Phase where
  /-- No command runs. -/
  | idle
  /-- A `CMD` write has started a command; its checks and body come next. -/
  | accepted
  /-- LCW_DECODE is about to read the mode byte (41_lcw.md R151). -/
  | lcwMode
  /-- LCW_DECODE is at the top of its loop (41_lcw.md R150). -/
  | lcwCode
  /-- ZRLE_EXPAND is at the top of its loop (42_zero_run.md R190). -/
  | zrle
  deriving DecidableEq, Repr

/-- The width of a host access to the register window (20_memory.md R81). -/
inductive AccessWidth where
  | byte
  | half
  | word
  deriving DecidableEq, Repr

/-- One thing the host, or the platform's reset input, does to the block (00_scope.md R6, 60_exceptions.md R290,
70_reset_and_hazards.md R320). The offset of a register access is in the 256-byte register window. -/
inductive HostAction where
  | regRead (offset : BitVec 8) (width : AccessWidth)
  | regWrite (offset : BitVec 8) (width : AccessWidth) (value : Word)
  | memRead (addr : Word)
  | memWrite (addr : Word) (value : Byte)
  | sampleIrq
  | reset
  deriving DecidableEq, Repr

/-- A host action and the number of engine steps that pass before it lands: it holds the OPEN parameter `Latency`
(40_command_interface.md R134; log entries 1 and 4). -/
structure HostEvent where
  after : Nat
  action : HostAction
  deriving DecidableEq, Repr

/-- What the host got back from its last access. -/
inductive BusReply where
  /-- No access yet. -/
  | none
  /-- A write was taken by the bus (whether or not it had an effect). -/
  | ack
  /-- A register read's data. -/
  | word (w : Word)
  /-- A memory read's data. -/
  | byte (b : Byte)
  /-- The level of the interrupt line. -/
  | line (level : Bool)
  /-- The bus-error response of R81. -/
  | busError
  deriving DecidableEq, Repr

/-- The machine. -/
structure State where
  /-- `CMD`: the word that started the last command; the host reads 0 (R23). -/
  cmd : Word
  /-- `STATUS.DONE`, `ERR`, `FOUND` (R24). -/
  status : Status
  /-- `ERRCODE.CODE` (R25). -/
  errCode : Byte
  /-- `IRQ_EN` (R26). -/
  irqEn : IrqEnable
  /-- The operand registers (R27 to R30, R34 to R42). -/
  opr : Operands
  /-- `OUT_LEN` (R31). -/
  outLen : Word
  /-- `IN_USED` (R32). -/
  inUsed : Word
  /-- `ERR_ADDR` (R33). -/
  errAddr : Word
  /-- `PAL_COLOR` (R43). -/
  palColor : Color
  /-- `PAL_INDEX.I` (R44). -/
  palIndex : BitVec 16
  /-- The valid entries of `PAL_ENTRY`, index 0 first (R48); `PAL_COUNT.N` is their number (R45). -/
  palette : List Color
  /-- Where the engine stands. -/
  phase : Phase
  /-- The engine's stream state (R50). -/
  eng : Engine
  /-- System memory (R71). -/
  mem : Memory
  /-- The platform: which addresses answer (`MemAdmit`, R71), and which are a device (R84). No step changes it. -/
  platform : List Region
  /-- The host's actions still to come. -/
  host : List HostEvent
  /-- What the last host access got back. -/
  busReply : BusReply
  /-- The running command's results are unspecified (R89, R91). -/
  unsettled : Bool
  /-- The host has written a byte of a window of the command that `CMD` started last, while it ran (R89). -/
  raced : Bool
  /-- Memory as the running command found it (R89, R321). -/
  startMem : Memory
  /-- How many free values have been used. -/
  freeCount : Nat
  deriving DecidableEq, Repr

/-- The errors of a command (60_exceptions.md R281). Each ends the command by `abort`; none stops the machine. -/
inductive Error where
  | illegalCmd
  | rangeError
  | inputExhausted
  | lcwBounds
  | zrleMissingCount
  | outputOverflow
  | palFull
  | palRange
  | palBadLen
  | busError
  deriving DecidableEq, Repr

/-- A machine fault. The block has none: every input of every command ends in completion or in an error that is a next
state (60_exceptions.md R287), so this type has no constructor. -/
inductive Fault where
  deriving DecidableEq, Repr

/-- Why an instruction has no next state. -/
inductive Refusal where
  /-- No meaning for this instruction. Raised by no arm of `exec`. Safe. -/
  | notModelled (mnemonic : String)
  /-- A window of the command lies over a device. Raised by the host commands that access memory, when their body would
  begin: R84 calls it "a host error, and the result is not specified", and U3 treats it as "refuse". Safe. -/
  | windowOverDevice
  deriving DecidableEq, Repr

/-- The state after reset (10_state.md R55). The engine's stream state is unspecified there (log entry 6); memory lists
nothing (log entry 2); the platform answers at every address and has no device (log entry 3). -/
def State.reset : State where
  cmd := 0#32
  status := { done := false, err := false, found := false }
  errCode := 0#8
  irqEn := { doneIe := false, errIe := false }
  opr :=
    { srcAddr := 0#32, srcLen := 0#32, dstAddr := 0#32, dstCap := 0#32
      bsAddr := 0#32, bsDim := 0#32, bdAddr := 0#32, bdDim := 0#32
      srX := 0#32, srY := 0#32, srW := 0#32, srH := 0#32
      drX := 0#32, drY := 0#32, drW := 0#32, drH := 0#32
      fillVal := 0#8 }
  outLen := 0#32
  inUsed := 0#32
  errAddr := 0#32
  palColor := { r := 0#8, g := 0#8, b := 0#8 }
  palIndex := 0#16
  palette := []
  phase := .idle
  eng := { inPos := 0#32, outLen := 0#32, mode := .abs, cmdStart := 0#32 }
  mem := []
  platform := [{ range := { base := 0, len := Config.addrSpace }, kind := .ordinary }]
  host := []
  busReply := .none
  unsettled := false
  raced := false
  startMem := []
  freeCount := 0

end Sys2Proof.Machine
end

