-- ==== Sys2Proof/Machine/Flags.lean ====
section
/-! DEFINITION. Every flag computation: the `STATUS` word and its bits (10_state.md R24), the interrupt line
(60_exceptions.md R290), and the clearing and setting of flags at a command's start and end (40_command_interface.md
R131, R135; 60_exceptions.md R284). -/

namespace Sys2Proof.Machine

/-- `STATUS.BUSY`: a command runs (R24, R130). -/
def State.busy (s : State) : Bool := decide (s.phase ≠ .idle)

/-- One bit as a bit vector. -/
def bit (b : Bool) : BitVec 1 := BitVec.ofBool b

/-- The `STATUS` word as the host reads it (R24): `FOUND || ERR || DONE || BUSY`, bits [31:4] are 0. -/
def statusWord (s : State) : Word :=
  0#28 ++ bit s.status.found ++ bit s.status.err ++ bit s.status.done ++ bit s.busy

/-- The `IRQ_EN` word (R26): `ERR_IE || DONE_IE`, bits [31:2] are 0. -/
def irqEnWord (e : IrqEnable) : Word := 0#30 ++ bit e.errIe ++ bit e.doneIe

/-- What a write of `w` leaves in `IRQ_EN` (R26). -/
def irqEnOf (w : Word) : IrqEnable := { doneIe := w.getLsbD 0, errIe := w.getLsbD 1 }

/-- The interrupt line (R290). -/
def irq (s : State) : Bool := (s.status.done && s.irqEn.doneIe) || (s.status.err && s.irqEn.errIe)

/-- `PAL_COUNT` as the host reads it (R45). -/
def palCount (s : State) : Word := BitVec.ofNat 32 s.palette.length

/-- The flags after a command start (R131): `DONE`, `ERR` and `FOUND` are 0. -/
def startFlags : Status := { done := false, err := false, found := false }

/-- `DONE` is set at completion (R135). -/
def setDone (f : Status) : Status := { f with done := true }

/-- `ERR` is set by an abort; `DONE` stays as it is (R284). -/
def setErr (f : Status) : Status := { f with err := true }

/-- `FOUND` as PAL_PUSH, PAL_LOAD6 and PAL_FIND leave it (R24). -/
def setFound (found : Bool) (f : Status) : Status := { f with found := found }

/-- A host write of `w` to `STATUS` (R24): a 1 in bit 1 clears `DONE`, a 1 in bit 2 clears `ERR`; the rest is RO or
reserved. -/
def clearFlags (w : Word) (f : Status) : Status :=
  { f with done := f.done && !w.getLsbD 1, err := f.err && !w.getLsbD 2 }

/-- The same write's effect on `ERRCODE` (R24): a 1 in bit 2 sets it to 0. -/
def clearErrCode (w : Word) (code : Byte) : Byte := if w.getLsbD 2 then 0#8 else code

end Sys2Proof.Machine
end

