-- ==== Sys2Proof/Machine/Operands.lean ====
section
/-! DEFINITION. Every operand form: the fields of the operand registers (10_state.md R27 to R44), the windows of a
command (20_memory.md R75), colours (44_palette.md R250, R255), rects and the blit map (43_blit.md R210 to R216). -/

namespace Sys2Proof.Machine

/-! ### Bitmap dimensions and colours -/

/-- The `W` field of a dimension register (R35, R37). -/
def dimW (w : Word) : Nat := (w.extractLsb' 0 16).toNat

/-- The `H` field of a dimension register (R35, R37). -/
def dimH (w : Word) : Nat := (w.extractLsb' 16 16).toNat

/-- `ColorOf(w)` (R250): bits [31:24] are ignored. -/
def colorOf (w : Word) : Color := { r := w.extractLsb' 0 8, g := w.extractLsb' 8 8, b := w.extractLsb' 16 8 }

/-- `Pack(c)` (R250): bits [31:24] are 0. -/
def packColor (c : Color) : Word := 0#8 ++ c.b ++ c.g ++ c.r

/-- `Expand6(v) = (v * 4) mod 256` (R255). -/
def expand6 (v : Byte) : Byte := v * 4#8

/-! ### Windows -/

/-- The window holds the address `a`. -/
def Window.contains (w : Window) (a : Nat) : Bool := decide (w.base ≤ a) && decide (a < w.base + w.len)

/-- The two windows share at least one byte address (R91). -/
def Window.overlaps (v w : Window) : Bool :=
  decide (max v.base w.base < min (v.base + v.len) (w.base + w.len))

/-- The window check of R75, in `Int`: `base + len ≤ 2^32`. A window of length 0 always passes. -/
def Window.inRange (w : Window) : Bool := decide (w.base + w.len ≤ Config.addrSpace)

/-- `[SRC_ADDR, SRC_ADDR + SRC_LEN)` (R75). -/
def inputWindow (o : Operands) : Window := { base := o.srcAddr.toNat, len := o.srcLen.toNat }

/-- `[DST_ADDR, DST_ADDR + DST_CAP)` (R75). -/
def outputWindow (o : Operands) : Window := { base := o.dstAddr.toNat, len := o.dstCap.toNat }

/-- `[BS_ADDR, BS_ADDR + BS.W * BS.H)` (R75). -/
def sourceBitmap (o : Operands) : Window := { base := o.bsAddr.toNat, len := dimW o.bsDim * dimH o.bsDim }

/-- `[BD_ADDR, BD_ADDR + BD.W * BD.H)` (R75). -/
def destBitmap (o : Operands) : Window := { base := o.bdAddr.toNat, len := dimW o.bdDim * dimH o.bdDim }

/-- The windows a host command reads (R75). LCW_DECODE's back-references read its own output window, which is its written
window and no overlap (R91). A stream code has no window of its own: it runs inside its command's. -/
def readWindows : Instr → Operands → List Window
  | .lcwDecode, o => [inputWindow o]
  | .zrleExpand, o => [inputWindow o]
  | .blit, o => [sourceBitmap o]
  | .fill, _ => []
  | .palLoad6, o => [inputWindow o]
  | .palClear, _ => []
  | .palPush, _ => []
  | .palFind, _ => []
  | .palRead, _ => []
  | .modeRel, _ => []
  | .endMark, _ => []
  | .lit _, _ => []
  | .sref _ _, _ => []
  | .run _ _, _ => []
  | .lref _ _, _ => []
  | .mref _ _, _ => []
  | .zrun _, _ => []
  | .zlit _, _ => []

/-- The windows a host command writes (R75). -/
def writtenWindows : Instr → Operands → List Window
  | .lcwDecode, o => [outputWindow o]
  | .zrleExpand, o => [outputWindow o]
  | .blit, o => [destBitmap o]
  | .fill, o => [destBitmap o]
  | .palLoad6, _ => []
  | .palClear, _ => []
  | .palPush, _ => []
  | .palFind, _ => []
  | .palRead, _ => []
  | .modeRel, _ => []
  | .endMark, _ => []
  | .lit _, _ => []
  | .sref _ _, _ => []
  | .run _ _, _ => []
  | .lref _ _, _ => []
  | .mref _ _, _ => []
  | .zrun _, _ => []
  | .zlit _, _ => []

/-- Every window of the command, read windows first (R75). -/
def windows (i : Instr) (o : Operands) : List Window := readWindows i o ++ writtenWindows i o

/-- Every window of the command passes the check of R75. -/
def windowsInRange (i : Instr) (o : Operands) : Bool := (windows i o).all (·.inRange)

/-- A read window of the command and a written window of it share a byte address (R91). -/
def windowsOverlap (i : Instr) (o : Operands) : Bool :=
  (readWindows i o).any fun r => (writtenWindows i o).any fun w => r.overlaps w

/-- The host command the engine runs, if any: the one `CMD` names until its body begins, then the stream command of the
phase. -/
def running (s : State) : Option Instr :=
  match s.phase with
  | .idle => none
  | .accepted => decodeCmd s.cmd
  | .lcwMode => some .lcwDecode
  | .lcwCode => some .lcwDecode
  | .zrle => some .zrleExpand

/-- The written windows of the running command. A command whose window check fails accesses no window (R75). -/
def liveWritten (s : State) : List Window :=
  match running s with
  | some i => if windowsInRange i s.opr then writtenWindows i s.opr else []
  | none => []

/-- Every window of the running command, likewise. -/
def liveWindows (s : State) : List Window :=
  match running s with
  | some i => if windowsInRange i s.opr then windows i s.opr else []
  | none => []

/-- Some window of the list holds the address. -/
def inSome (ws : List Window) (a : Nat) : Bool := ws.any (·.contains a)

/-! ### Rects -/

/-- A rect value (R210): `width` and `height` are not negative. -/
structure Rect where
  left : Int
  top : Int
  width : Nat
  height : Nat
  deriving DecidableEq, Repr

/-- `right = left + width`, exclusive (R210). -/
def Rect.right (r : Rect) : Int := r.left + r.width

/-- `bottom = top + height`, exclusive (R210). -/
def Rect.bottom (r : Rect) : Int := r.top + r.height

/-- A rect is empty when its width or its height is 0 (R211). -/
def Rect.isEmpty (r : Rect) : Bool := decide (r.width = 0) || decide (r.height = 0)

/-- The zero rect `EMPTY` (R211). -/
def Rect.empty : Rect := { left := 0, top := 0, width := 0, height := 0 }

/-- The point `(x, y)` is a point of the rect (R210). -/
def Rect.hasPoint (r : Rect) (x y : Int) : Prop := r.left ≤ x ∧ x < r.right ∧ r.top ≤ y ∧ y < r.bottom

/-- `Intersect(A, B)` (R212). -/
def Rect.intersect (a b : Rect) : Option Rect :=
  let l := max a.left b.left
  let t := max a.top b.top
  let r := min a.right b.right
  let m := min a.bottom b.bottom
  if l < r ∧ t < m then some { left := l, top := t, width := (r - l).toNat, height := (m - t).toNat } else none

/-- `Clip(Rc, W, H)` (R213). -/
def Rect.clip (rc : Rect) (w h : Nat) : Rect :=
  match rc.intersect { left := 0, top := 0, width := w, height := h } with
  | some r => r
  | none => Rect.empty

/-- The source rect (R210): coordinates read with `sext`, sizes with `zext` (R38, R39). -/
def sourceRect (o : Operands) : Rect :=
  { left := o.srX.toInt, top := o.srY.toInt, width := o.srW.toNat, height := o.srH.toNat }

/-- The destination rect (R210, R40, R41). -/
def destRect (o : Operands) : Rect :=
  { left := o.drX.toInt, top := o.drY.toInt, width := o.drW.toNat, height := o.drH.toNat }

/-- The source rect clipped to the source bitmap, `cs` of R215. -/
def clippedSource (o : Operands) : Rect := (sourceRect o).clip (dimW o.bsDim) (dimH o.bsDim)

/-- The destination rect clipped to the destination bitmap, `cd` of R215 and R218. -/
def clippedDest (o : Operands) : Rect := (destRect o).clip (dimW o.bdDim) (dimH o.bdDim)

/-- The points of a rect of this size, as offsets from its top left, in row-major order (R214). -/
def offsets (width height : Nat) : List (Nat × Nat) :=
  (List.range height).flatMap fun j => (List.range width).map fun i => (i, j)

/-- The per-axis map (R216): the offset `d` from the clipped destination's edge goes to
`csEdge + floor(d * csSize / cdSize)`. -/
def mapAxis (csEdge : Int) (csSize cdSize d : Nat) : Int := csEdge + ((d * csSize / cdSize : Nat) : Int)

/-- `PixAddr(A, W, x, y) = A + y*W + x` (R80), as an engine address. -/
def pixAddr (base : Word) (width : Nat) (x y : Int) : Word :=
  BitVec.ofNat 32 (base.toNat + y.toNat * width + x.toNat)

/-! ### Stream operands -/

/-- The count of an SREF: `cmd[6:4] + 3` (30_encoding.md R105). -/
def srefCount (c : BitVec 3) : Nat := c.toNat + 3

/-- The count of an MREF: `cmd[5:0] + 3` (30_encoding.md R105). -/
def mrefCount (c : BitVec 6) : Nat := c.toNat + 3

/-- Where a copy starts (41_lcw.md R152): `out_len - p` in relative mode, `p` in absolute mode. -/
def copyBase (mode : LcwMode) (outLen : Word) (p : BitVec 16) : Int :=
  match mode with
  | .rel => (outLen.toNat : Int) - p.toNat
  | .abs => p.toNat

end Sys2Proof.Machine
end

