-- ==== Sys2Proof/Machine/Ops.lean ====
section
/-! DEFINITION. The shared operations: system memory, the engine's byte accesses and stream primitives (20_memory.md R71
to R79), the palette's push (44_palette.md R252), a command's start, completion and abort (40_command_interface.md R131,
R135; 60_exceptions.md R284), and what an unspecified result is. -/

namespace Sys2Proof.Machine

/-! ### System memory -/

/-- The byte at an address: the listed one, or the blank byte. -/
def Memory.read : Memory → Nat → Byte
  | [], _ => Config.blankByte
  | (k, v) :: rest, a => if k = a then v else Memory.read rest a

/-- Store a byte. Storing the blank byte takes the entry out, so that equal memories are equal lists. -/
def Memory.write : Memory → Nat → Byte → Memory
  | [], a, v => if v = Config.blankByte then [] else [(a, v)]
  | (k, w) :: rest, a, v =>
    if a < k then (if v = Config.blankByte then (k, w) :: rest else (a, v) :: (k, w) :: rest)
    else if a = k then (if v = Config.blankByte then rest else (a, v) :: rest)
    else (k, w) :: Memory.write rest a v

/-- The canonical form: addresses strictly rising and below 2^32, no blank byte listed. -/
def Memory.wf : Memory → Bool
  | [] => true
  | [(k, v)] => decide (k < Config.addrSpace) && decide (v ≠ Config.blankByte)
  | (k, v) :: (k', v') :: rest =>
    decide (k < k') && decide (v ≠ Config.blankByte) && Memory.wf ((k', v') :: rest)

/-- Give each of the `len` bytes from `base` on the value `f` has for its address. -/
def Memory.overwrite : Nat → Nat → (Nat → Byte) → Memory → Memory
  | 0, _, _, m => m
  | len + 1, base, f, m =>
    (Memory.overwrite len base f m).write ((base + len) % Config.addrSpace) (f ((base + len) % Config.addrSpace))

/-- The same for every byte of each window. -/
def Memory.overwriteAll (ws : List Window) (f : Nat → Byte) (m : Memory) : Memory :=
  ws.foldl (fun m w => m.overwrite w.len w.base f) m

/-! ### Outcomes of an engine operation -/

/-- An engine operation goes on with a value and a state, or raises an error (00_scope.md R10): the error, the value it
records in `ERR_ADDR` (60_exceptions.md R282), and the state at the failing step. -/
inductive Eff (α : Type) where
  | ok (v : α) (s : State)
  | raise (e : Error) (recorded : Word) (s : State)

/-- Then: an error ends the sequence. -/
def Eff.andThen {α β : Type} (x : Eff α) (f : α → State → Eff β) : Eff β :=
  match x with
  | .ok v s => f v s
  | .raise e a s => .raise e a s

/-- The state an operation ends in, whether it goes on or raises. -/
def Eff.state {α : Type} : Eff α → State
  | .ok _ s => s
  | .raise _ _ s => s

/-- `for x in xs` (00_scope.md R10): in order, until one raises. -/
def forEach {α : Type} : List α → (α → State → Eff Unit) → State → Eff Unit
  | [], _, s => .ok () s
  | x :: xs, f, s => (f x s).andThen fun _ s' => forEach xs f s'

/-! ### Engine accesses to system memory -/

/-- `MemAdmit(a)` (R71): some region of the platform answers at `a`. -/
def admits (platform : List Region) (a : Word) : Bool := platform.any (·.range.contains a.toNat)

/-- `MemRead(a, 1)` (R71): an access that is not admitted does not happen and raises `BusError(a)`. -/
def memRead (a : Word) (s : State) : Eff Byte :=
  if admits s.platform a then .ok (s.mem.read a.toNat) s else .raise .busError a s

/-- `MemWrite(a, 1, v)` (R71). -/
def memWrite (a : Word) (v : Byte) (s : State) : Eff Unit :=
  if admits s.platform a then .ok () { s with mem := s.mem.write a.toNat v } else .raise .busError a s

/-- A window of the command lies over a device region of the platform (R84). -/
def overDevice (i : Instr) (s : State) : Bool :=
  s.platform.any fun r => decide (r.kind = .device) && (windows i s.opr).any fun w => r.range.overlaps w

/-! ### Stream primitives -/

/-- Raise a stream error: it records `cmd_start` (60_exceptions.md R282). -/
def raiseStream {α : Type} (e : Error) (s : State) : Eff α := .raise e s.eng.cmdStart s

/-- The address of the next input byte, `SRC_ADDR + in_pos` (R76). -/
def inAddr (s : State) : Word := s.opr.srcAddr + s.eng.inPos

/-- `cmd_start <- in_pos` (41_lcw.md R150, 42_zero_run.md R190). -/
def markStart (s : State) : State := { s with eng := { s.eng with cmdStart := s.eng.inPos } }

/-- `in_pos <- in_pos + 1`. -/
def advance (s : State) : State := { s with eng := { s.eng with inPos := s.eng.inPos + 1#32 } }

/-- Read the byte at the cursor and move past it, without the length check (42_zero_run.md R190). -/
def takeByte (s : State) : Eff Byte := (memRead (inAddr s) s).andThen fun v s' => .ok v (advance s')

/-- `InByte()` (R76). -/
def inByte (s : State) : Eff Byte :=
  if s.opr.srcLen ≤ s.eng.inPos then raiseStream .inputExhausted s else takeByte s

/-- `n` calls of `InByte()`: the bytes of a payload whose values the decoder has assembled. -/
def inBytes : Nat → State → Eff Unit
  | 0, s => .ok () s
  | n + 1, s => (inByte s).andThen fun _ s' => inBytes n s'

/-- The address of output byte `i`, `DST_ADDR + i`. -/
def outAddr (s : State) (i : Nat) : Word := s.opr.dstAddr + BitVec.ofNat 32 i

/-- `OutRead(i)` (R78). -/
def outRead (i : Int) (s : State) : Eff Byte :=
  if i < 0 ∨ (s.eng.outLen.toNat : Int) ≤ i then raiseStream .lcwBounds s else memRead (outAddr s i.toNat) s

/-- `out_len <- out_len + 1`. -/
def grow (s : State) : State := { s with eng := { s.eng with outLen := s.eng.outLen + 1#32 } }

/-- `OutByte(v)` (R79): a `BusError` on the write leaves `out_len` unchanged. -/
def outByte (v : Byte) (s : State) : Eff Unit :=
  if s.opr.dstCap ≤ s.eng.outLen then raiseStream .outputOverflow s
  else (memWrite (outAddr s s.eng.outLen.toNat) v s).andThen fun _ s' => .ok () (grow s')

/-- `repeat n: OutByte(v)`. -/
def outRepeat (n : Nat) (v : Byte) (s : State) : Eff Unit := forEach (List.replicate n v) outByte s

/-- The copy loop of 41_lcw.md R152 and R155: `n` times read output byte `i`, append it, and go on with `i + 1`. -/
def copyLoop : Nat → Int → State → Eff Unit
  | 0, _, s => .ok () s
  | n + 1, i, s => (outRead i s).andThen fun v s1 => (outByte v s1).andThen fun _ s2 => copyLoop n (i + 1) s2

/-! ### The palette -/

/-- The index of a colour among the valid entries: the reverse map `PAL_MAP` (R48, R252). -/
def findColor : List Color → Color → Option Nat
  | [], _ => none
  | d :: rest, c => if d = c then some 0 else (findColor rest c).map (· + 1)

/-- `Push(c)` (R252): the palette after it, the index and whether the colour was found; none when it is absent and the
palette is full (`PalFull`). -/
def pushColor (p : List Color) (c : Color) : Option (List Color × Nat × Bool) :=
  match findColor p c with
  | some i => some (p, i, true)
  | none => if Config.palCap ≤ p.length then none else some (p ++ [c], p.length, false)

/-- A palette made of pushes of these colours, those that find no room left out. -/
def pushAll (cs : List Color) : List Color :=
  cs.foldl (fun p c => match pushColor p c with | some (q, _, _) => q | none => p) []

/-! ### Unspecified results -/

/-- The free value number `k` of this state. -/
def freeWord (s : State) (k : Nat) : Word := Config.freeValue (s.freeCount + k)

/-- A free byte: one for each address. -/
def freeByte (s : State) (a : Nat) : Byte := (freeWord s a).extractLsb' 0 8

/-- A free choice for each address. -/
def freeChoice (s : State) (a : Nat) : Bool := (freeWord s a).getLsbD 8

/-- Number `k` of the free values that belong to no address. -/
def freeExtra (s : State) (k : Nat) : Word := freeWord s (Config.addrSpace + k)

/-- How many free values one use takes: one for each address and 1024 more. -/
def freeBlock : Nat := Config.addrSpace + 1024

/-- An unspecified palette: some distinct colours, at most `PAL_CAP` (R45, R49). -/
def freePalette (s : State) : List Color :=
  pushAll ((List.range ((freeExtra s 8).toNat % (Config.palCap + 1))).map fun k => colorOf (freeExtra s (16 + k)))

/-- The result registers and the palette that the command's own rule writes become free values (R91, R138). -/
def scrambleResults : Instr → State → State → State
  | .lcwDecode, s, t => { t with outLen := freeExtra s 4, inUsed := freeExtra s 5 }
  | .zrleExpand, s, t => { t with outLen := freeExtra s 4, inUsed := freeExtra s 5 }
  | .palLoad6, s, t =>
    { t with
      inUsed := freeExtra s 5
      palette := freePalette s
      palIndex := (freeExtra s 6).extractLsb' 0 16
      status := setFound ((freeExtra s 7).getLsbD 0) t.status }
  | .blit, _, t => t
  | .fill, _, t => t
  | .palClear, _, t => t
  | .palPush, _, t => t
  | .palFind, _, t => t
  | .palRead, _, t => t
  | .modeRel, _, t => t
  | .endMark, _, t => t
  | .lit _, _, t => t
  | .sref _ _, _, t => t
  | .run _ _, _, t => t
  | .lref _ _, _, t => t
  | .mref _ _, _, t => t
  | .zrun _, _, t => t
  | .zlit _, _, t => t

/-- After a host write to one of the command's windows, every register and store that R89 lists is a free value, whatever
the command. -/
def scrambleRaced (s t : State) : State :=
  if s.raced then { t with outLen := freeExtra s 4, inUsed := freeExtra s 5, palette := freePalette s } else t

/-- The registers and the palette as unspecified results leave them (R89, R91). `s` is the state before the end, and `t` the
end without them. -/
def freeResults (s t : State) : State :=
  scrambleRaced s
    (match running s with
     | some i => scrambleResults i s t
     | none => t)

/-- The end `t` of a command whose results are unspecified (R89, R91; log entries 8 and 9): its written bytes, its result
registers, `ERR_ADDR`, `ERRCODE` (an assigned code, R281) and which of `DONE` and `ERR` is set are free values. `s` is the
state before the end. -/
def scramble (s t : State) : State :=
  { freeResults s t with
    mem := t.mem.overwriteAll (liveWritten s) (freeByte s)
    status :=
      { (freeResults s t).status with done := (freeExtra s 0).getLsbD 0, err := !(freeExtra s 0).getLsbD 0 }
    errCode := BitVec.ofNat 8 ((freeExtra s 1).toNat % 11)
    errAddr := freeExtra s 2
    freeCount := s.freeCount + freeBlock }

/-! ### A command's start and end -/

/-- The command start of R131, up to its checks: the flags and `ERRCODE` are cleared and the block is busy. -/
def startCommand (w : Word) (s : State) : State :=
  { s with
    cmd := w
    status := startFlags
    errCode := 0#8
    phase := .accepted
    unsettled := false
    raced := false
    startMem := s.mem }

/-- The results a stream command writes at its end, completed or aborted (R53, R284): `OUT_LEN` and `IN_USED`. Before its
body there are none (vector C-4; log entry 12). -/
def streamResults (s : State) : State :=
  match s.phase with
  | .idle => s
  | .accepted => s
  | .lcwMode => { s with outLen := s.eng.outLen, inUsed := s.eng.inPos }
  | .lcwCode => { s with outLen := s.eng.outLen, inUsed := s.eng.inPos }
  | .zrle => { s with outLen := s.eng.outLen, inUsed := s.eng.inPos }

/-- `BUSY` falls. `s` is the state before the end and `t` the state with the results written. -/
def endCommand (s t : State) : State :=
  let u := { t with phase := .idle, unsettled := false, startMem := [] }
  if s.unsettled then scramble s u else u

/-- `Complete()` (R135). -/
def complete (s : State) : State := endCommand s { streamResults s with status := setDone s.status }

/-- The code of an error (R281). -/
def errorCode : Error → Byte
  | .illegalCmd => 0x01#8
  | .rangeError => 0x02#8
  | .inputExhausted => 0x03#8
  | .lcwBounds => 0x04#8
  | .zrleMissingCount => 0x05#8
  | .outputOverflow => 0x06#8
  | .palFull => 0x07#8
  | .palRange => 0x08#8
  | .palBadLen => 0x09#8
  | .busError => 0x0A#8

/-- `Abort(E, a)` (R284): taking an exception. The partial results stay, `ERRCODE` and `ERR_ADDR` are written, `BUSY` falls
and `ERR` is set. -/
def abort (e : Error) (recorded : Word) (s : State) : State :=
  endCommand s { streamResults s with errCode := errorCode e, errAddr := recorded, status := setErr s.status }

/-- The return from an error (R285): a host write of `w` to `STATUS` (R24). `ERR_ADDR` stays. -/
def acknowledge (w : Word) (s : State) : State :=
  { s with status := clearFlags w s.status, errCode := clearErrCode w s.errCode }

/-- Outcomes of an instruction. -/
abbrev Outcome := Host.Outcome State Fault Refusal

/-- The end of a stream code: the command goes on with the next code, or aborts. -/
def endCode (x : Eff Unit) : Outcome :=
  match x with
  | .ok _ s => .next s
  | .raise e a s => .next (abort e a s)

/-- The end of a command's body: completion, or the abort. -/
def endBody (x : Eff Unit) : Outcome :=
  match x with
  | .ok _ s => .next (complete s)
  | .raise e a s => .next (abort e a s)

/-- The results are unspecified when the command's windows overlap (R91). DESIGN CHOICE (log entry 8): that holds of every
command whose body begins, whatever the body accesses, so also for a BLIT with an empty clipped rect, where R215 has no access at all. -/
def markOverlap (i : Instr) (s : State) : State :=
  { s with unsettled := s.unsettled || windowsOverlap i s.opr }

/-- The checks of R131 after the opcode check, in the order of R283, and then the body. `badLen` is the PAL_LOAD6 check.
DESIGN CHOICE (log entry 8): a command whose windows overlap and also fail the check of R75 ends with exactly `RANGE`; R91 has
no exception for it, and the model takes R91 to speak of commands whose body begins. -/
def runBody (i : Instr) (badLen : Bool) (body : State → Outcome) (s : State) : Outcome :=
  if !windowsInRange i s.opr then .next (abort .rangeError 0#32 s)
  else if badLen then .next (abort .palBadLen 0#32 s)
  else if overDevice i s then .refused .windowOverDevice
  else body (markOverlap i s)

end Sys2Proof.Machine
end

