-- ==== Sys2Proof/Machine/Blit.lean ====
section
/-! DEFINITION. The bitmap blitter: BLIT and FILL (43_blit.md R210 to R218). -/

namespace Sys2Proof.Machine

/-- The address `get_pixel` reads for the destination pixel at the offset `(i, j)` of the clipped destination rect (R215,
R216, R80). -/
def blitFrom (o : Operands) (ij : Nat × Nat) : Word :=
  pixAddr o.bsAddr (dimW o.bsDim)
    (mapAxis (clippedSource o).left (clippedSource o).width (clippedDest o).width ij.1)
    (mapAxis (clippedSource o).top (clippedSource o).height (clippedDest o).height ij.2)

/-- The address of the destination pixel at the offset `(i, j)` of the clipped destination rect (R215, R218, R80). -/
def destPixel (o : Operands) (ij : Nat × Nat) : Word :=
  pixAddr o.bdAddr (dimW o.bdDim) ((clippedDest o).left + (ij.1 : Nat)) ((clippedDest o).top + (ij.2 : Nat))

/-- One pixel of a blit: one read, then one write (R215). -/
def blitPixel (o : Operands) (ij : Nat × Nat) (s : State) : Eff Unit :=
  (memRead (blitFrom o ij) s).andThen fun v s => memWrite (destPixel o ij) v s

/-- The body of BLIT (R215): no access at all when either clipped rect is empty. -/
def blitBody (s : State) : Eff Unit :=
  if (clippedSource s.opr).isEmpty || (clippedDest s.opr).isEmpty then .ok () s
  else forEach (offsets (clippedDest s.opr).width (clippedDest s.opr).height) (blitPixel s.opr) s

/-- `BLIT` (R215). -/
def execBlit (s : State) : Outcome := runBody .blit false (fun s => endBody (blitBody s)) s

/-- The body of FILL (R218): `FILL_VAL.V` to every point of the clipped rect, in row-major order. -/
def fillBody (s : State) : Eff Unit :=
  forEach (offsets (clippedDest s.opr).width (clippedDest s.opr).height)
    (fun ij s' => memWrite (destPixel s.opr ij) s.opr.fillVal s') s

/-- `FILL` (R218). -/
def execFill (s : State) : Outcome := runBody .fill false (fun s => endBody (fillBody s)) s

end Sys2Proof.Machine
end

