-- ==== Sys2Proof/Machine/Lcw.lean ====
section
/-! DEFINITION. The LCW decompressor: the host command LCW_DECODE, the mode byte and the six LCW commands (41_lcw.md R150
to R158). A stream code's operands were assembled by the decoder from the bytes at the cursor; its accesses, and the errors
they raise, happen here, in the order of the rule's pseudocode (log entry 16). -/

namespace Sys2Proof.Machine

/-- `LCW_DECODE` (R150): the checks of R131, then `in_pos`, `out_len` and `cmd_start` are 0 and the mode byte comes next.
The loop of R150 is the engine's own: each code is an instruction (log entry 7). -/
def execLcwDecode (s : State) : Outcome :=
  runBody .lcwDecode false
    (fun s => .next { s with
      phase := .lcwMode
      eng := { s.eng with inPos := 0#32, outLen := 0#32, cmdStart := 0#32 } }) s

/-- The relative mode byte (R151): it is consumed, and the loop begins. -/
def execModeRel (s : State) : Outcome :=
  endCode ((inByte s).andThen fun _ s => .ok () { s with phase := .lcwCode, eng := { s.eng with mode := .rel } })

/-- Any other mode byte (R151): it selects absolute mode and is un-consumed. -/
def selectAbsolute (s : State) : State := { s with phase := .lcwCode, eng := { s.eng with mode := .abs } }

/-- The top of the loop (R150): `cmd_start <- in_pos; cmd <- InByte()`, then the rest of the code. -/
def lcwCode (rest : State → Eff Unit) (s : State) : Eff Unit :=
  (inByte (markStart s)).andThen fun _ s => rest s

/-- `END` (R153): leave the loop; the command completes. -/
def execEndMark (s : State) : Outcome := endBody (lcwCode (fun s => .ok () s) s)

/-- `LIT` (R154): `n` times `OutByte(InByte())`. -/
def execLit (bytes : List Byte) (s : State) : Outcome :=
  endCode (lcwCode (forEach bytes fun b s => (inByte s).andThen fun _ s => outByte b s) s)

/-- The body of `SREF` after its position byte (R155): always relative; position 1 repeats the last output byte. -/
def srefBody (n : Nat) (p : BitVec 12) (s : State) : Eff Unit :=
  if p = 1#12 then
    if s.eng.outLen = 0#32 then raiseStream .lcwBounds s
    else (outRead ((s.eng.outLen.toNat : Int) - 1) s).andThen fun v s => outRepeat n v s
  else copyLoop n ((s.eng.outLen.toNat : Int) - p.toNat) s

/-- `SREF` (R155). -/
def execSref (c : BitVec 3) (p : BitVec 12) (s : State) : Outcome :=
  endCode (lcwCode (fun s => (inBytes 1 s).andThen fun _ s => srefBody (srefCount c) p s) s)

/-- `RUN` (R156): the appends come after all reads. -/
def execRun (n : BitVec 16) (v : Byte) (s : State) : Outcome :=
  endCode (lcwCode (fun s => (inBytes 3 s).andThen fun _ s => outRepeat n.toNat v s) s)

/-- `Copy(n, p)` (R152): the base is computed once, from `out_len` at the start of the copy. -/
def copy (n : Nat) (p : BitVec 16) (s : State) : Eff Unit := copyLoop n (copyBase s.eng.mode s.eng.outLen p) s

/-- `LREF` (R157). -/
def execLref (n p : BitVec 16) (s : State) : Outcome :=
  endCode (lcwCode (fun s => (inBytes 4 s).andThen fun _ s => copy n.toNat p s) s)

/-- `MREF` (R158). -/
def execMref (c : BitVec 6) (p : BitVec 16) (s : State) : Outcome :=
  endCode (lcwCode (fun s => (inBytes 2 s).andThen fun _ s => copy (mrefCount c) p s) s)

end Sys2Proof.Machine
end

