-- ==== Sys2Proof/Machine/Palette.lean ====
section
/-! DEFINITION. The palette commands (44_palette.md R251 to R256). -/

namespace Sys2Proof.Machine

/-- `PAL_CLEAR` (R251): `N <- 0`. -/
def execPalClear (s : State) : Outcome :=
  runBody .palClear false (fun s => endBody (.ok () { s with palette := [] })) s

/-- `Push(c)` with its results (R252, R256): the palette, `PAL_INDEX` and `FOUND`. `PalFull` records `recorded`. -/
def push (c : Color) (recorded : Word) (s : State) : Eff Unit :=
  match pushColor s.palette c with
  | some (p, i, found) =>
    .ok () { s with palette := p, palIndex := BitVec.ofNat 16 i, status := setFound found s.status }
  | none => .raise .palFull recorded s

/-- `PAL_PUSH` (R252). -/
def execPalPush (s : State) : Outcome :=
  runBody .palPush false (fun s => endBody (push s.palColor 0#32 s)) s

/-- The address of byte `k` of the raw palette, `SRC_ADDR + k` (R256). -/
def rawAddr (s : State) (k : Nat) : Word := s.opr.srcAddr + BitVec.ofNat 32 k

/-- Entry `e` of the raw palette (R256): three reads, the expansion of each channel, the push, and then `k` is `e + 1`,
so that `IN_USED` is `3 * k` however the command ends. -/
def loadEntry (e : Nat) (s : State) : Eff Unit :=
  (memRead (rawAddr s (3 * e)) s).andThen fun r s =>
  (memRead (rawAddr s (3 * e + 1)) s).andThen fun g s =>
  (memRead (rawAddr s (3 * e + 2)) s).andThen fun b s =>
  (push { r := expand6 r, g := expand6 g, b := expand6 b } (BitVec.ofNat 32 (3 * e)) s).andThen fun _ s =>
  .ok () { s with inUsed := BitVec.ofNat 32 (3 * (e + 1)) }

/-- `PAL_LOAD6` (R256): `PalBadLen` unless `SRC_LEN` is a multiple of 3 (R131), then the entries in file order. `IN_USED` is
`3 * k` for the `k` entries pushed so far, however the command ends (R32, R284): 0 when a start check fails. -/
def execPalLoad6 (s : State) : Outcome :=
  runBody .palLoad6 (decide (s.opr.srcLen.toNat % 3 ≠ 0))
    (fun s => endBody (forEach (List.range (s.opr.srcLen.toNat / 3)) loadEntry s)) { s with inUsed := 0#32 }

/-- `PAL_FIND` (R253): a miss is a result, not an error, and leaves `PAL_INDEX`. -/
def execPalFind (s : State) : Outcome :=
  runBody .palFind false
    (fun s => endBody
      (match findColor s.palette s.palColor with
       | some i => .ok () { s with palIndex := BitVec.ofNat 16 i, status := setFound true s.status }
       | none => .ok () { s with status := setFound false s.status })) s

/-- `PAL_READ` (R254): `PalRange` when the index is no valid entry. -/
def execPalRead (s : State) : Outcome :=
  runBody .palRead false
    (fun s => endBody
      (match s.palette[s.palIndex.toNat]? with
       | some c => .ok () { s with palColor := c }
       | none => .raise .palRange 0#32 s)) s

end Sys2Proof.Machine
end

