-- ==== Sys2Proof/Machine/ZeroRun.lean ====
section
/-! DEFINITION. The zero-run expander: the host command ZRLE_EXPAND and its two codes (42_zero_run.md R190 to R193). -/

namespace Sys2Proof.Machine

/-- `ZRLE_EXPAND` (R190): the checks of R131, then `in_pos` and `out_len` are 0 and the loop begins. Each code is an
instruction; the loop's test `in_pos < SRC_LEN` is the engine's own (R191, log entry 7). -/
def execZrleExpand (s : State) : Outcome :=
  runBody .zrleExpand false
    (fun s => .next { s with phase := .zrle, eng := { s.eng with inPos := 0#32, outLen := 0#32 } }) s

/-- The top of the loop (R190): `cmd_start <- in_pos`, the code byte is read, then the rest of the code. -/
def zrleCode (rest : State → Eff Unit) (s : State) : Eff Unit :=
  (takeByte (markStart s)).andThen fun _ s => rest s

/-- The count byte of a zero run (R192): the input may end before it. -/
def countByte (s : State) : Eff Byte :=
  if s.opr.srcLen ≤ s.eng.inPos then raiseStream .zrleMissingCount s else takeByte s

/-- `ZRUN` (R192). -/
def execZrun (n : Byte) (s : State) : Outcome :=
  endCode (zrleCode (fun s => (countByte s).andThen fun _ s => outRepeat n.toNat 0x00#8 s) s)

/-- `ZLIT` (R193): the byte is copied through unchanged, exactly once. -/
def execZlit (v : Byte) (s : State) : Outcome := endCode (zrleCode (outByte v) s)

end Sys2Proof.Machine
end

