-- ==== Sys2Proof/Machine/Dispatch.lean ====
section
/-! DEFINITION. The meaning of every instruction, one arm per constructor. -/

namespace Sys2Proof.Machine

def exec (i : Instr) (s : State) : Host.Outcome State Fault Refusal :=
  match i with
  | .modeRel => Sys2Proof.Machine.execModeRel s
  | .endMark => Sys2Proof.Machine.execEndMark s
  | .lit bytes => Sys2Proof.Machine.execLit bytes s
  | .sref c p => Sys2Proof.Machine.execSref c p s
  | .run n v => Sys2Proof.Machine.execRun n v s
  | .lref n p => Sys2Proof.Machine.execLref n p s
  | .mref c p => Sys2Proof.Machine.execMref c p s
  | .zrun n => Sys2Proof.Machine.execZrun n s
  | .zlit v => Sys2Proof.Machine.execZlit v s
  | .lcwDecode => Sys2Proof.Machine.execLcwDecode s
  | .zrleExpand => Sys2Proof.Machine.execZrleExpand s
  | .blit => Sys2Proof.Machine.execBlit s
  | .fill => Sys2Proof.Machine.execFill s
  | .palClear => Sys2Proof.Machine.execPalClear s
  | .palPush => Sys2Proof.Machine.execPalPush s
  | .palLoad6 => Sys2Proof.Machine.execPalLoad6 s
  | .palFind => Sys2Proof.Machine.execPalFind s
  | .palRead => Sys2Proof.Machine.execPalRead s

end Sys2Proof.Machine
end

