-- ==== Sys2Proof/Machine/Fetch.lean ====
section
/-! DEFINITION. What the engine does next when it is its turn: the instruction it runs, or the state it moves to without
one (an idle block, an illegal command, the end of a zero-run stream, an absolute mode byte, a code byte that cannot be
read). -/

namespace Sys2Proof.Machine

/-- What comes next for the engine. -/
inductive Fetched where
  /-- This instruction runs. -/
  | run (i : Instr)
  /-- No instruction: the engine moves to this state. -/
  | moved (s : State)
  deriving DecidableEq, Repr

/-- The byte of memory at `SRC_ADDR + in_pos + k`, for the decoder. Looking is no access: the instruction makes the access,
and raises its error when the window ends or the platform does not answer (log entry 16). -/
def codeByte (s : State) (k : Nat) : Byte := s.mem.read (inAddr s + BitVec.ofNat 32 k).toNat

/-- The `n` bytes from the cursor on. -/
def codeBytes (s : State) (n : Nat) : List Byte := (List.range n).map (codeByte s)

/-- The code's bytes, by the decoder that reads them, as many as its first byte asks for (R111). -/
def codeAt (cs : CodeSet) (s : State) : List Byte :=
  match cs with
  | .lcwMode => codeBytes s 1
  | .lcw => codeBytes s (lcwLength (codeByte s 0))
  | .zrle => codeBytes s 2
  | .cmd => []

/-- The state from which a code fails at its first byte: `cmd_start` is its offset. The mode byte's offset is 0. -/
def fetchStart (cs : CodeSet) (s : State) : State :=
  match cs with
  | .lcwMode => s
  | .lcw => markStart s
  | .zrle => markStart s
  | .cmd => s

/-- The stream code at the cursor (R76, R150, R151, R190). -/
def fetchCode (cs : CodeSet) (s : State) : Fetched :=
  if s.opr.srcLen ≤ s.eng.inPos then .moved (abort .inputExhausted (fetchStart cs s).eng.cmdStart (fetchStart cs s))
  else if !admits s.platform (inAddr s) then .moved (abort .busError (inAddr s) (fetchStart cs s))
  else
    match decode cs (codeAt cs s) with
    | .code i _ => .run i
    | .reject .absoluteMode => .moved (selectAbsolute s)
    | .reject .noBytes => .moved (abort .inputExhausted (fetchStart cs s).eng.cmdStart (fetchStart cs s))
    | .reject .truncated => .moved (abort .inputExhausted (fetchStart cs s).eng.cmdStart (fetchStart cs s))
    | .reject .illegalCmd => .moved (abort .illegalCmd 0#32 (fetchStart cs s))

/-- The engine's next move. -/
def fetch (s : State) : Fetched :=
  match s.phase with
  | .idle => .moved s
  | .accepted =>
    match decodeCmd s.cmd with
    | some i => .run i
    | none => .moved (abort .illegalCmd 0#32 s)
  | .lcwMode => fetchCode .lcwMode s
  | .lcwCode => fetchCode .lcw s
  | .zrle => if s.opr.srcLen ≤ s.eng.inPos then .moved (complete s) else fetchCode .zrle s

end Sys2Proof.Machine
end

