-- ==== Sys2Proof/Machine/Engine.lean ====
section
/-! DEFINITION. One step of the engine, and what the running command would leave in memory if nothing disturbed it. -/

namespace Sys2Proof.Machine

/-- One step of the engine: the instruction that comes next, or the engine's own move. -/
def engineStep (s : State) : Outcome :=
  match fetch s with
  | .run i => exec i s
  | .moved t => .next t

/-- Run the engine until the command ends, at most `n` steps. DESIGN CHOICE (log entries 10, 11): a command that would be
refused, because a window of it lies over a device, has written nothing, so a host read or a reset that comes before the
refusal finds its written windows as they were; R84 and U3 leave that open. -/
def runEngine : Nat → State → State
  | 0, s => s
  | n + 1, s =>
    if s.phase = .idle then s
    else
      match engineStep s with
      | .next t => runEngine n t
      | .fault _ => s
      | .refused _ => s

/-- How many engine steps the running command can take at most: the start, the mode byte, one for each input byte, and the
end (40_command_interface.md R133: every iteration reads at least one input byte). -/
def stepBound (s : State) : Nat := s.opr.srcLen.toNat + 4

/-- Memory as the running command would leave it. -/
def finalMem (s : State) : Memory := (runEngine (stepBound s) { s with unsettled := false }).mem

/-- A byte of a running command's written window, as the host may see it (20_memory.md R89) and as a reset may leave it
(70_reset_and_hazards.md R321): the old byte or the one the command would have written, as the free choice says. When the
command's results are unspecified (R89, R91), a free byte. -/
def settleByte (s : State) (a : Nat) : Byte :=
  if s.unsettled || (match running s with | some i => windowsOverlap i s.opr | none => false) then freeByte s a
  else if freeChoice s a then s.startMem.read a
  else (finalMem s).read a

end Sys2Proof.Machine
end

