-- ==== Sys2Proof/Machine/HostBus.lean ====
section
/-! DEFINITION. What the host does to the block: register accesses (10_state.md R21 to R47, R54; 20_memory.md R81), memory
accesses (20_memory.md R87 to R89), the interrupt line (60_exceptions.md R290) and the reset input
(70_reset_and_hazards.md R320, R321). -/

namespace Sys2Proof.Machine

/-- The register map, read (R21): reserved offsets and `CMD` read 0 (R22, R47). -/
def readReg (offset : BitVec 8) (s : State) : Word :=
  match offset.toNat with
  | 0x04 => statusWord s
  | 0x08 => s.errCode.setWidth 32
  | 0x0C => irqEnWord s.irqEn
  | 0x10 => s.opr.srcAddr
  | 0x14 => s.opr.srcLen
  | 0x18 => s.opr.dstAddr
  | 0x1C => s.opr.dstCap
  | 0x20 => s.outLen
  | 0x24 => s.inUsed
  | 0x28 => s.errAddr
  | 0x30 => s.opr.bsAddr
  | 0x34 => s.opr.bsDim
  | 0x38 => s.opr.bdAddr
  | 0x3C => s.opr.bdDim
  | 0x40 => s.opr.srX
  | 0x44 => s.opr.srY
  | 0x48 => s.opr.srW
  | 0x4C => s.opr.srH
  | 0x50 => s.opr.drX
  | 0x54 => s.opr.drY
  | 0x58 => s.opr.drW
  | 0x5C => s.opr.drH
  | 0x60 => s.opr.fillVal.setWidth 32
  | 0x70 => packColor s.palColor
  | 0x74 => s.palIndex.setWidth 32
  | 0x78 => palCount s
  | 0x7C => BitVec.ofNat 32 Config.palCap
  | _ => 0#32

/-- A write to `CMD` (R23, R54, R131): ignored while busy, otherwise it starts a command. -/
def writeCmd (v : Word) (s : State) : State := if s.busy then s else startCommand v s

/-- A write to an operand register: ignored while busy (R54). -/
def writeOpr (f : Operands → Operands) (s : State) : State := if s.busy then s else { s with opr := f s.opr }

/-- A write to `PAL_COLOR` (R43): ignored while busy (R54). -/
def writePalColor (v : Word) (s : State) : State := if s.busy then s else { s with palColor := colorOf v }

/-- A write to `PAL_INDEX` (R44): ignored while busy (R54). -/
def writePalIndex (v : Word) (s : State) : State :=
  if s.busy then s else { s with palIndex := v.extractLsb' 0 16 }

/-- The register map, written (R21): RO registers and reserved offsets ignore the write (R22, R47). -/
def writeReg (offset : BitVec 8) (v : Word) (s : State) : State :=
  match offset.toNat with
  | 0x00 => writeCmd v s
  | 0x04 => acknowledge v s
  | 0x0C => { s with irqEn := irqEnOf v }
  | 0x10 => writeOpr (fun o => { o with srcAddr := v }) s
  | 0x14 => writeOpr (fun o => { o with srcLen := v }) s
  | 0x18 => writeOpr (fun o => { o with dstAddr := v }) s
  | 0x1C => writeOpr (fun o => { o with dstCap := v }) s
  | 0x30 => writeOpr (fun o => { o with bsAddr := v }) s
  | 0x34 => writeOpr (fun o => { o with bsDim := v }) s
  | 0x38 => writeOpr (fun o => { o with bdAddr := v }) s
  | 0x3C => writeOpr (fun o => { o with bdDim := v }) s
  | 0x40 => writeOpr (fun o => { o with srX := v }) s
  | 0x44 => writeOpr (fun o => { o with srY := v }) s
  | 0x48 => writeOpr (fun o => { o with srW := v }) s
  | 0x4C => writeOpr (fun o => { o with srH := v }) s
  | 0x50 => writeOpr (fun o => { o with drX := v }) s
  | 0x54 => writeOpr (fun o => { o with drY := v }) s
  | 0x58 => writeOpr (fun o => { o with drW := v }) s
  | 0x5C => writeOpr (fun o => { o with drH := v }) s
  | 0x60 => writeOpr (fun o => { o with fillVal := v.extractLsb' 0 8 }) s
  | 0x70 => writePalColor v s
  | 0x74 => writePalIndex v s
  | _ => s

/-- R81: a host access is 32 bits wide at a 4-aligned offset. -/
def accessOk (offset : BitVec 8) (width : AccessWidth) : Bool :=
  decide (width = .word) && decide (offset.toNat % 4 = 0)

/-- A host register read (R81, R84): no side effect but the reply. -/
def hostRegRead (offset : BitVec 8) (width : AccessWidth) (s : State) : State :=
  { s with busReply := if accessOk offset width then .word (readReg offset s) else .busError }

/-- A host register write (R81). -/
def hostRegWrite (offset : BitVec 8) (width : AccessWidth) (v : Word) (s : State) : State :=
  if accessOk offset width then { writeReg offset v s with busReply := .ack } else { s with busReply := .busError }

/-- A host read of a byte of memory (R88, R89): in a written window of the running command it may see the old byte or one
the command writes there; each such read uses new free values. -/
def hostMemRead (a : Word) (s : State) : State :=
  if inSome (liveWritten s) a.toNat then
    { s with busReply := .byte (settleByte s a.toNat), freeCount := s.freeCount + freeBlock }
  else { s with busReply := .byte (s.mem.read a.toNat) }

/-- A host write of a byte of memory (R87, R89): in any window of the running command it makes the command's results
unspecified, with everything that R89 lists (`raced`, log entry 9). -/
def hostMemWrite (a : Word) (v : Byte) (s : State) : State :=
  { s with
    mem := s.mem.write a.toNat v
    busReply := .ack
    unsettled := s.unsettled || inSome (liveWindows s) a.toNat
    raced := s.raced || inSome (liveWindows s) a.toNat }

/-- The reset input (R320, R321): every piece of the block's state to R55's value. Memory keeps its bytes, but for those of
a running command's written windows. The platform and the host's later actions are not the block's state. -/
def assertReset (s : State) : State :=
  { State.reset with
    mem := s.mem.overwriteAll (liveWritten s) (settleByte s)
    platform := s.platform
    host := s.host
    freeCount := if (liveWritten s).isEmpty then s.freeCount else s.freeCount + freeBlock }

/-- One action of the host or of the reset input. -/
def hostAct (act : HostAction) (s : State) : State :=
  match act with
  | .regRead offset width => hostRegRead offset width s
  | .regWrite offset width v => hostRegWrite offset width v s
  | .memRead a => hostMemRead a s
  | .memWrite a v => hostMemWrite a v s
  | .sampleIrq => { s with busReply := .line (irq s) }
  | .reset => assertReset s

/-- Whose turn it is: the host's next action when its count is 0, and else the engine. -/
inductive Turn where
  | host (act : HostAction) (s : State)
  | engine (s : State)
  deriving DecidableEq, Repr

/-- Take the turn's agent off the host's list: an action that lands leaves it, and one that waits has one engine step less
to wait (log entry 1). -/
def turn (s : State) : Turn :=
  match s.host with
  | [] => .engine s
  | e :: rest =>
    match e.after with
    | 0 => .host e.action { s with host := rest }
    | n + 1 => .engine { s with host := { e with after := n } :: rest }

/-! ### A program placed from outside (log entry 14) -/

/-- The host's next action, if it would land now, waits for one engine step. -/
def holdHost (events : List HostEvent) : List HostEvent :=
  match events with
  | [] => []
  | e :: rest => (if e.after = 0 then { e with after := 1 } else e) :: rest

/-- How many bytes the instruction of a table word has. -/
def tableLength (nbits w : Nat) : Nat :=
  match decodeTableWord nbits w with
  | some i => (encode i).length
  | none => nbits / 8

/-- Where the stream of a placed code begins: at `SRC_ADDR`, or at 0 when the code would not fit below 2^32 there. -/
def placeBase (s : State) (len : Nat) : Word :=
  if s.opr.srcAddr.toNat + len ≤ Config.addrSpace then s.opr.srcAddr else 0#32

/-- The code's bytes stored from `base` on. -/
def storeBytes : List Byte → Nat → Memory → Memory
  | [], _, m => m
  | b :: rest, a, m => storeBytes rest (a + 1) (m.write a b)

/-- A stream command started by the `CMD` word `op`, at the first byte of its stream, in the given phase, with the code
stored there: the window is long enough and the platform answers at the code's bytes. -/
def placeCode (phase : Phase) (op : Word) (bytes : List Byte) (s : State) : State :=
  { startCommand op { s with mem := storeBytes bytes (placeBase s bytes.length).toNat s.mem } with
    phase := phase
    opr := { s.opr with
      srcAddr := placeBase s bytes.length
      srcLen := if s.opr.srcLen.toNat < bytes.length then BitVec.ofNat 32 bytes.length else s.opr.srcLen }
    eng := { s.eng with inPos := 0#32, outLen := 0#32, cmdStart := 0#32 }
    platform :=
      if (List.range bytes.length).all fun k => admits s.platform (placeBase s bytes.length + BitVec.ofNat 32 k)
      then s.platform
      else { range := { base := (placeBase s bytes.length).toNat, len := bytes.length }, kind := .ordinary } :: s.platform
    host := holdHost s.host }

/-- A command started by the `CMD` word. -/
def placeCommand (w : Word) (s : State) : State := { startCommand w s with host := holdHost s.host }

/-- The table word's instruction placed where the engine fetches next. -/
def placeWord (nbits w : Nat) (s : State) : State :=
  match tableCodeSet nbits w with
  | .cmd => placeCommand (BitVec.ofNat 32 (w % 2 ^ nbits)) s
  | .lcwMode => placeCode .lcwMode 0x01#32 ((tableBytes nbits w).take (tableLength nbits w)) s
  | .lcw => placeCode .lcwCode 0x01#32 ((tableBytes nbits w).take (tableLength nbits w)) s
  | .zrle => placeCode .zrle 0x02#32 ((tableBytes nbits w).take (tableLength nbits w)) s

end Sys2Proof.Machine
end

