-- ==== Sys2Proof/Machine/Step.lean ====
section
/-! DEFINITION. One step of the machine: one action of the host, or one step of the engine. -/

namespace Sys2Proof.Machine

/-- One step: the host's next action lands if it waits for no engine step, and else the engine takes a step. -/
def step (s : State) : Host.Outcome State Fault Refusal :=
  match turn s with
  | .host act t => .next (hostAct act t)
  | .engine t => engineStep t

/-- `s` with the instruction of an opcode-table word placed so that the very next step runs it (log entry 14): a host
command as started by its `CMD` write, a stream code as the first code of the stream command that reads it. -/
def State.withFetchWord (s : State) (nbits w : Nat) : State := placeWord nbits w s

end Sys2Proof.Machine
end

