-- ==== Sys2Proof/Safety.lean ====
section
/-! DEFINITION. What claims about the block are stated in: the invariant of its states, the conditions under which an
instruction takes its whole effect, the effect of a stream code on the output, and what a stream of codes produces. -/

namespace Sys2Proof.Machine

/-! ### The invariant -/

/-- The stream cursor and the output length stay inside their windows (10_state.md R50), which lie below 2^32
(20_memory.md R75). -/
structure StreamBounds (s : State) : Prop where
  inPos : s.eng.inPos ≤ s.opr.srcLen
  outLen : s.eng.outLen ≤ s.opr.dstCap
  input : s.opr.srcAddr.toNat + s.opr.srcLen.toNat ≤ Config.addrSpace
  output : s.opr.dstAddr.toNat + s.opr.dstCap.toNat ≤ Config.addrSpace

/-- What holds of every state of the block, reached or not by a run from reset: no step breaks it. -/
structure State.Inv (s : State) : Prop where
  /-- Memory is in its canonical form. -/
  mem : s.mem.wf = true
  /-- So is the memory a running command found. -/
  startMem : s.startMem.wf = true
  /-- The valid palette entries are pairwise different (R49). -/
  unique : s.palette.Nodup
  /-- `0 <= N <= PAL_CAP` (R45). -/
  capacity : s.palette.length ≤ Config.palCap
  /-- At most one of `BUSY`, `DONE`, `ERR` is 1 (R24). -/
  exclusive : ¬(s.status.done = true ∧ s.status.err = true)
  running : s.busy = true → s.status.done = false ∧ s.status.err = false
  /-- The block never writes a reserved error code (R281, U15). -/
  errCode : s.errCode.toNat ≤ 0x0A
  /-- While a command runs `ERRCODE` is 0 (R25, R53). -/
  noError : s.busy = true → s.errCode = 0#8
  /-- A running stream command stays inside its windows. -/
  stream : s.phase = .lcwMode ∨ s.phase = .lcwCode ∨ s.phase = .zrle → StreamBounds s
  /-- Before the mode byte nothing has been read or produced (R150). -/
  modeByte : s.phase = .lcwMode → s.eng.inPos = 0#32 ∧ s.eng.outLen = 0#32 ∧ s.eng.cmdStart = 0#32
  /-- A running stream command is the one that `CMD` started. -/
  lcw : s.phase = .lcwMode ∨ s.phase = .lcwCode → s.cmd = 0x01#32
  zrle : s.phase = .zrle → s.cmd = 0x02#32
  /-- Between commands nothing is unspecified. -/
  idle : s.phase = .idle → s.unsettled = false

/-! ### Conditions -/

/-- The `CMD` write has started the command (R131), its windows pass the check of R75, lie over no device (R84) and do not
overlap (R91), and the host has not touched them (R89); memory is in its canonical form: the command's results are those its rule gives. -/
structure Ready (i : Instr) (s : State) : Prop where
  accepted : s.phase = .accepted
  settled : s.unsettled = false
  canonical : s.mem.wf = true
  inRange : windowsInRange i s.opr = true
  noDevice : overDevice i s = false
  apart : windowsOverlap i s.opr = false

/-- `n` more input bytes stand in the input window, and the platform answers at each. -/
structure InputReady (s : State) (n : Nat) : Prop where
  room : s.eng.inPos.toNat + n ≤ s.opr.srcLen.toNat
  answers : ∀ k, k < n → admits s.platform (inAddr s + BitVec.ofNat 32 k) = true

/-- `n` more output bytes fit in the output window, and the platform answers at each; memory is in its canonical form. -/
structure OutputReady (s : State) (n : Nat) : Prop where
  canonical : s.mem.wf = true
  room : s.eng.outLen.toNat + n ≤ s.opr.dstCap.toNat
  answers : ∀ k, k < n → admits s.platform (outAddr s (s.eng.outLen.toNat + k)) = true

/-- The platform answers at every output byte produced so far. -/
def HistoryReady (s : State) : Prop := ∀ k, k < s.eng.outLen.toNat → admits s.platform (outAddr s k) = true

/-! ### Effects -/

/-- The output byte `k` of the running stream command, as memory holds it (10_state.md R51). -/
def outputByte (s : State) (k : Nat) : Byte := s.mem.read (outAddr s k).toNat

/-- The bytes a back-reference of `n` bytes appends when it starts at output byte `base` and `len` bytes have been
produced: byte `j` is output byte `base + (j mod (len - base))` (41_lcw.md R159). -/
def copied (byteAt : Nat → Byte) (len base n : Nat) : List Byte :=
  (List.range n).map fun j => byteAt (base + j % (len - base))

/-- A stream code that reads `used` bytes of input and appends `out`: the cursor and `out_len` move on, `cmd_start` is the
code's offset, the appended bytes stand at the end of the output, every other byte of memory is unchanged, and so is
everything else. -/
structure CodeEffect (s t : State) (used : Nat) (out : List Byte) : Prop where
  frame : t = { s with
    mem := t.mem
    eng := { s.eng with
      inPos := s.eng.inPos + BitVec.ofNat 32 used
      outLen := s.eng.outLen + BitVec.ofNat 32 out.length
      cmdStart := s.eng.inPos } }
  appended : ∀ j (h : j < out.length), t.mem.read (outAddr s (s.eng.outLen.toNat + j)).toNat = out[j]
  kept : ∀ a, (∀ j, j < out.length → a ≠ (outAddr s (s.eng.outLen.toNat + j)).toNat) → t.mem.read a = s.mem.read a

/-- A command that accesses no stream ends with error code `code`, recording `recorded` (R284): nothing else changes. -/
def failed (code : Byte) (recorded : Word) (s : State) : State :=
  { s with
    errCode := code, errAddr := recorded, status := { s.status with err := true }, phase := .idle, startMem := [] }

/-- A stream command ends with an error (R284): it also reports its progress in `OUT_LEN` and `IN_USED`. -/
def streamFailed (code : Byte) (recorded : Word) (s : State) : State :=
  { failed code recorded s with outLen := s.eng.outLen, inUsed := s.eng.inPos }

/-- A host command that accesses no stream completes (R135). -/
def completed (s : State) : State :=
  { s with status := { s.status with done := true }, phase := .idle, startMem := [] }

/-! ### Raw palettes -/

/-- A channel of a raw palette byte, in numbers: `(v * 4) mod 256` (44_palette.md R255). -/
def rawChannel (v : Byte) : Byte := BitVec.ofNat 8 (v.toNat * 4 % 256)

/-- Entry `e` of the raw palette in the input window: the bytes `3 * e`, `3 * e + 1` and `3 * e + 2` are `r`, `g` and `b`
(44_palette.md R255, R256). -/
def rawColor (s : State) (e : Nat) : Color :=
  { r := rawChannel (s.mem.read (s.opr.srcAddr + BitVec.ofNat 32 (3 * e)).toNat)
    g := rawChannel (s.mem.read (s.opr.srcAddr + BitVec.ofNat 32 (3 * e + 1)).toNat)
    b := rawChannel (s.mem.read (s.opr.srcAddr + BitVec.ofNat 32 (3 * e + 2)).toNat) }

/-- The palette, `PAL_INDEX` and `FOUND` after pushing colours in order (R252, R256): none when one finds no room. -/
def pushMany : List Color → List Color × BitVec 16 × Bool → Option (List Color × BitVec 16 × Bool)
  | [], r => some r
  | c :: rest, (p, _, _) =>
    match pushColor p c with
    | some (q, i, found) => pushMany rest (q, BitVec.ofNat 16 i, found)
    | none => none

/-! ### Blits in terms of the registers -/

/-- The width of a bitmap: bits [15:0] of its dimension register (R35, R37). -/
def bitmapW (dim : Word) : Nat := dim.toNat % 65536

/-- The height of a bitmap: bits [31:16] of its dimension register (R35, R37). -/
def bitmapH (dim : Word) : Nat := dim.toNat / 65536

/-- The source rect, left and top signed and width and height unsigned (R38, R39, R210), clipped to the source bitmap (R213). -/
def sourceClip (o : Operands) : Rect :=
  Rect.clip { left := o.srX.toInt, top := o.srY.toInt, width := o.srW.toNat, height := o.srH.toNat }
    (bitmapW o.bsDim) (bitmapH o.bsDim)

/-- The destination rect likewise (R40, R41). -/
def destClip (o : Operands) : Rect :=
  Rect.clip { left := o.drX.toInt, top := o.drY.toInt, width := o.drW.toNat, height := o.drH.toNat }
    (bitmapW o.bdDim) (bitmapH o.bdDim)

/-- The address of pixel number `k` of the clipped destination rect, in row-major order (R80, R214). -/
def pixelTo (o : Operands) (k : Nat) : Word :=
  BitVec.ofNat 32 (o.bdAddr.toNat + ((destClip o).top.toNat + k / (destClip o).width) * bitmapW o.bdDim +
    ((destClip o).left.toNat + k % (destClip o).width))

/-- The address of the source pixel that the per-axis map gives pixel number `k` (R80, R214, R216). -/
def pixelFrom (o : Operands) (k : Nat) : Word :=
  BitVec.ofNat 32 (o.bsAddr.toNat +
    ((sourceClip o).top.toNat + k / (destClip o).width * (sourceClip o).height / (destClip o).height) * bitmapW o.bsDim +
    ((sourceClip o).left.toNat + k % (destClip o).width * (sourceClip o).width / (destClip o).width))

/-! ### Streams as lists -/

/-- What one LCW command appends to an output history (R153 to R158): none when it fails with `LcwBounds`, or is no LCW
command. -/
def lcwAppends (mode : LcwMode) (out : List Byte) : Instr → Option (List Byte)
  | .lit bytes => some bytes
  | .run n v => some (List.replicate n.toNat v)
  | .sref c p =>
    if p.toNat = 0 ∨ out.length < p.toNat then none
    else some (copied (fun k => out.getD k 0#8) out.length (out.length - p.toNat) (srefCount c))
  | .lref n p => backReference mode out n.toNat p
  | .mref c p => backReference mode out (mrefCount c) p
  | .modeRel => none
  | .endMark => none
  | .zrun _ => none
  | .zlit _ => none
  | .lcwDecode => none
  | .zrleExpand => none
  | .blit => none
  | .fill => none
  | .palClear => none
  | .palPush => none
  | .palLoad6 => none
  | .palFind => none
  | .palRead => none
where
  /-- A back-reference by the stream's mode (R152, R159): nothing is checked when the count is 0. -/
  backReference (mode : LcwMode) (out : List Byte) (n : Nat) (p : BitVec 16) : Option (List Byte) :=
    if n = 0 then some []
    else match mode with
      | .rel =>
        if p.toNat = 0 ∨ out.length < p.toNat then none
        else some (copied (fun k => out.getD k 0#8) out.length (out.length - p.toNat) n)
      | .abs =>
        if out.length ≤ p.toNat then none
        else some (copied (fun k => out.getD k 0#8) out.length p.toNat n)

/-- What a sequence of LCW commands produces, from an output history on. -/
def lcwOutput (mode : LcwMode) : List Instr → List Byte → Option (List Byte)
  | [], out => some out
  | i :: rest, out =>
    match lcwAppends mode out i with
    | some more => lcwOutput mode rest (out ++ more)
    | none => none

/-- What a zero-run code appends (R192, R193): none when it is no zero-run code. -/
def zrleAppends : Instr → Option (List Byte)
  | .zrun n => some (List.replicate n.toNat 0x00#8)
  | .zlit v => some [v]
  | .modeRel => none
  | .endMark => none
  | .lit _ => none
  | .sref _ _ => none
  | .run _ _ => none
  | .lref _ _ => none
  | .mref _ _ => none
  | .lcwDecode => none
  | .zrleExpand => none
  | .blit => none
  | .fill => none
  | .palClear => none
  | .palPush => none
  | .palLoad6 => none
  | .palFind => none
  | .palRead => none

/-- The output history of the running stream command, as memory holds it. -/
def history (s : State) : List Byte := (List.range s.eng.outLen.toNat).map (outputByte s)

/-- `i` is a code of the running stream command, and it appends `out` when nothing stops it. -/
def Appends (s : State) (i : Instr) (out : List Byte) : Prop :=
  (s.phase = .lcwCode ∧ lcwAppends s.eng.mode (history s) i = some out) ∨ (s.phase = .zrle ∧ zrleAppends i = some out)

/-- `i` is a back-reference: it copies `n` bytes from output byte `base` on, and its code has `used` bytes (R152, R155, R157,
R158). -/
def CopiesFrom (s : State) (i : Instr) (base n used : Nat) : Prop :=
  (∃ c p, i = .sref c p ∧ n = c.toNat + 3 ∧ used = 2 ∧ p.toNat + base = s.eng.outLen.toNat) ∨
  (∃ k p, i = .lref k p ∧ n = k.toNat ∧ used = 5 ∧ byMode p) ∨
  (∃ c p, i = .mref c p ∧ n = c.toNat + 3 ∧ used = 3 ∧ byMode p)
where
  /-- The base of a copy by the stream's mode (R152). -/
  byMode (p : BitVec 16) : Prop :=
    (s.eng.mode = .rel ∧ p.toNat + base = s.eng.outLen.toNat) ∨ (s.eng.mode = .abs ∧ base = p.toNat)

/-- The code reads the output history. -/
def readsHistory (i : Instr) : Prop := (∃ c p, i = .sref c p) ∨ (∃ n p, i = .lref n p) ∨ (∃ c p, i = .mref c p)

/-- How many input bytes a stream code has read when it appends its byte number `k`: LIT appends each byte as it is read
(R154), every other code has read all its bytes (R155 to R158, R192, R193). -/
def readBefore (k : Nat) : Instr → Nat
  | .lit _ => 1 + (k + 1)
  | .sref _ _ => 2
  | .run _ _ => 4
  | .lref _ _ => 5
  | .mref _ _ => 3
  | .zrun _ => 2
  | .zlit _ => 1
  | .modeRel => 1
  | .endMark => 1
  | .lcwDecode => 0
  | .zrleExpand => 0
  | .blit => 0
  | .fill => 0
  | .palClear => 0
  | .palPush => 0
  | .palLoad6 => 0
  | .palFind => 0
  | .palRead => 0

/-- How many bytes a stream code appends (R154 to R158, R192, R193); no other instruction appends. -/
def appendCount : Instr → Nat
  | .lit bytes => bytes.length
  | .sref c _ => c.toNat + 3
  | .run n _ => n.toNat
  | .lref n _ => n.toNat
  | .mref c _ => c.toNat + 3
  | .zrun n => n.toNat
  | .zlit _ => 1
  | .modeRel => 0
  | .endMark => 0
  | .lcwDecode => 0
  | .zrleExpand => 0
  | .blit => 0
  | .fill => 0
  | .palClear => 0
  | .palPush => 0
  | .palLoad6 => 0
  | .palFind => 0
  | .palRead => 0

/-- What a sequence of zero-run codes produces (R194). -/
def zrleOutput : List Instr → Option (List Byte)
  | [] => some []
  | i :: rest =>
    match zrleAppends i, zrleOutput rest with
    | some now, some later => some (now ++ later)
    | _, _ => none

/-- The bytes of a sequence of codes. -/
def encodeAll (codes : List Instr) : List Byte := codes.flatMap encode

/-- The input window holds exactly these bytes, and the platform answers at each. -/
structure InputIs (s : State) (bytes : List Byte) : Prop where
  len : s.opr.srcLen.toNat = bytes.length
  byte : ∀ k (h : k < bytes.length), s.mem.read (s.opr.srcAddr + BitVec.ofNat 32 k).toNat = bytes[k]
  answers : ∀ k, k < bytes.length → admits s.platform (s.opr.srcAddr + BitVec.ofNat 32 k) = true

/-- The platform answers at every byte of the output window. -/
def OutputAnswers (s : State) : Prop := ∀ k, k < s.opr.dstCap.toNat → admits s.platform (outAddr s k) = true

/-- The successful end of a stream command that consumed `used` bytes and produced `out` (R53, R135): `DONE` with `OUT_LEN`
and `IN_USED`, the output in the output window, and every other byte of memory and every register as before. -/
structure StreamDone (s t : State) (used : Nat) (out : List Byte) : Prop where
  frame : t = { s with
    mem := t.mem
    eng := t.eng
    phase := .idle
    startMem := []
    outLen := BitVec.ofNat 32 out.length
    inUsed := BitVec.ofNat 32 used
    status := setDone s.status }
  output : ∀ j (h : j < out.length), t.mem.read (outAddr s j).toNat = out[j]
  kept : ∀ a, (∀ j, j < out.length → a ≠ (outAddr s j).toNat) → t.mem.read a = s.mem.read a

end Sys2Proof.Machine
end

