-- ==== Sys2Proof/Certificates/Slice0/Obligations.lean ====
section
/-! DEFINITION. The statements for the provers, from the numbered rules of spec/. Stated, not proved, here. -/

open Sys2Proof Sys2Proof.Machine

/-! ### Encoding -/

/-- The words of 30_encoding.md R101, R103 and R104, written out bit by bit, decode to the instructions they stand for. -/
def Obligations.WrittenOutWordsDecode : Prop :=
  decode .lcwMode [0b00000000#8] = .code .modeRel [] ∧
  decode .lcw [0b10000000#8] = .code .endMark [] ∧
  decode .lcw [0b10000010#8, 0x41#8, 0x42#8] = .code (.lit [0x41#8, 0x42#8]) [] ∧
  decode .lcw [0b00100000#8, 0b00000010#8] = .code (.sref 2#3 2#12) [] ∧
  decode .lcw [0b11111110#8, 0x03#8, 0x01#8, 0xAB#8] = .code (.run 0x0103#16 0xAB#8) [] ∧
  decode .lcw [0b11111111#8, 0x04#8, 0x00#8, 0x09#8, 0x02#8] = .code (.lref 4#16 0x0209#16) [] ∧
  decode .lcw [0b11111101#8, 0x00#8, 0x01#8] = .code (.mref 0x3D#6 0x0100#16) [] ∧
  decode .zrle [0b00000000#8, 0x05#8] = .code (.zrun 5#8) [] ∧
  decode .zrle [0b10000000#8] = .code (.zlit 0x80#8) [] ∧
  decode .cmd [0x01#8, 0#8, 0#8, 0#8] = .code .lcwDecode [] ∧
  decode .cmd [0x04#8, 0#8, 0#8, 0#8] = .code .fill [] ∧
  decode .cmd [0x13#8, 0#8, 0#8, 0#8] = .code .palFind [] ∧
  decode .cmd [0x01#8, 0x01#8, 0#8, 0#8] = .reject .illegalCmd

/-- Decoding an encoded well-formed instruction gives it back, whatever follows it, with every operand at every value its
encoding admits. -/
def Obligations.DecodeOfEncodeIsTheInstruction : Prop :=
  ∀ (i : Instr) (rest : List Byte), WellFormed i → decode i.codeSet (encode i ++ rest) = .code i rest

/-- The other direction: bytes that decode are the encoding of the well-formed instruction they decode to, and of no
other, in each code set. -/
def Obligations.DecodedBytesAreTheEncoding : Prop :=
  ∀ (cs : CodeSet) (bytes : List Byte) (i : Instr) (rest : List Byte),
    decode cs bytes = .code i rest → bytes = encode i ++ rest ∧ WellFormed i ∧ i.codeSet = cs

/-- R108: the LCW code set is total, and the first byte selects the form by the ranges of the table. -/
def Obligations.LcwFirstByteSelectsTheForm : Prop :=
  ∀ (b : Byte) (rest : List Byte), lcwLength b ≤ rest.length + 1 →
    ∃ i, decode .lcw (b :: rest) = .code i (rest.drop (lcwLength b - 1)) ∧
      (b.toNat ≤ 0x7F → ∃ c p, i = .sref c p) ∧
      (b.toNat = 0x80 → i = .endMark) ∧
      (0x81 ≤ b.toNat ∧ b.toNat ≤ 0xBF → ∃ bytes, i = .lit bytes) ∧
      (0xC0 ≤ b.toNat ∧ b.toNat ≤ 0xFD → ∃ c p, i = .mref c p) ∧
      (b.toNat = 0xFE → ∃ n v, i = .run n v) ∧
      (b.toNat = 0xFF → ∃ n p, i = .lref n p)

/-! ### The step -/

/-- When it is the engine's turn and what stands where it fetches decodes to an instruction, the step is that instruction
at that state. The engine's turn comes when the host has no action left, or the host's next action waits, and then waits
for one engine step less. Whose turn it is, and that one stream code is one step, are the model's choice (log entries 1
and 7, DESIGN CHOICE): the spec leaves both open. -/
def Obligations.StepRunsTheDecodedInstruction : Prop :=
  ∀ (s t : State) (i : Instr) (rest : List Byte),
    ((s.host = [] ∧ t = s) ∨
      ∃ n act later, s.host = ⟨n + 1, act⟩ :: later ∧ t = { s with host := ⟨n, act⟩ :: later }) →
    ((t.phase = .accepted ∧ decodeCmd t.cmd = some i) ∨
      (t.eng.inPos < t.opr.srcLen ∧ admits t.platform (inAddr t) = true ∧
        ((t.phase = .lcwMode ∧ decode .lcwMode (codeAt .lcwMode t) = .code i rest) ∨
          (t.phase = .lcwCode ∧ decode .lcw (codeAt .lcw t) = .code i rest) ∨
          (t.phase = .zrle ∧ decode .zrle (codeAt .zrle t) = .code i rest)))) →
    step s = exec i t

/-- R131: a 32-bit host write to `CMD` while the block is idle clears DONE, ERR, FOUND and ERRCODE, and makes it busy with
that word; `startMem`, `raced` and `busReply` are the model's own fields. -/
def Obligations.CmdWriteStartsTheCommand : Prop :=
  ∀ (s : State) (w : Word) (later : List HostEvent), s.phase = .idle →
    s.host = ⟨0, .regWrite 0x00#8 .word w⟩ :: later →
    step s = .next { s with
      host := later, busReply := .ack, cmd := w
      status := { done := false, err := false, found := false }
      errCode := 0#8, phase := .accepted, unsettled := false, raced := false, startMem := s.mem }

/-- R103, R110, R282: a `CMD` word that is none of the nine commands aborts with `ILLEGAL_CMD` and `ERR_ADDR` 0, and nothing
else changes. That `OUT_LEN` and `IN_USED` keep their values is the model's reading (log entry 12, DEDUCED) of R284, as in
vector P5 of 95_test_vectors.md. -/
def Obligations.UnassignedCmdIsIllegal : Prop :=
  ∀ (s : State), s.host = [] → s.phase = .accepted → s.unsettled = false →
    s.cmd ∉ [0x01#32, 0x02#32, 0x03#32, 0x04#32, 0x10#32, 0x11#32, 0x12#32, 0x13#32, 0x14#32] →
    step s = .next (failed 0x01#8 0#32 s)

/-! ### LCW -/

/-- R150, R190: LCW_DECODE and ZRLE_EXPAND start their stream at cursor 0 with no output, and change no register and no
byte of memory. -/
def Obligations.StreamCommandsBeginAtZero : Prop :=
  (∀ s : State, Ready .lcwDecode s → exec .lcwDecode s = .next { s with
    phase := .lcwMode, eng := { inPos := 0#32, outLen := 0#32, mode := s.eng.mode, cmdStart := 0#32 } }) ∧
  (∀ s : State, Ready .zrleExpand s → exec .zrleExpand s = .next { s with
    phase := .zrle, eng := { inPos := 0#32, outLen := 0#32, mode := s.eng.mode, cmdStart := s.eng.cmdStart } })

/-- R151: the mode byte 0x00 is consumed and selects relative mode; any other value selects absolute mode and is not
consumed. Nothing else changes. -/
def Obligations.ModeByteSelectsTheAddressing : Prop :=
  (∀ s : State, InputReady s 1 → exec .modeRel s = .next { s with
    phase := .lcwCode, eng := { s.eng with mode := .rel, inPos := s.eng.inPos + 1#32 } }) ∧
  (∀ s : State, s.host = [] → s.phase = .lcwMode → InputReady s 1 → s.mem.read (inAddr s).toNat ≠ 0#8 →
    step s = .next { s with phase := .lcwCode, eng := { s.eng with mode := .abs } })

/-- R153: END completes LCW_DECODE: `DONE`, with `IN_USED` past the END byte and `OUT_LEN` the output's length. -/
def Obligations.EndCompletesTheDecode : Prop :=
  ∀ s : State, s.phase = .lcwCode → s.unsettled = false → InputReady s 1 →
    exec .endMark s = .next { s with
      phase := .idle
      eng := { s.eng with inPos := s.eng.inPos + 1#32, cmdStart := s.eng.inPos }
      outLen := s.eng.outLen
      inUsed := s.eng.inPos + 1#32
      status := { s.status with done := true }
      startMem := [] }

/-- R154: LIT appends its bytes. -/
def Obligations.LitAppendsItsBytes : Prop :=
  ∀ (s : State) (bytes : List Byte), InputReady s (1 + bytes.length) → OutputReady s bytes.length →
    ∃ t, exec (.lit bytes) s = .next t ∧ CodeEffect s t (1 + bytes.length) bytes

/-- R155: SREF is relative in either mode. It appends `c + 3` bytes, byte `j` being the output byte `p - (j mod p)` before
the end of the output; position 1 repeats the last output byte. -/
def Obligations.SrefCopiesBackFromTheEnd : Prop :=
  ∀ (s : State) (c : BitVec 3) (p : BitVec 12), 1 ≤ p.toNat → p.toNat ≤ s.eng.outLen.toNat →
    InputReady s 2 → OutputReady s (c.toNat + 3) → HistoryReady s →
    ∃ t, exec (.sref c p) s = .next t ∧
      CodeEffect s t 2 (copied (outputByte s) s.eng.outLen.toNat (s.eng.outLen.toNat - p.toNat) (c.toNat + 3))

/-- R156: RUN appends its value `n` times. -/
def Obligations.RunAppendsItsValue : Prop :=
  ∀ (s : State) (n : BitVec 16) (v : Byte), InputReady s 4 → OutputReady s n.toNat →
    ∃ t, exec (.run n v) s = .next t ∧ CodeEffect s t 4 (List.replicate n.toNat v)

/-- R152, R157, R158, R159: LREF and MREF copy from `out_len - p` in relative mode and from `p` in absolute mode, the bytes
being those of the closed form; a count of 0 appends nothing and checks nothing. -/
def Obligations.BackReferencesCopyByTheMode : Prop :=
  ∀ (s : State) (base : Nat), HistoryReady s →
    (∀ (n p : BitVec 16), InputReady s 5 → OutputReady s n.toNat →
      (s.eng.mode = .rel → p.toNat + base = s.eng.outLen.toNat) → (s.eng.mode = .abs → base = p.toNat) →
      base < s.eng.outLen.toNat →
      ∃ t, exec (.lref n p) s = .next t ∧
        CodeEffect s t 5 (copied (outputByte s) s.eng.outLen.toNat base n.toNat)) ∧
    (∀ (p : BitVec 16), InputReady s 5 → ∃ t, exec (.lref 0#16 p) s = .next t ∧ CodeEffect s t 5 []) ∧
    (∀ (c : BitVec 6) (p : BitVec 16), InputReady s 3 → OutputReady s (c.toNat + 3) →
      (s.eng.mode = .rel → p.toNat + base = s.eng.outLen.toNat) → (s.eng.mode = .abs → base = p.toNat) →
      base < s.eng.outLen.toNat →
      ∃ t, exec (.mref c p) s = .next t ∧
        CodeEffect s t 3 (copied (outputByte s) s.eng.outLen.toNat base (c.toNat + 3)))

/-- R155, R157, R158, R159: a back-reference of at least one byte aborts with `LCW_BOUNDS` before it appends anything when
its first byte lies outside the history; `ERR_ADDR` is the code's offset, and memory is unchanged. -/
def Obligations.BackReferenceOutsideTheHistoryFails : Prop :=
  ∀ s : State, s.phase = .lcwCode → s.unsettled = false →
    (∀ (c : BitVec 3) (p : BitVec 12), InputReady s 2 → p.toNat = 0 ∨ s.eng.outLen.toNat < p.toNat →
      exec (.sref c p) s = .next (streamFailed 0x04#8 s.eng.inPos
        { s with eng := { s.eng with inPos := s.eng.inPos + 2#32, cmdStart := s.eng.inPos } })) ∧
    (∀ (n p : BitVec 16), InputReady s 5 → n ≠ 0#16 →
      (s.eng.mode = .rel → p.toNat = 0 ∨ s.eng.outLen.toNat < p.toNat) →
      (s.eng.mode = .abs → s.eng.outLen.toNat ≤ p.toNat) →
      exec (.lref n p) s = .next (streamFailed 0x04#8 s.eng.inPos
        { s with eng := { s.eng with inPos := s.eng.inPos + 5#32, cmdStart := s.eng.inPos } })) ∧
    (∀ (c : BitVec 6) (p : BitVec 16), InputReady s 3 →
      (s.eng.mode = .rel → p.toNat = 0 ∨ s.eng.outLen.toNat < p.toNat) →
      (s.eng.mode = .abs → s.eng.outLen.toNat ≤ p.toNat) →
      exec (.mref c p) s = .next (streamFailed 0x04#8 s.eng.inPos
        { s with eng := { s.eng with inPos := s.eng.inPos + 3#32, cmdStart := s.eng.inPos } }))

/-- R76, R150: at the end of the input the next LCW command, or the mode byte, cannot be read: `INPUT_EXHAUSTED`, with the
cursor in `ERR_ADDR` (0 for the mode byte, R282). -/
def Obligations.UnterminatedStreamFails : Prop :=
  ∀ s : State, s.host = [] → s.unsettled = false → s.opr.srcLen ≤ s.eng.inPos →
    (s.phase = .lcwCode →
      step s = .next (streamFailed 0x03#8 s.eng.inPos { s with eng := { s.eng with cmdStart := s.eng.inPos } })) ∧
    (s.phase = .lcwMode → s.Inv → step s = .next (streamFailed 0x03#8 0#32 s))

/-- R154: a literal cut short by the end of the input has appended the bytes that were there; then `INPUT_EXHAUSTED` at the
literal's offset. -/
def Obligations.TruncatedLiteralKeepsItsBytes : Prop :=
  ∀ (s : State) (bytes : List Byte) (m : Nat), s.phase = .lcwCode → s.unsettled = false → m < bytes.length →
    InputReady s (1 + m) → s.opr.srcLen.toNat = s.eng.inPos.toNat + 1 + m → OutputReady s m →
    ∃ u, CodeEffect s u (1 + m) (bytes.take m) ∧
      exec (.lit bytes) s = .next (streamFailed 0x03#8 s.eng.inPos u)

/-- R155 to R158: an SREF, RUN, LREF or MREF whose payload the input cuts short after `m` bytes of it aborts with
`INPUT_EXHAUSTED` and has appended nothing. -/
def Obligations.TruncatedPayloadAppendsNothing : Prop :=
  ∀ (s : State) (i : Instr) (m : Nat), s.phase = .lcwCode → s.unsettled = false →
    ((∃ c p, i = .sref c p) ∧ m < 1 ∨ (∃ n v, i = .run n v) ∧ m < 3 ∨ (∃ n p, i = .lref n p) ∧ m < 4 ∨
      (∃ c p, i = .mref c p) ∧ m < 2) →
    InputReady s (1 + m) → s.opr.srcLen.toNat = s.eng.inPos.toNat + 1 + m →
    exec i s = .next (streamFailed 0x03#8 s.eng.inPos
      { s with eng := { s.eng with inPos := s.opr.srcLen, cmdStart := s.eng.inPos } })

/-- R79, R154 to R158, R192, R193: a code that does not fit, whatever it is, appends exactly the bytes that fit, and then
aborts with `OUTPUT_OVERFLOW` at its offset; `OUT_LEN` is `DST_CAP`. LIT has read one byte more than it has appended, every
other code all its bytes. -/
def Obligations.OverflowStopsAtTheCapacity : Prop :=
  ∀ (s : State) (i : Instr) (m : Nat) (out : List Byte), s.unsettled = false → Appends s i out → m < out.length →
    s.eng.outLen.toNat + m = s.opr.dstCap.toNat → InputReady s (readBefore m i) → OutputReady s m →
    (readsHistory i → HistoryReady s) →
    ∃ u, CodeEffect s u (readBefore m i) (out.take m) ∧ u.eng.outLen = s.opr.dstCap ∧
      exec i s = .next (streamFailed 0x06#8 s.eng.inPos u)

/-! ### Zero runs -/

/-- R192, R193: ZRUN appends `n` zeros, ZLIT its byte. -/
def Obligations.ZeroRunCodesAppend : Prop :=
  (∀ (s : State) (n : Byte), InputReady s 2 → OutputReady s n.toNat →
    ∃ t, exec (.zrun n) s = .next t ∧ CodeEffect s t 2 (List.replicate n.toNat 0x00#8)) ∧
  (∀ (s : State) (v : Byte), InputReady s 1 → OutputReady s 1 →
    ∃ t, exec (.zlit v) s = .next t ∧ CodeEffect s t 1 [v])

/-- R192: a 0x00 as the last input byte aborts with `ZRLE_MISSING_COUNT` at its offset and appends nothing. -/
def Obligations.ZeroRunWithoutItsCountFails : Prop :=
  ∀ (s : State) (n : Byte), s.phase = .zrle → s.unsettled = false → InputReady s 1 →
    s.opr.srcLen.toNat = s.eng.inPos.toNat + 1 →
    exec (.zrun n) s = .next (streamFailed 0x05#8 s.eng.inPos
      { s with eng := { s.eng with inPos := s.opr.srcLen, cmdStart := s.eng.inPos } })

/-- R191: a zero-run stream ends where the input window ends, with `DONE` and `IN_USED = SRC_LEN`. -/
def Obligations.ZeroRunStreamEndsWithItsInput : Prop :=
  ∀ s : State, s.host = [] → s.phase = .zrle → s.unsettled = false → s.eng.inPos = s.opr.srcLen →
    step s = .next { s with
      phase := .idle, outLen := s.eng.outLen, inUsed := s.opr.srcLen
      status := { s.status with done := true }, startMem := [] }

/-- R71, R79, R284: a write the platform does not answer is not performed and ends the command with `BUS_ERROR` and the
refused address. A stream code, whatever it is, has appended the bytes before it, and `out_len` does not count the refused
one. BLIT has written the pixels before it, in row-major order, and no other byte changes. (FILL's write has a statement of
its own.) -/
def Obligations.RefusedWriteIsABusError : Prop :=
  (∀ (s : State) (i : Instr) (m : Nat) (out : List Byte), s.unsettled = false → Appends s i out → m < out.length →
    s.eng.outLen.toNat + m < s.opr.dstCap.toNat → InputReady s (readBefore m i) → OutputReady s m →
    (readsHistory i → HistoryReady s) → admits s.platform (outAddr s (s.eng.outLen.toNat + m)) = false →
    ∃ u, CodeEffect s u (readBefore m i) (out.take m) ∧
      exec i s = .next (streamFailed 0x0A#8 (outAddr s (s.eng.outLen.toNat + m)) u)) ∧
  (∀ (s : State) (k : Nat), Ready .blit s → (sourceClip s.opr).isEmpty = false →
    k < (destClip s.opr).width * (destClip s.opr).height →
    (∀ j, j < k → admits s.platform (pixelFrom s.opr j) = true ∧ admits s.platform (pixelTo s.opr j) = true) →
    admits s.platform (pixelFrom s.opr k) = true → admits s.platform (pixelTo s.opr k) = false →
    ∃ m, exec .blit s = .next (failed 0x0A#8 (pixelTo s.opr k) { s with mem := m }) ∧
      (∀ j, j < k → m.read (pixelTo s.opr j).toNat = s.mem.read (pixelFrom s.opr j).toNat) ∧
      (∀ a, (∀ j, j < k → a ≠ (pixelTo s.opr j).toNat) → m.read a = s.mem.read a))

/-- R71, R76, R78, R256, R282, R284: a read the platform does not answer ends the command with `BUS_ERROR` and the refused
address, and what came before it stays. The reads are: a code's first byte, or the mode byte (nothing is appended); a
payload byte of LIT (the bytes before it are appended), or of SREF, RUN, LREF, MREF and ZRUN (nothing is); a byte of the
history in a back-reference (the bytes before it are copied); a source pixel of BLIT (the pixels before it are written); a
byte of PAL_LOAD6's entry `k / 3` (the entries before it are pushed, and `IN_USED` is three times their number). -/
def Obligations.RefusedCodeByteIsABusError : Prop :=
  (∀ s : State, s.host = [] → s.unsettled = false → s.eng.inPos < s.opr.srcLen →
    admits s.platform (inAddr s) = false →
    (s.phase = .lcwMode → step s = .next (streamFailed 0x0A#8 (inAddr s) s)) ∧
    (s.phase = .lcwCode ∨ s.phase = .zrle →
      step s = .next (streamFailed 0x0A#8 (inAddr s) { s with eng := { s.eng with cmdStart := s.eng.inPos } }))) ∧
  (∀ (s : State) (bytes : List Byte) (m : Nat), s.phase = .lcwCode → s.unsettled = false → m < bytes.length →
    InputReady s (1 + m) → s.eng.inPos.toNat + 1 + m < s.opr.srcLen.toNat → OutputReady s m →
    admits s.platform (inAddr s + BitVec.ofNat 32 (1 + m)) = false →
    ∃ u, CodeEffect s u (1 + m) (bytes.take m) ∧
      exec (.lit bytes) s = .next (streamFailed 0x0A#8 (inAddr s + BitVec.ofNat 32 (1 + m)) u)) ∧
  (∀ (s : State) (i : Instr) (m : Nat), s.unsettled = false →
    (s.phase = .lcwCode ∧ ((∃ c p, i = .sref c p) ∧ m < 1 ∨ (∃ n v, i = .run n v) ∧ m < 3 ∨
        (∃ n p, i = .lref n p) ∧ m < 4 ∨ (∃ c p, i = .mref c p) ∧ m < 2) ∨
      s.phase = .zrle ∧ (∃ n, i = .zrun n) ∧ m < 1) →
    InputReady s (1 + m) → s.eng.inPos.toNat + 1 + m < s.opr.srcLen.toNat →
    admits s.platform (inAddr s + BitVec.ofNat 32 (1 + m)) = false →
    exec i s = .next (streamFailed 0x0A#8 (inAddr s + BitVec.ofNat 32 (1 + m)) { s with
      eng := { s.eng with inPos := s.eng.inPos + BitVec.ofNat 32 (1 + m), cmdStart := s.eng.inPos } })) ∧
  (∀ (s : State) (i : Instr) (base n used j : Nat), s.phase = .lcwCode → s.unsettled = false →
    CopiesFrom s i base n used → j < n → base + j < s.eng.outLen.toNat → InputReady s used → OutputReady s j →
    (∀ k, base ≤ k → k < base + j → admits s.platform (outAddr s k) = true) →
    admits s.platform (outAddr s (base + j)) = false →
    ∃ u, CodeEffect s u used (copied (outputByte s) s.eng.outLen.toNat base j) ∧
      exec i s = .next (streamFailed 0x0A#8 (outAddr s (base + j)) u)) ∧
  (∀ (s : State) (k : Nat), Ready .blit s → (sourceClip s.opr).isEmpty = false →
    k < (destClip s.opr).width * (destClip s.opr).height →
    (∀ j, j < k → admits s.platform (pixelFrom s.opr j) = true ∧ admits s.platform (pixelTo s.opr j) = true) →
    admits s.platform (pixelFrom s.opr k) = false →
    ∃ m, exec .blit s = .next (failed 0x0A#8 (pixelFrom s.opr k) { s with mem := m }) ∧
      (∀ j, j < k → m.read (pixelTo s.opr j).toNat = s.mem.read (pixelFrom s.opr j).toNat) ∧
      (∀ a, (∀ j, j < k → a ≠ (pixelTo s.opr j).toNat) → m.read a = s.mem.read a)) ∧
  (∀ (s : State) (k : Nat) (p : List Color) (i : BitVec 16) (found : Bool), Ready .palLoad6 s →
    s.opr.srcLen.toNat % 3 = 0 → k < s.opr.srcLen.toNat →
    (∀ j, j < k → admits s.platform (s.opr.srcAddr + BitVec.ofNat 32 j) = true) →
    admits s.platform (s.opr.srcAddr + BitVec.ofNat 32 k) = false →
    pushMany ((List.range (k / 3)).map (rawColor s)) (s.palette, s.palIndex, s.status.found) = some (p, i, found) →
    exec .palLoad6 s = .next (failed 0x0A#8 (s.opr.srcAddr + BitVec.ofNat 32 k) { s with
      palette := p, palIndex := i, inUsed := BitVec.ofNat 32 (3 * (k / 3)), status := { s.status with found := found } }))

/-! ### The blitter -/

/-- R212: the points of an intersection are exactly the points of both rects, it is none exactly when there is no such
point, and the order of the two rects does not matter. -/
def Obligations.IntersectionIsTheCommonPoints : Prop :=
  ∀ a b : Rect, a.intersect b = b.intersect a ∧
    (∀ r, a.intersect b = some r →
      0 < r.width ∧ 0 < r.height ∧ ∀ x y : Int, r.hasPoint x y ↔ a.hasPoint x y ∧ b.hasPoint x y) ∧
    (a.intersect b = none ↔ ∀ x y : Int, ¬(a.hasPoint x y ∧ b.hasPoint x y))

/-- R213: a clipped rect lies inside the bitmap, and its points are exactly the points of the rect in the bitmap (none when
the two have no common point). -/
def Obligations.ClippedRectLiesInTheBitmap : Prop :=
  ∀ (rc : Rect) (w h : Nat), 0 ≤ (rc.clip w h).left ∧ (rc.clip w h).right ≤ w ∧
    0 ≤ (rc.clip w h).top ∧ (rc.clip w h).bottom ≤ h ∧
    (∀ x y : Int, (rc.clip w h).hasPoint x y ↔ rc.hasPoint x y ∧ 0 ≤ x ∧ x < w ∧ 0 ≤ y ∧ y < h)

/-- R216, R217: the per-axis map stays inside the clipped source, never decreases, is the identity for equal sizes, repeats
each source column `k` times for an integer upscale and takes every `k`-th one for an integer downscale. -/
def Obligations.AxisMapLaws : Prop :=
  ∀ (edge : Int) (cs cd d : Nat), 0 < cs → d < cd →
    edge ≤ mapAxis edge cs cd d ∧ mapAxis edge cs cd d < edge + cs ∧
    (∀ d', d ≤ d' → mapAxis edge cs cd d ≤ mapAxis edge cs cd d') ∧
    (cs = cd → mapAxis edge cs cd d = edge + d) ∧
    (∀ k, cd = k * cs → mapAxis edge cs cd d = edge + (d / k : Nat)) ∧
    (∀ k, cs = k * cd → mapAxis edge cs cd d = edge + (k * d : Nat))

/-- R215, R216: BLIT completes. Every pixel `(px, py)` of the clipped destination rect gets the source pixel of the per-axis
map, every other byte of memory is unchanged, and nothing else changes but `DONE`. The two clipped rects and the bitmap
widths are those the registers give (R35, R37 to R41, R210): left and top signed, width and height unsigned. -/
def Obligations.BlitMapsEveryDestinationPixel : Prop :=
  ∀ s : State, Ready .blit s →
    (∀ a : Word, (s.opr.bsAddr.toNat ≤ a.toNat ∧
          a.toNat < s.opr.bsAddr.toNat + bitmapW s.opr.bsDim * bitmapH s.opr.bsDim) ∨
        (s.opr.bdAddr.toNat ≤ a.toNat ∧ a.toNat < s.opr.bdAddr.toNat + bitmapW s.opr.bdDim * bitmapH s.opr.bdDim) →
      admits s.platform a = true) →
    let cs := sourceClip s.opr
    let cd := destClip s.opr
    cs.isEmpty = false → cd.isEmpty = false →
    let from_ := fun px py : Int =>
      s.opr.bsAddr.toNat + (cs.top + (py - cd.top) * cs.height / cd.height).toNat * bitmapW s.opr.bsDim +
        (cs.left + (px - cd.left) * cs.width / cd.width).toNat
    let to_ := fun px py : Int => s.opr.bdAddr.toNat + py.toNat * bitmapW s.opr.bdDim + px.toNat
    ∃ m, exec .blit s = .next (completed { s with mem := m }) ∧
      (∀ px py, cd.hasPoint px py → m.read (to_ px py) = s.mem.read (from_ px py)) ∧
      (∀ a, (∀ px py, cd.hasPoint px py → a ≠ to_ px py) → m.read a = s.mem.read a)

/-- R215, D24: when either clipped rect is empty, BLIT reads and writes nothing and completes. -/
def Obligations.BlitWithAnEmptyClipDoesNothing : Prop :=
  ∀ s : State, Ready .blit s → (sourceClip s.opr).isEmpty = true ∨ (destClip s.opr).isEmpty = true →
    exec .blit s = .next (completed s)

/-- R218: FILL writes `FILL_VAL` to every pixel of the clipped destination rect and to no other byte, and completes. The
clipped rect and the bitmap's width are those the registers give (R37, R40, R41, R210). -/
def Obligations.FillWritesTheClippedRect : Prop :=
  ∀ s : State, Ready .fill s →
    (∀ a : Word, s.opr.bdAddr.toNat ≤ a.toNat →
      a.toNat < s.opr.bdAddr.toNat + bitmapW s.opr.bdDim * bitmapH s.opr.bdDim → admits s.platform a = true) →
    let cd := destClip s.opr
    let to_ := fun px py : Int => s.opr.bdAddr.toNat + py.toNat * bitmapW s.opr.bdDim + px.toNat
    ∃ m, exec .fill s = .next (completed { s with mem := m }) ∧
      (∀ px py, cd.hasPoint px py → m.read (to_ px py) = s.opr.fillVal) ∧
      (∀ a, (∀ px py, cd.hasPoint px py → a ≠ to_ px py) → m.read a = s.mem.read a)

/-- R71, R218, R284: when the platform answers at every pixel before number `k` of the traversal and not at that one, FILL
aborts with `BUS_ERROR` and that pixel's address; the pixels before it stay written, and no other byte changes. -/
def Obligations.FillStopsAtARefusedPixel : Prop :=
  ∀ (s : State) (k : Nat), Ready .fill s → k < (destClip s.opr).width * (destClip s.opr).height →
    (∀ j, j < k → admits s.platform (pixelTo s.opr j) = true) → admits s.platform (pixelTo s.opr k) = false →
    ∃ m, exec .fill s = .next (failed 0x0A#8 (pixelTo s.opr k) { s with mem := m }) ∧
      (∀ j, j < k → m.read (pixelTo s.opr j).toNat = s.opr.fillVal) ∧
      (∀ a, (∀ j, j < k → a ≠ (pixelTo s.opr j).toNat) → m.read a = s.mem.read a)

/-! ### The palette -/

/-- R251: PAL_CLEAR empties the palette and changes nothing else but `DONE`. -/
def Obligations.PalClearEmptiesThePalette : Prop :=
  ∀ s : State, Ready .palClear s → exec .palClear s = .next (completed { s with palette := [] })

/-- R252: PAL_PUSH returns the index of a colour that is present, appends one that is absent, and aborts with `PAL_FULL`,
changing neither palette nor `PAL_INDEX` nor `FOUND`, when there is no room for it. -/
def Obligations.PalPushAppendsOrFinds : Prop :=
  ∀ s : State, Ready .palPush s → s.palette.Nodup →
    (∀ i : Nat, s.palette[i]? = some s.palColor →
      exec .palPush s = .next (completed { s with
        palIndex := BitVec.ofNat 16 i, status := { s.status with found := true } })) ∧
    (s.palColor ∉ s.palette → s.palette.length < Config.palCap →
      exec .palPush s = .next (completed { s with
        palette := s.palette ++ [s.palColor]
        palIndex := BitVec.ofNat 16 s.palette.length
        status := { s.status with found := false } })) ∧
    (s.palColor ∉ s.palette → Config.palCap ≤ s.palette.length →
      exec .palPush s = .next (failed 0x07#8 0#32 s))

/-- R253: PAL_FIND gives the index of a colour that is present; a miss leaves `PAL_INDEX` and is no error. -/
def Obligations.PalFindHitsOrMisses : Prop :=
  ∀ s : State, Ready .palFind s → s.palette.Nodup →
    (∀ i : Nat, s.palette[i]? = some s.palColor →
      exec .palFind s = .next (completed { s with
        palIndex := BitVec.ofNat 16 i, status := { s.status with found := true } })) ∧
    (s.palColor ∉ s.palette →
      exec .palFind s = .next (completed { s with status := { s.status with found := false } }))

/-- R254: PAL_READ gives the colour of a valid index and aborts with `PAL_RANGE`, `PAL_COLOR` unchanged, for any other. -/
def Obligations.PalReadGivesTheEntry : Prop :=
  ∀ s : State, Ready .palRead s →
    (∀ c, s.palette[s.palIndex.toNat]? = some c → exec .palRead s = .next (completed { s with palColor := c })) ∧
    (s.palette.length ≤ s.palIndex.toNat → exec .palRead s = .next (failed 0x08#8 0#32 s))

/-- R255, R256: PAL_LOAD6 pushes the entries in file order, each channel being `(v * 4) mod 256` of its byte, red first.
`PAL_INDEX` and `FOUND` are those of the last push, and `IN_USED` is `SRC_LEN`. -/
def Obligations.PalLoadPushesTheEntries : Prop :=
  ∀ (s : State) (p : List Color) (i : BitVec 16) (found : Bool), Ready .palLoad6 s →
    s.opr.srcLen.toNat % 3 = 0 →
    (∀ k, k < s.opr.srcLen.toNat → admits s.platform (s.opr.srcAddr + BitVec.ofNat 32 k) = true) →
    pushMany ((List.range (s.opr.srcLen.toNat / 3)).map (rawColor s)) (s.palette, s.palIndex, s.status.found) =
      some (p, i, found) →
    exec .palLoad6 s = .next (completed { s with
      palette := p, palIndex := i, inUsed := s.opr.srcLen, status := { s.status with found := found } })

/-- R256: entries of pairwise different colours loaded into an empty palette keep their order: entry `e` gets index `e`. -/
def Obligations.DistinctEntriesKeepTheirIndex : Prop :=
  ∀ (cs : List Color) (i : BitVec 16) (found : Bool), cs.Nodup → cs.length ≤ Config.palCap →
    ∃ j g, pushMany cs ([], i, found) = some (cs, j, g) ∧
      (cs ≠ [] → j = BitVec.ofNat 16 (cs.length - 1) ∧ g = false)

/-- R256: when entry `e` finds no room, PAL_LOAD6 aborts with `PAL_FULL`; the entries before it stay pushed, and `ERR_ADDR`
and `IN_USED` are both `3 * e`. -/
def Obligations.PalLoadKeepsTheEntriesBeforeAFullPalette : Prop :=
  ∀ (s : State) (e : Nat) (p : List Color) (i : BitVec 16) (found : Bool), Ready .palLoad6 s →
    s.opr.srcLen.toNat % 3 = 0 → e < s.opr.srcLen.toNat / 3 →
    (∀ k, k < s.opr.srcLen.toNat → admits s.platform (s.opr.srcAddr + BitVec.ofNat 32 k) = true) →
    pushMany ((List.range e).map (rawColor s)) (s.palette, s.palIndex, s.status.found) = some (p, i, found) →
    rawColor s e ∉ p → Config.palCap ≤ p.length →
    exec .palLoad6 s = .next (failed 0x07#8 (BitVec.ofNat 32 (3 * e)) { s with
      palette := p, palIndex := i, inUsed := BitVec.ofNat 32 (3 * e), status := { s.status with found := found } })

/-- R257: after a successful PAL_PUSH of a colour and any colours appended later (no PAL_CLEAR between), PAL_FIND of it hits,
and PAL_READ of the index found gives it back; the other way round, PAL_READ of a valid index and then PAL_FIND of the colour
gives the index back. -/
def Obligations.PaletteRoundTrip : Prop :=
  (∀ (s t u : State) (later : List Color), Ready .palPush s → exec .palPush s = .next t → t.status.err = false →
    Ready .palFind u → u.palette = t.palette ++ later → u.palette.length ≤ Config.palCap → u.palColor = s.palColor →
    ∃ v, exec .palFind u = .next v ∧ v.status.found = true ∧
      ∀ w : State, Ready .palRead w → w.palette = u.palette → w.palIndex = v.palIndex →
        ∃ x, exec .palRead w = .next x ∧ x.palColor = s.palColor ∧ x.status.done = true) ∧
  (∀ s u : State, Ready .palRead s → s.palette.Nodup → s.palIndex.toNat < s.palette.length →
    ∃ t, exec .palRead s = .next t ∧
      (Ready .palFind u → u.palette = s.palette → u.palColor = t.palColor →
        ∃ v, exec .palFind u = .next v ∧ v.status.found = true ∧ v.palIndex = s.palIndex))

/-! ### Start checks -/

/-- R75, R131, R283: a window that ends past 2^32 aborts the command with `RANGE` before any memory access, PAL_LOAD6 too
whatever its length. PAL_LOAD6 then reports `IN_USED` 0, for no entry has been pushed (R32, R284). That LCW_DECODE and
ZRLE_EXPAND leave `OUT_LEN` and `IN_USED` is the model's reading of vector C-4 (log entry 12, DEDUCED). That a command whose
windows also overlap ends in the same way, whatever R91 says, is the model's choice (log entry 8, DESIGN CHOICE). -/
def Obligations.WindowPastTheTopIsARangeError : Prop :=
  ∀ (s : State) (i : Instr), i.codeSet = .cmd → s.phase = .accepted → s.unsettled = false →
    (∃ w ∈ windows i s.opr, Config.addrSpace < w.base + w.len) →
    exec i s = .next (failed 0x02#8 0#32 (if i = .palLoad6 then { s with inUsed := 0#32 } else s))

/-- R32, R131, R256, R284: PAL_LOAD6 with a length that is no multiple of 3 aborts with `PAL_BAD_LEN` and `ERR_ADDR` 0. It
reads nothing, the palette, `PAL_INDEX` and `FOUND` stay, and `IN_USED` is 0, three times the number of entries pushed. -/
def Obligations.PalLoadOfABadLengthFails : Prop :=
  ∀ s : State, s.phase = .accepted → s.unsettled = false → windowsInRange .palLoad6 s.opr = true →
    s.opr.srcLen.toNat % 3 ≠ 0 → exec .palLoad6 s = .next (failed 0x09#8 0#32 { s with inUsed := 0#32 })

/-- R84, U3: a command whose window lies over a device is refused by name, once its start checks have passed. -/
def Obligations.WindowOverADeviceIsRefused : Prop :=
  ∀ (s : State) (i : Instr), i.codeSet = .cmd → windowsInRange i s.opr = true →
    (i = .palLoad6 → s.opr.srcLen.toNat % 3 = 0) →
    (∃ r ∈ s.platform, r.kind = .device ∧ ∃ w ∈ windows i s.opr, ∃ a : Nat,
      r.range.base ≤ a ∧ a < r.range.base + r.range.len ∧ w.base ≤ a ∧ a < w.base + w.len) →
    exec i s = .refused .windowOverDevice

/-! ### The host's side -/

/-- R54: while the block is busy, a write to `CMD`, to an operand register or to a reserved offset changes nothing. -/
def Obligations.WritesWhileBusyAreIgnored : Prop :=
  ∀ (s : State) (offset : BitVec 8) (v : Word) (later : List HostEvent), s.busy = true →
    s.host = ⟨0, .regWrite offset .word v⟩ :: later → offset.toNat % 4 = 0 →
    offset ≠ 0x04#8 → offset ≠ 0x0C#8 →
    step s = .next { s with host := later, busReply := .ack }

/-- R24, R26: a write to `STATUS` clears `DONE` and `ERR` where its bits 1 and 2 are 1, the latter with `ERRCODE`, and a write
to `IRQ_EN` sets the two enables, busy or not. -/
def Obligations.StatusAndEnableWritesTakeEffect : Prop :=
  ∀ (s : State) (v : Word) (later : List HostEvent),
    (s.host = ⟨0, .regWrite 0x04#8 .word v⟩ :: later →
      step s = .next { s with
        host := later, busReply := .ack
        status := { s.status with
          done := if v.getLsbD 1 then false else s.status.done
          err := if v.getLsbD 2 then false else s.status.err }
        errCode := if v.getLsbD 2 then 0#8 else s.errCode }) ∧
    (s.host = ⟨0, .regWrite 0x0C#8 .word v⟩ :: later →
      step s = .next { s with
        host := later, busReply := .ack, irqEn := { doneIe := v.getLsbD 0, errIe := v.getLsbD 1 } })

/-- R21, R22, R26 to R30, R34 to R44, R54, R250: which register stands at which offset of the map. The host's aligned word read
gives the register, and its write while the block is idle changes that register and no other, less the reserved bits, so that
a read gives back what was written. `FILL_VAL` has 8 bits and `PAL_INDEX` 16; in the word of `PAL_COLOR` red is the lowest
byte, then green, then blue; bit 0 of `IRQ_EN` is `DONE_IE` and bit 1 `ERR_IE`, written busy or not. -/
def Obligations.OperandRegistersReadBack : Prop :=
  (∀ (s : State) (offset : BitVec 8) (v : Word) (later : List HostEvent), offset.toNat % 4 = 0 →
    (s.host = ⟨0, .regRead offset .word⟩ :: later →
      step s = .next { s with host := later, busReply := .word (readReg offset s) }) ∧
    (s.host = ⟨0, .regWrite offset .word v⟩ :: later →
      step s = .next { writeReg offset v { s with host := later } with busReply := .ack })) ∧
  (∀ s : State,
    readReg 0x10#8 s = s.opr.srcAddr ∧ readReg 0x14#8 s = s.opr.srcLen ∧
    readReg 0x18#8 s = s.opr.dstAddr ∧ readReg 0x1C#8 s = s.opr.dstCap ∧
    readReg 0x30#8 s = s.opr.bsAddr ∧ readReg 0x34#8 s = s.opr.bsDim ∧
    readReg 0x38#8 s = s.opr.bdAddr ∧ readReg 0x3C#8 s = s.opr.bdDim ∧
    readReg 0x40#8 s = s.opr.srX ∧ readReg 0x44#8 s = s.opr.srY ∧
    readReg 0x48#8 s = s.opr.srW ∧ readReg 0x4C#8 s = s.opr.srH ∧
    readReg 0x50#8 s = s.opr.drX ∧ readReg 0x54#8 s = s.opr.drY ∧
    readReg 0x58#8 s = s.opr.drW ∧ readReg 0x5C#8 s = s.opr.drH ∧
    (readReg 0x60#8 s).toNat = s.opr.fillVal.toNat ∧ (readReg 0x74#8 s).toNat = s.palIndex.toNat ∧
    (readReg 0x70#8 s).toNat = s.palColor.r.toNat + 256 * s.palColor.g.toNat + 65536 * s.palColor.b.toNat ∧
    (readReg 0x0C#8 s).toNat = s.irqEn.doneIe.toNat + 2 * s.irqEn.errIe.toNat) ∧
  (∀ (s : State) (v : Word),
    writeReg 0x0C#8 v s = { s with irqEn := { doneIe := v.getLsbD 0, errIe := v.getLsbD 1 } } ∧
    (s.phase = .idle →
      writeReg 0x10#8 v s = { s with opr := { s.opr with srcAddr := v } } ∧
      writeReg 0x14#8 v s = { s with opr := { s.opr with srcLen := v } } ∧
      writeReg 0x18#8 v s = { s with opr := { s.opr with dstAddr := v } } ∧
      writeReg 0x1C#8 v s = { s with opr := { s.opr with dstCap := v } } ∧
      writeReg 0x30#8 v s = { s with opr := { s.opr with bsAddr := v } } ∧
      writeReg 0x34#8 v s = { s with opr := { s.opr with bsDim := v } } ∧
      writeReg 0x38#8 v s = { s with opr := { s.opr with bdAddr := v } } ∧
      writeReg 0x3C#8 v s = { s with opr := { s.opr with bdDim := v } } ∧
      writeReg 0x40#8 v s = { s with opr := { s.opr with srX := v } } ∧
      writeReg 0x44#8 v s = { s with opr := { s.opr with srY := v } } ∧
      writeReg 0x48#8 v s = { s with opr := { s.opr with srW := v } } ∧
      writeReg 0x4C#8 v s = { s with opr := { s.opr with srH := v } } ∧
      writeReg 0x50#8 v s = { s with opr := { s.opr with drX := v } } ∧
      writeReg 0x54#8 v s = { s with opr := { s.opr with drY := v } } ∧
      writeReg 0x58#8 v s = { s with opr := { s.opr with drW := v } } ∧
      writeReg 0x5C#8 v s = { s with opr := { s.opr with drH := v } } ∧
      writeReg 0x60#8 v s = { s with opr := { s.opr with fillVal := BitVec.ofNat 8 (v.toNat % 256) } } ∧
      writeReg 0x70#8 v s = { s with palColor :=
        { r := BitVec.ofNat 8 (v.toNat % 256)
          g := BitVec.ofNat 8 (v.toNat / 256 % 256)
          b := BitVec.ofNat 8 (v.toNat / 65536 % 256) } } ∧
      writeReg 0x74#8 v s = { s with palIndex := BitVec.ofNat 16 (v.toNat % 65536) })) ∧
  (∀ (s : State) (offset : BitVec 8) (v : Word), s.phase = .idle →
    (offset ∈ [0x10#8, 0x14#8, 0x18#8, 0x1C#8, 0x30#8, 0x34#8, 0x38#8, 0x3C#8, 0x40#8, 0x44#8, 0x48#8, 0x4C#8,
        0x50#8, 0x54#8, 0x58#8, 0x5C#8] → readReg offset (writeReg offset v s) = v) ∧
    (offset = 0x60#8 → readReg offset (writeReg offset v s) = v &&& 0xFF#32) ∧
    (offset = 0x70#8 → readReg offset (writeReg offset v s) = v &&& 0xFFFFFF#32) ∧
    (offset = 0x74#8 → readReg offset (writeReg offset v s) = v &&& 0xFFFF#32) ∧
    (offset = 0x0C#8 → readReg offset (writeReg offset v s) = v &&& 3#32))

/-- R21, R22, R25, R31 to R33, R45 to R47: writes to the RO registers and to reserved offsets are ignored, reserved offsets and
`CMD` read 0, and `ERRCODE`, `OUT_LEN`, `IN_USED`, `ERR_ADDR`, `PAL_COUNT` and `PAL_CAPR` read as the registers they are, in
every state. -/
def Obligations.ReadOnlyAndReservedOffsets : Prop :=
  (∀ (s : State) (offset : BitVec 8) (v : Word), offset.toNat % 4 = 0 →
    (offset.toNat ∈ [0x08, 0x20, 0x24, 0x28, 0x2C, 0x64, 0x68, 0x6C, 0x78, 0x7C] ∨ 0x80 ≤ offset.toNat →
      writeReg offset v s = s) ∧
    (offset.toNat ∈ [0x00, 0x2C, 0x64, 0x68, 0x6C] ∨ 0x80 ≤ offset.toNat → readReg offset s = 0#32)) ∧
  (∀ s : State, (readReg 0x08#8 s).toNat = s.errCode.toNat ∧ readReg 0x20#8 s = s.outLen ∧
    readReg 0x24#8 s = s.inUsed ∧ readReg 0x28#8 s = s.errAddr ∧
    readReg 0x78#8 s = BitVec.ofNat 32 s.palette.length ∧ readReg 0x7C#8 s = 256#32)

/-- R81: a register access that is not 32 bits wide at a 4-aligned offset gets the bus error, changes no state of the block
and gives no data. -/
def Obligations.NarrowOrMisalignedAccessIsABusError : Prop :=
  ∀ (s : State) (offset : BitVec 8) (width : AccessWidth) (v : Word) (later : List HostEvent),
    width ≠ .word ∨ offset.toNat % 4 ≠ 0 →
    (s.host = ⟨0, .regRead offset width⟩ :: later →
      step s = .next { s with host := later, busReply := .busError }) ∧
    (s.host = ⟨0, .regWrite offset width v⟩ :: later →
      step s = .next { s with host := later, busReply := .busError })

/-- R24: bit 0 of the `STATUS` word is `BUSY`, bit 1 `DONE`, bit 2 `ERR`, bit 3 `FOUND`, and bits [31:4] are 0. R290: the
interrupt line is (`DONE` and `DONE_IE`) or (`ERR` and `ERR_IE`). The host reads them by a step. -/
def Obligations.StatusBitsAndInterruptLine : Prop :=
  ∀ (s : State) (later : List HostEvent),
    (s.host = ⟨0, .regRead 0x04#8 .word⟩ :: later → ∃ w, step s = .next { s with host := later, busReply := .word w } ∧
      (w.getLsbD 0 = true ↔ s.phase ≠ .idle) ∧ w.getLsbD 1 = s.status.done ∧ w.getLsbD 2 = s.status.err ∧
      w.getLsbD 3 = s.status.found ∧ ∀ k, 4 ≤ k → w.getLsbD k = false) ∧
    (s.host = ⟨0, .sampleIrq⟩ :: later →
      ∃ level, step s = .next { s with host := later, busReply := .line level } ∧
        (level = true ↔ (s.status.done = true ∧ s.irqEn.doneIe = true) ∨
          (s.status.err = true ∧ s.irqEn.errIe = true)))

/-- R89: a host read of a byte in a written window of the running command sees the old byte or the one the command leaves
there; a host write to a byte in any of its windows makes its results unspecified. Both hold for every free value. That a
read sees one of these two bytes is the model's choice (log entry 10, DESIGN CHOICE), and so is that memory goes on as the
host wrote it and the results become free values at the command's end (log entry 9, DEDUCED). -/
def Obligations.HostAccessToALiveWindow : Prop :=
  ∀ (s : State) (a : Word) (v : Byte) (later : List HostEvent) (i : Instr),
    running s = some i → windowsInRange i s.opr = true → s.mem.wf = true →
    (s.host = ⟨0, .memRead a⟩ :: later → s.unsettled = false → windowsOverlap i s.opr = false →
      (∃ w ∈ writtenWindows i s.opr, w.base ≤ a.toNat ∧ a.toNat < w.base + w.len) →
      ∃ t b, step s = .next t ∧ t.busReply = .byte b ∧ t.mem = s.mem ∧ t.eng = s.eng ∧ t.phase = s.phase ∧
        (b = s.startMem.read a.toNat ∨ b = (finalMem { s with host := later }).read a.toNat)) ∧
    (s.host = ⟨0, .memWrite a v⟩ :: later →
      (∃ w ∈ windows i s.opr, w.base ≤ a.toNat ∧ a.toNat < w.base + w.len) →
      ∃ t, step s = .next t ∧ t.unsettled = true ∧ t.mem.read a.toNat = v ∧
        ∀ b, b ≠ a.toNat → t.mem.read b = s.mem.read b)

/-- R89, R91: the end of a command whose results are unspecified. Exactly one of `DONE` and `ERR` is set, the error code is an
assigned one, the operand registers and `IRQ_EN` are unchanged, and no byte outside its written windows changes. It holds
for every free value. What stays specified there is the model's choice (log entries 8, 9 and 18, DEDUCED). -/
def Obligations.UnspecifiedResultsStillEnd : Prop :=
  ∀ s : State, s.unsettled = true → ∀ t : State,
    (t = complete s ∨ ∃ e a, t = abort e a s) →
    t.phase = .idle ∧ t.unsettled = false ∧ t.status.done ≠ t.status.err ∧ t.errCode.toNat ≤ 0x0A ∧
      t.opr = s.opr ∧ t.irqEn = s.irqEn ∧
      ∀ a, inSome (liveWritten s) a = false → t.mem.read a = s.mem.read a

/-! ### Reset -/

/-- R55: what reset leaves in the block's registers, as the host reads them, and the palette, the interrupt line and the
command in progress. -/
def Obligations.ResetLeavesTheRegistersAtZero : Prop :=
  (∀ offset : BitVec 8, offset ≠ 0x7C#8 → readReg offset State.reset = 0#32) ∧
  readReg 0x7C#8 State.reset = 256#32 ∧ State.reset.palette = [] ∧ State.reset.phase = .idle ∧
  irq State.reset = false ∧ ∀ c, findColor State.reset.palette c = none

/-- R320, R321: the reset input puts every register of the block to its reset value. It changes no byte of memory, but for
the written windows of a command it cuts short, where each byte is its old value or the value the command would have
written. It holds for every free value. These parts are the model's choice: the engine's stream state takes the values of
`State.reset` (log entry 6); the written bytes of a command with a window over a device, which the last clause does not
exclude, keep their old values (log entry 11); `busReply` is cleared (log entry 20); the host's later actions and the platform
stay (log entry 25); a command whose windows fail the check of R75 has no window (log entry 26). -/
def Obligations.ResetInputAbandonsTheCommand : Prop :=
  ∀ (s : State) (later : List HostEvent), s.host = ⟨0, .reset⟩ :: later →
    ∃ t, step s = .next t ∧
      t = { State.reset with mem := t.mem, platform := s.platform, host := later, freeCount := t.freeCount } ∧
      (s.phase = .idle → t.mem = s.mem) ∧
      (∀ a, inSome (liveWritten s) a = false → t.mem.read a = s.mem.read a) ∧
      (∀ i a, running s = some i → s.mem.wf = true → s.unsettled = false → windowsOverlap i s.opr = false →
        inSome (liveWritten s) a = true →
        t.mem.read a = s.startMem.read a ∨ t.mem.read a = (finalMem { s with host := later }).read a)

/-! ### The whole machine -/

/-- The invariant holds after reset. -/
def Obligations.InvariantHoldsAtReset : Prop := State.reset.Inv

/-- Every step, of the host and of the engine, from every state that meets the invariant keeps it: memory stays canonical,
the palette's entries stay different and at most `PAL_CAP`, at most one of BUSY, DONE and ERR is set, the error code is an
assigned one and is 0 while busy, and the stream cursor and output length stay inside their windows. -/
def Obligations.EveryStepKeepsTheInvariant : Prop :=
  ∀ s t : State, s.Inv → step s = .next t → t.Inv

/-- R133, R287: every command ends. From every state that meets the invariant, when the host waits and no window of the
command lies over a device, the block is idle after at most `stepBound` steps, with exactly one of DONE and ERR set if it
was busy. -/
def Obligations.EveryCommandEnds : Prop :=
  ∀ s : State, s.Inv → s.host = [] → (∀ i, running s = some i → overDevice i s = false) →
    ∃ k t, k ≤ stepBound s ∧ Sys2Proof.core.run k s = .next t ∧ t.phase = .idle ∧
      (s.busy = true → t.status.done ≠ t.status.err)

/-- R75, R287: a step of the engine changes no byte of memory outside the written windows of the command it runs. That a
command whose windows fail the check of R75 has none, also when they overlap, is the model's choice (log entries 8 and 26). -/
def Obligations.EngineWritesOnlyItsWindows : Prop :=
  ∀ s t : State, s.Inv → s.host = [] → step s = .next t →
    ∀ a, inSome (liveWritten s) a = false → t.mem.read a = s.mem.read a

/-- R53, R54: a step of the engine leaves the operand registers, `IRQ_EN` and the platform; and while the command goes on it
leaves every register it writes at the command's end, and the palette. -/
def Obligations.ResultsChangeOnlyAtTheEnd : Prop :=
  ∀ s t : State, s.host = [] → step s = .next t →
    t.opr = s.opr ∧ t.irqEn = s.irqEn ∧ t.platform = s.platform ∧ t.cmd = s.cmd ∧
    (t.busy = true →
      t.outLen = s.outLen ∧ t.inUsed = s.inUsed ∧ t.errAddr = s.errAddr ∧ t.errCode = s.errCode ∧
      t.palColor = s.palColor ∧ t.palIndex = s.palIndex ∧ t.palette = s.palette ∧ t.status = s.status)

/-- The frame of every instruction: one that gives a next state leaves the operand registers, `IRQ_EN`, `CMD` and the
platform; only PAL_READ writes `PAL_COLOR`. Unless results are unspecified, only PAL_PUSH, PAL_LOAD6 and PAL_FIND write
`PAL_INDEX` and `FOUND`, only PAL_CLEAR, PAL_PUSH and PAL_LOAD6 change the palette, a stream code changes no byte of memory
but the output bytes it appends, BLIT and FILL change none but the pixels of the clipped destination rect, and every other
instruction changes none, however it ends. -/
def Obligations.InstructionFrame : Prop :=
  ∀ (i : Instr) (s t : State), exec i s = .next t →
    t.opr = s.opr ∧ t.irqEn = s.irqEn ∧ t.cmd = s.cmd ∧ t.platform = s.platform ∧ t.host = s.host ∧
    t.busReply = s.busReply ∧ (i ≠ .palRead → t.palColor = s.palColor) ∧
    (s.unsettled = false → windowsOverlap i s.opr = false →
      (i ∉ [.palPush, .palLoad6, .palFind] → t.palIndex = s.palIndex ∧ t.status.found = s.status.found) ∧
      (i ∉ [.palClear, .palPush, .palLoad6] → t.palette = s.palette) ∧
      (i ∈ [.modeRel, .endMark, .lcwDecode, .zrleExpand, .palClear, .palPush, .palLoad6, .palFind, .palRead] →
        t.mem = s.mem) ∧
      (i.codeSet = .lcw ∨ i.codeSet = .zrle → ∀ a,
        (∀ j, j < appendCount i → a ≠ (outAddr s (s.eng.outLen.toNat + j)).toNat) → t.mem.read a = s.mem.read a) ∧
      (i = .blit ∨ i = .fill → ∀ a,
        (∀ ij ∈ offsets (clippedDest s.opr).width (clippedDest s.opr).height, a ≠ (destPixel s.opr ij).toNat) →
        t.mem.read a = s.mem.read a))

/-- A whole LCW_DECODE (R150, R160): a stream of an optional mode byte, well-formed LCW commands that produce `out`, and the
terminator runs to its end with `DONE`, `OUT_LEN` the output's length, `IN_USED` the stream's length up to and including the
terminator, the output in the output window, and everything else as before. Bytes after the terminator are not read. In
absolute mode the first byte is not 0x00 (R112). -/
def Obligations.LcwDecodeProducesItsStream : Prop :=
  ∀ (s : State) (mode : LcwMode) (codes : List Instr) (stream after out : List Byte),
    s.cmd = 0x01#32 → s.host = [] → Ready .lcwDecode s → OutputAnswers s →
    (∀ i ∈ codes, WellFormed i) → lcwOutput mode codes [] = some out → out.length ≤ s.opr.dstCap.toNat →
    (mode = .rel → stream = encode .modeRel ++ encodeAll codes ++ encode .endMark) →
    (mode = .abs → stream = encodeAll codes ++ encode .endMark ∧ stream.head? ≠ some 0x00#8) →
    InputIs s (stream ++ after) →
    ∃ k t, Sys2Proof.core.run k s = .next t ∧ StreamDone s t stream.length out

/-- A whole ZRLE_EXPAND (R190, R194): a stream of well-formed zero-run codes that produce `out` runs to its end in the same
way, and the whole input is consumed. -/
def Obligations.ZrleExpandProducesItsStream : Prop :=
  ∀ (s : State) (codes : List Instr) (out : List Byte),
    s.cmd = 0x02#32 → s.host = [] → Ready .zrleExpand s → OutputAnswers s →
    (∀ i ∈ codes, WellFormed i) → zrleOutput codes = some out → out.length ≤ s.opr.dstCap.toNat →
    InputIs s (encodeAll codes) →
    ∃ k t, Sys2Proof.core.run k s = .next t ∧ StreamDone s t s.opr.srcLen.toNat out
end

