-- ==== Sys2Proof/Laws/State.lean ====
section
/-! SUPPORT. One lemma per field per named update of the state, true by unfolding, so that no proof unfolds a record
update. -/

namespace Sys2Proof.Machine

@[simp] theorem markStart_cmd (s : State) : (markStart s).cmd = s.cmd := rfl
@[simp] theorem markStart_status (s : State) : (markStart s).status = s.status := rfl
@[simp] theorem markStart_errCode (s : State) : (markStart s).errCode = s.errCode := rfl
@[simp] theorem markStart_irqEn (s : State) : (markStart s).irqEn = s.irqEn := rfl
@[simp] theorem markStart_opr (s : State) : (markStart s).opr = s.opr := rfl
@[simp] theorem markStart_outLen (s : State) : (markStart s).outLen = s.outLen := rfl
@[simp] theorem markStart_inUsed (s : State) : (markStart s).inUsed = s.inUsed := rfl
@[simp] theorem markStart_errAddr (s : State) : (markStart s).errAddr = s.errAddr := rfl
@[simp] theorem markStart_palColor (s : State) : (markStart s).palColor = s.palColor := rfl
@[simp] theorem markStart_palIndex (s : State) : (markStart s).palIndex = s.palIndex := rfl
@[simp] theorem markStart_palette (s : State) : (markStart s).palette = s.palette := rfl
@[simp] theorem markStart_phase (s : State) : (markStart s).phase = s.phase := rfl
@[simp] theorem markStart_eng (s : State) : (markStart s).eng = { s.eng with cmdStart := s.eng.inPos } := rfl
@[simp] theorem markStart_mem (s : State) : (markStart s).mem = s.mem := rfl
@[simp] theorem markStart_platform (s : State) : (markStart s).platform = s.platform := rfl
@[simp] theorem markStart_host (s : State) : (markStart s).host = s.host := rfl
@[simp] theorem markStart_busReply (s : State) : (markStart s).busReply = s.busReply := rfl
@[simp] theorem markStart_unsettled (s : State) : (markStart s).unsettled = s.unsettled := rfl
@[simp] theorem markStart_raced (s : State) : (markStart s).raced = s.raced := rfl
@[simp] theorem markStart_startMem (s : State) : (markStart s).startMem = s.startMem := rfl
@[simp] theorem markStart_freeCount (s : State) : (markStart s).freeCount = s.freeCount := rfl

@[simp] theorem advance_cmd (s : State) : (advance s).cmd = s.cmd := rfl
@[simp] theorem advance_status (s : State) : (advance s).status = s.status := rfl
@[simp] theorem advance_errCode (s : State) : (advance s).errCode = s.errCode := rfl
@[simp] theorem advance_irqEn (s : State) : (advance s).irqEn = s.irqEn := rfl
@[simp] theorem advance_opr (s : State) : (advance s).opr = s.opr := rfl
@[simp] theorem advance_outLen (s : State) : (advance s).outLen = s.outLen := rfl
@[simp] theorem advance_inUsed (s : State) : (advance s).inUsed = s.inUsed := rfl
@[simp] theorem advance_errAddr (s : State) : (advance s).errAddr = s.errAddr := rfl
@[simp] theorem advance_palColor (s : State) : (advance s).palColor = s.palColor := rfl
@[simp] theorem advance_palIndex (s : State) : (advance s).palIndex = s.palIndex := rfl
@[simp] theorem advance_palette (s : State) : (advance s).palette = s.palette := rfl
@[simp] theorem advance_phase (s : State) : (advance s).phase = s.phase := rfl
@[simp] theorem advance_eng (s : State) : (advance s).eng = { s.eng with inPos := s.eng.inPos + 1#32 } := rfl
@[simp] theorem advance_mem (s : State) : (advance s).mem = s.mem := rfl
@[simp] theorem advance_platform (s : State) : (advance s).platform = s.platform := rfl
@[simp] theorem advance_host (s : State) : (advance s).host = s.host := rfl
@[simp] theorem advance_busReply (s : State) : (advance s).busReply = s.busReply := rfl
@[simp] theorem advance_unsettled (s : State) : (advance s).unsettled = s.unsettled := rfl
@[simp] theorem advance_raced (s : State) : (advance s).raced = s.raced := rfl
@[simp] theorem advance_startMem (s : State) : (advance s).startMem = s.startMem := rfl
@[simp] theorem advance_freeCount (s : State) : (advance s).freeCount = s.freeCount := rfl

@[simp] theorem grow_cmd (s : State) : (grow s).cmd = s.cmd := rfl
@[simp] theorem grow_status (s : State) : (grow s).status = s.status := rfl
@[simp] theorem grow_errCode (s : State) : (grow s).errCode = s.errCode := rfl
@[simp] theorem grow_irqEn (s : State) : (grow s).irqEn = s.irqEn := rfl
@[simp] theorem grow_opr (s : State) : (grow s).opr = s.opr := rfl
@[simp] theorem grow_outLen (s : State) : (grow s).outLen = s.outLen := rfl
@[simp] theorem grow_inUsed (s : State) : (grow s).inUsed = s.inUsed := rfl
@[simp] theorem grow_errAddr (s : State) : (grow s).errAddr = s.errAddr := rfl
@[simp] theorem grow_palColor (s : State) : (grow s).palColor = s.palColor := rfl
@[simp] theorem grow_palIndex (s : State) : (grow s).palIndex = s.palIndex := rfl
@[simp] theorem grow_palette (s : State) : (grow s).palette = s.palette := rfl
@[simp] theorem grow_phase (s : State) : (grow s).phase = s.phase := rfl
@[simp] theorem grow_eng (s : State) : (grow s).eng = { s.eng with outLen := s.eng.outLen + 1#32 } := rfl
@[simp] theorem grow_mem (s : State) : (grow s).mem = s.mem := rfl
@[simp] theorem grow_platform (s : State) : (grow s).platform = s.platform := rfl
@[simp] theorem grow_host (s : State) : (grow s).host = s.host := rfl
@[simp] theorem grow_busReply (s : State) : (grow s).busReply = s.busReply := rfl
@[simp] theorem grow_unsettled (s : State) : (grow s).unsettled = s.unsettled := rfl
@[simp] theorem grow_raced (s : State) : (grow s).raced = s.raced := rfl
@[simp] theorem grow_startMem (s : State) : (grow s).startMem = s.startMem := rfl
@[simp] theorem grow_freeCount (s : State) : (grow s).freeCount = s.freeCount := rfl

@[simp] theorem selectAbsolute_cmd (s : State) : (selectAbsolute s).cmd = s.cmd := rfl
@[simp] theorem selectAbsolute_status (s : State) : (selectAbsolute s).status = s.status := rfl
@[simp] theorem selectAbsolute_errCode (s : State) : (selectAbsolute s).errCode = s.errCode := rfl
@[simp] theorem selectAbsolute_irqEn (s : State) : (selectAbsolute s).irqEn = s.irqEn := rfl
@[simp] theorem selectAbsolute_opr (s : State) : (selectAbsolute s).opr = s.opr := rfl
@[simp] theorem selectAbsolute_outLen (s : State) : (selectAbsolute s).outLen = s.outLen := rfl
@[simp] theorem selectAbsolute_inUsed (s : State) : (selectAbsolute s).inUsed = s.inUsed := rfl
@[simp] theorem selectAbsolute_errAddr (s : State) : (selectAbsolute s).errAddr = s.errAddr := rfl
@[simp] theorem selectAbsolute_palColor (s : State) : (selectAbsolute s).palColor = s.palColor := rfl
@[simp] theorem selectAbsolute_palIndex (s : State) : (selectAbsolute s).palIndex = s.palIndex := rfl
@[simp] theorem selectAbsolute_palette (s : State) : (selectAbsolute s).palette = s.palette := rfl
@[simp] theorem selectAbsolute_phase (s : State) : (selectAbsolute s).phase = .lcwCode := rfl
@[simp] theorem selectAbsolute_eng (s : State) : (selectAbsolute s).eng = { s.eng with mode := .abs } := rfl
@[simp] theorem selectAbsolute_mem (s : State) : (selectAbsolute s).mem = s.mem := rfl
@[simp] theorem selectAbsolute_platform (s : State) : (selectAbsolute s).platform = s.platform := rfl
@[simp] theorem selectAbsolute_host (s : State) : (selectAbsolute s).host = s.host := rfl
@[simp] theorem selectAbsolute_busReply (s : State) : (selectAbsolute s).busReply = s.busReply := rfl
@[simp] theorem selectAbsolute_unsettled (s : State) : (selectAbsolute s).unsettled = s.unsettled := rfl
@[simp] theorem selectAbsolute_raced (s : State) : (selectAbsolute s).raced = s.raced := rfl
@[simp] theorem selectAbsolute_startMem (s : State) : (selectAbsolute s).startMem = s.startMem := rfl
@[simp] theorem selectAbsolute_freeCount (s : State) : (selectAbsolute s).freeCount = s.freeCount := rfl

@[simp] theorem startCommand_cmd (w : Word) (s : State) : (startCommand w s).cmd = w := rfl
@[simp] theorem startCommand_status (w : Word) (s : State) : (startCommand w s).status = startFlags := rfl
@[simp] theorem startCommand_errCode (w : Word) (s : State) : (startCommand w s).errCode = 0#8 := rfl
@[simp] theorem startCommand_irqEn (w : Word) (s : State) : (startCommand w s).irqEn = s.irqEn := rfl
@[simp] theorem startCommand_opr (w : Word) (s : State) : (startCommand w s).opr = s.opr := rfl
@[simp] theorem startCommand_outLen (w : Word) (s : State) : (startCommand w s).outLen = s.outLen := rfl
@[simp] theorem startCommand_inUsed (w : Word) (s : State) : (startCommand w s).inUsed = s.inUsed := rfl
@[simp] theorem startCommand_errAddr (w : Word) (s : State) : (startCommand w s).errAddr = s.errAddr := rfl
@[simp] theorem startCommand_palColor (w : Word) (s : State) : (startCommand w s).palColor = s.palColor := rfl
@[simp] theorem startCommand_palIndex (w : Word) (s : State) : (startCommand w s).palIndex = s.palIndex := rfl
@[simp] theorem startCommand_palette (w : Word) (s : State) : (startCommand w s).palette = s.palette := rfl
@[simp] theorem startCommand_phase (w : Word) (s : State) : (startCommand w s).phase = .accepted := rfl
@[simp] theorem startCommand_eng (w : Word) (s : State) : (startCommand w s).eng = s.eng := rfl
@[simp] theorem startCommand_mem (w : Word) (s : State) : (startCommand w s).mem = s.mem := rfl
@[simp] theorem startCommand_platform (w : Word) (s : State) : (startCommand w s).platform = s.platform := rfl
@[simp] theorem startCommand_host (w : Word) (s : State) : (startCommand w s).host = s.host := rfl
@[simp] theorem startCommand_busReply (w : Word) (s : State) : (startCommand w s).busReply = s.busReply := rfl
@[simp] theorem startCommand_unsettled (w : Word) (s : State) : (startCommand w s).unsettled = false := rfl
@[simp] theorem startCommand_raced (w : Word) (s : State) : (startCommand w s).raced = false := rfl
@[simp] theorem startCommand_startMem (w : Word) (s : State) : (startCommand w s).startMem = s.mem := rfl
@[simp] theorem startCommand_freeCount (w : Word) (s : State) : (startCommand w s).freeCount = s.freeCount := rfl

@[simp] theorem acknowledge_cmd (w : Word) (s : State) : (acknowledge w s).cmd = s.cmd := rfl
@[simp] theorem acknowledge_status (w : Word) (s : State) : (acknowledge w s).status = clearFlags w s.status := rfl
@[simp] theorem acknowledge_errCode (w : Word) (s : State) : (acknowledge w s).errCode = clearErrCode w s.errCode := rfl
@[simp] theorem acknowledge_irqEn (w : Word) (s : State) : (acknowledge w s).irqEn = s.irqEn := rfl
@[simp] theorem acknowledge_opr (w : Word) (s : State) : (acknowledge w s).opr = s.opr := rfl
@[simp] theorem acknowledge_outLen (w : Word) (s : State) : (acknowledge w s).outLen = s.outLen := rfl
@[simp] theorem acknowledge_inUsed (w : Word) (s : State) : (acknowledge w s).inUsed = s.inUsed := rfl
@[simp] theorem acknowledge_errAddr (w : Word) (s : State) : (acknowledge w s).errAddr = s.errAddr := rfl
@[simp] theorem acknowledge_palColor (w : Word) (s : State) : (acknowledge w s).palColor = s.palColor := rfl
@[simp] theorem acknowledge_palIndex (w : Word) (s : State) : (acknowledge w s).palIndex = s.palIndex := rfl
@[simp] theorem acknowledge_palette (w : Word) (s : State) : (acknowledge w s).palette = s.palette := rfl
@[simp] theorem acknowledge_phase (w : Word) (s : State) : (acknowledge w s).phase = s.phase := rfl
@[simp] theorem acknowledge_eng (w : Word) (s : State) : (acknowledge w s).eng = s.eng := rfl
@[simp] theorem acknowledge_mem (w : Word) (s : State) : (acknowledge w s).mem = s.mem := rfl
@[simp] theorem acknowledge_platform (w : Word) (s : State) : (acknowledge w s).platform = s.platform := rfl
@[simp] theorem acknowledge_host (w : Word) (s : State) : (acknowledge w s).host = s.host := rfl
@[simp] theorem acknowledge_busReply (w : Word) (s : State) : (acknowledge w s).busReply = s.busReply := rfl
@[simp] theorem acknowledge_unsettled (w : Word) (s : State) : (acknowledge w s).unsettled = s.unsettled := rfl
@[simp] theorem acknowledge_raced (w : Word) (s : State) : (acknowledge w s).raced = s.raced := rfl
@[simp] theorem acknowledge_startMem (w : Word) (s : State) : (acknowledge w s).startMem = s.startMem := rfl
@[simp] theorem acknowledge_freeCount (w : Word) (s : State) : (acknowledge w s).freeCount = s.freeCount := rfl

@[simp] theorem markOverlap_cmd (i : Instr) (s : State) : (markOverlap i s).cmd = s.cmd := rfl
@[simp] theorem markOverlap_status (i : Instr) (s : State) : (markOverlap i s).status = s.status := rfl
@[simp] theorem markOverlap_errCode (i : Instr) (s : State) : (markOverlap i s).errCode = s.errCode := rfl
@[simp] theorem markOverlap_irqEn (i : Instr) (s : State) : (markOverlap i s).irqEn = s.irqEn := rfl
@[simp] theorem markOverlap_opr (i : Instr) (s : State) : (markOverlap i s).opr = s.opr := rfl
@[simp] theorem markOverlap_outLen (i : Instr) (s : State) : (markOverlap i s).outLen = s.outLen := rfl
@[simp] theorem markOverlap_inUsed (i : Instr) (s : State) : (markOverlap i s).inUsed = s.inUsed := rfl
@[simp] theorem markOverlap_errAddr (i : Instr) (s : State) : (markOverlap i s).errAddr = s.errAddr := rfl
@[simp] theorem markOverlap_palColor (i : Instr) (s : State) : (markOverlap i s).palColor = s.palColor := rfl
@[simp] theorem markOverlap_palIndex (i : Instr) (s : State) : (markOverlap i s).palIndex = s.palIndex := rfl
@[simp] theorem markOverlap_palette (i : Instr) (s : State) : (markOverlap i s).palette = s.palette := rfl
@[simp] theorem markOverlap_phase (i : Instr) (s : State) : (markOverlap i s).phase = s.phase := rfl
@[simp] theorem markOverlap_eng (i : Instr) (s : State) : (markOverlap i s).eng = s.eng := rfl
@[simp] theorem markOverlap_mem (i : Instr) (s : State) : (markOverlap i s).mem = s.mem := rfl
@[simp] theorem markOverlap_platform (i : Instr) (s : State) : (markOverlap i s).platform = s.platform := rfl
@[simp] theorem markOverlap_host (i : Instr) (s : State) : (markOverlap i s).host = s.host := rfl
@[simp] theorem markOverlap_busReply (i : Instr) (s : State) : (markOverlap i s).busReply = s.busReply := rfl
@[simp] theorem markOverlap_unsettled (i : Instr) (s : State) : (markOverlap i s).unsettled = (s.unsettled || windowsOverlap i s.opr) := rfl
@[simp] theorem markOverlap_raced (i : Instr) (s : State) : (markOverlap i s).raced = s.raced := rfl
@[simp] theorem markOverlap_startMem (i : Instr) (s : State) : (markOverlap i s).startMem = s.startMem := rfl
@[simp] theorem markOverlap_freeCount (i : Instr) (s : State) : (markOverlap i s).freeCount = s.freeCount := rfl

@[simp] theorem hostMemWrite_cmd (a : Word) (v : Byte) (s : State) : (hostMemWrite a v s).cmd = s.cmd := rfl
@[simp] theorem hostMemWrite_status (a : Word) (v : Byte) (s : State) : (hostMemWrite a v s).status = s.status := rfl
@[simp] theorem hostMemWrite_errCode (a : Word) (v : Byte) (s : State) : (hostMemWrite a v s).errCode = s.errCode := rfl
@[simp] theorem hostMemWrite_irqEn (a : Word) (v : Byte) (s : State) : (hostMemWrite a v s).irqEn = s.irqEn := rfl
@[simp] theorem hostMemWrite_opr (a : Word) (v : Byte) (s : State) : (hostMemWrite a v s).opr = s.opr := rfl
@[simp] theorem hostMemWrite_outLen (a : Word) (v : Byte) (s : State) : (hostMemWrite a v s).outLen = s.outLen := rfl
@[simp] theorem hostMemWrite_inUsed (a : Word) (v : Byte) (s : State) : (hostMemWrite a v s).inUsed = s.inUsed := rfl
@[simp] theorem hostMemWrite_errAddr (a : Word) (v : Byte) (s : State) : (hostMemWrite a v s).errAddr = s.errAddr := rfl
@[simp] theorem hostMemWrite_palColor (a : Word) (v : Byte) (s : State) : (hostMemWrite a v s).palColor = s.palColor := rfl
@[simp] theorem hostMemWrite_palIndex (a : Word) (v : Byte) (s : State) : (hostMemWrite a v s).palIndex = s.palIndex := rfl
@[simp] theorem hostMemWrite_palette (a : Word) (v : Byte) (s : State) : (hostMemWrite a v s).palette = s.palette := rfl
@[simp] theorem hostMemWrite_phase (a : Word) (v : Byte) (s : State) : (hostMemWrite a v s).phase = s.phase := rfl
@[simp] theorem hostMemWrite_eng (a : Word) (v : Byte) (s : State) : (hostMemWrite a v s).eng = s.eng := rfl
@[simp] theorem hostMemWrite_mem (a : Word) (v : Byte) (s : State) : (hostMemWrite a v s).mem = s.mem.write a.toNat v := rfl
@[simp] theorem hostMemWrite_platform (a : Word) (v : Byte) (s : State) : (hostMemWrite a v s).platform = s.platform := rfl
@[simp] theorem hostMemWrite_host (a : Word) (v : Byte) (s : State) : (hostMemWrite a v s).host = s.host := rfl
@[simp] theorem hostMemWrite_busReply (a : Word) (v : Byte) (s : State) : (hostMemWrite a v s).busReply = .ack := rfl
@[simp] theorem hostMemWrite_unsettled (a : Word) (v : Byte) (s : State) : (hostMemWrite a v s).unsettled = (s.unsettled || inSome (liveWindows s) a.toNat) := rfl
@[simp] theorem hostMemWrite_raced (a : Word) (v : Byte) (s : State) : (hostMemWrite a v s).raced = (s.raced || inSome (liveWindows s) a.toNat) := rfl
@[simp] theorem hostMemWrite_startMem (a : Word) (v : Byte) (s : State) : (hostMemWrite a v s).startMem = s.startMem := rfl
@[simp] theorem hostMemWrite_freeCount (a : Word) (v : Byte) (s : State) : (hostMemWrite a v s).freeCount = s.freeCount := rfl

@[simp] theorem streamResults_cmd (s : State) : (streamResults s).cmd = s.cmd := by
  unfold streamResults; split <;> rfl
@[simp] theorem streamResults_status (s : State) : (streamResults s).status = s.status := by
  unfold streamResults; split <;> rfl
@[simp] theorem streamResults_errCode (s : State) : (streamResults s).errCode = s.errCode := by
  unfold streamResults; split <;> rfl
@[simp] theorem streamResults_irqEn (s : State) : (streamResults s).irqEn = s.irqEn := by
  unfold streamResults; split <;> rfl
@[simp] theorem streamResults_opr (s : State) : (streamResults s).opr = s.opr := by
  unfold streamResults; split <;> rfl
@[simp] theorem streamResults_errAddr (s : State) : (streamResults s).errAddr = s.errAddr := by
  unfold streamResults; split <;> rfl
@[simp] theorem streamResults_palColor (s : State) : (streamResults s).palColor = s.palColor := by
  unfold streamResults; split <;> rfl
@[simp] theorem streamResults_palIndex (s : State) : (streamResults s).palIndex = s.palIndex := by
  unfold streamResults; split <;> rfl
@[simp] theorem streamResults_palette (s : State) : (streamResults s).palette = s.palette := by
  unfold streamResults; split <;> rfl
@[simp] theorem streamResults_phase (s : State) : (streamResults s).phase = s.phase := by
  unfold streamResults; split <;> rfl
@[simp] theorem streamResults_eng (s : State) : (streamResults s).eng = s.eng := by
  unfold streamResults; split <;> rfl
@[simp] theorem streamResults_mem (s : State) : (streamResults s).mem = s.mem := by
  unfold streamResults; split <;> rfl
@[simp] theorem streamResults_platform (s : State) : (streamResults s).platform = s.platform := by
  unfold streamResults; split <;> rfl
@[simp] theorem streamResults_host (s : State) : (streamResults s).host = s.host := by
  unfold streamResults; split <;> rfl
@[simp] theorem streamResults_busReply (s : State) : (streamResults s).busReply = s.busReply := by
  unfold streamResults; split <;> rfl
@[simp] theorem streamResults_raced (s : State) : (streamResults s).raced = s.raced := by
  unfold streamResults; split <;> rfl
@[simp] theorem streamResults_unsettled (s : State) : (streamResults s).unsettled = s.unsettled := by
  unfold streamResults; split <;> rfl
@[simp] theorem streamResults_startMem (s : State) : (streamResults s).startMem = s.startMem := by
  unfold streamResults; split <;> rfl
@[simp] theorem streamResults_freeCount (s : State) : (streamResults s).freeCount = s.freeCount := by
  unfold streamResults; split <;> rfl

end Sys2Proof.Machine
end

