-- ==== Sys2Proof/Laws/Memory.lean ====
section
/-! SUPPORT. The laws of system memory: a read after a write, and every operation keeps the canonical form. -/

namespace Sys2Proof.Machine

@[simp] theorem Memory.read_nil (a : Nat) : Memory.read [] a = Config.blankByte := rfl

theorem Memory.read_cons (k : Nat) (v : Byte) (m : Memory) (a : Nat) :
    Memory.read ((k, v) :: m) a = if k = a then v else Memory.read m a := rfl

/-- What the canonical form says of a non-empty memory, whichever shape its rest has. -/
theorem Memory.wf_cons {k : Nat} {v : Byte} {m : Memory} (h : Memory.wf ((k, v) :: m) = true) :
    k < Config.addrSpace ∧ v ≠ Config.blankByte ∧ Memory.wf m = true ∧ ∀ c ∈ m, k < c.1 := by
  induction m generalizing k v with
  | nil => simp [Memory.wf] at h; simp [Memory.wf, h]
  | cons c rest ih =>
    obtain ⟨k', v'⟩ := c
    simp only [Memory.wf, Bool.and_eq_true, decide_eq_true_eq] at h
    obtain ⟨hb, -, -, hall⟩ := ih h.2
    refine ⟨by omega, h.1.2, h.2, ?_⟩
    intro c hc
    rcases List.mem_cons.mp hc with rfl | hc
    · exact h.1.1
    · have := hall c hc; omega

theorem Memory.wf_of_parts {k : Nat} {v : Byte} {m : Memory} (hk : k < Config.addrSpace)
    (hv : v ≠ Config.blankByte) (hm : Memory.wf m = true) (hall : ∀ c ∈ m, k < c.1) :
    Memory.wf ((k, v) :: m) = true := by
  cases m with
  | nil => simp [Memory.wf, hk, hv]
  | cons c rest =>
    obtain ⟨k', v'⟩ := c
    have := hall (k', v') (by simp)
    simp_all [Memory.wf]

/-- Below every listed address a memory reads blank. -/
theorem Memory.read_below {m : Memory} {a : Nat} (h : ∀ c ∈ m, a < c.1) : m.read a = Config.blankByte := by
  induction m with
  | nil => rfl
  | cons c rest ih =>
    obtain ⟨k, v⟩ := c
    have hk := h (k, v) (by simp)
    simp only at hk
    rw [Memory.read_cons, if_neg (by omega)]
    exact ih fun c hc => h c (by simp [hc])

/-- A write leaves every other address alone, in any memory. -/
theorem Memory.read_write_ne (m : Memory) {a b : Nat} (v : Byte) (h : b ≠ a) : (m.write a v).read b = m.read b := by
  induction m with
  | nil => simp only [Memory.write]; split <;> simp [Memory.read_cons, Ne.symm h]
  | cons c rest ih =>
    obtain ⟨k, w⟩ := c
    simp only [Memory.write]
    split
    · split <;> simp [Memory.read_cons, Ne.symm h]
    · split
      · subst k
        split <;> simp [Memory.read_cons, Ne.symm h]
      · simp only [Memory.read_cons, ih]

/-- A read after a write to the same address gives the value written. -/
theorem Memory.read_write_same {m : Memory} (hm : m.wf = true) (a : Nat) (v : Byte) : (m.write a v).read a = v := by
  induction m with
  | nil => simp only [Memory.write]; split <;> simp_all [Memory.read_cons]
  | cons c rest ih =>
    obtain ⟨k, w⟩ := c
    obtain ⟨-, -, hrest, hall⟩ := Memory.wf_cons hm
    simp only [Memory.write]
    split
    · rename_i hlt
      split
      · rename_i hv
        rw [hv]
        apply Memory.read_below
        intro c hc
        rcases List.mem_cons.mp hc with rfl | hc
        · exact hlt
        · have := hall c hc; omega
      · simp [Memory.read_cons]
    · split
      · rename_i hk
        split
        · rename_i hv
          rw [hv]
          apply Memory.read_below
          intro c hc; have := hall c hc; omega
        · simp [Memory.read_cons]
      · rename_i hk
        rw [Memory.read_cons, if_neg (Ne.symm hk), ih hrest]

theorem Memory.mem_write {m : Memory} {a : Nat} {v : Byte} {c : Host.Cell} (hc : c ∈ m.write a v) :
    c ∈ m ∨ c = (a, v) := by
  induction m with
  | nil => simp only [Memory.write] at hc; split at hc <;> simp_all
  | cons d rest ih =>
    obtain ⟨k, w⟩ := d
    simp only [Memory.write] at hc
    split at hc
    · split at hc <;> simp_all [or_comm, or_left_comm]
    · split at hc
      · split at hc
        · exact .inl (by simp [hc])
        · rcases List.mem_cons.mp hc with h | h <;> simp [h]
      · rcases List.mem_cons.mp hc with rfl | hc
        · simp
        · rcases ih hc with h | h <;> simp [h]

/-- A write keeps the canonical form. -/
theorem Memory.wf_write {m : Memory} (hm : m.wf = true) {a : Nat} (ha : a < Config.addrSpace) (v : Byte) :
    (m.write a v).wf = true := by
  induction m with
  | nil => simp only [Memory.write]; split <;> simp_all [Memory.wf]
  | cons c rest ih =>
    obtain ⟨k, w⟩ := c
    obtain ⟨hk, hw, hrest, hall⟩ := Memory.wf_cons hm
    simp only [Memory.write]
    split
    · rename_i hlt
      split
      · exact hm
      · rename_i hv
        refine Memory.wf_of_parts ha hv hm ?_
        intro c hc
        rcases List.mem_cons.mp hc with rfl | hc
        · exact hlt
        · have := hall c hc; omega
    · split
      · rename_i hak
        split
        · exact hrest
        · rename_i hv
          exact Memory.wf_of_parts ha hv hrest fun c hc => by have := hall c hc; omega
      · rename_i h1 h2
        refine Memory.wf_of_parts hk hw (ih hrest) ?_
        intro c hc
        rcases Memory.mem_write hc with h | rfl
        · exact hall c h
        · simp only; omega

/-- An engine address is below 2^32. -/
theorem word_lt_addrSpace (a : Word) : a.toNat < Config.addrSpace := a.isLt

/-- Overwriting windows keeps the canonical form. -/
theorem Memory.wf_overwrite {m : Memory} (hm : m.wf = true) (len base : Nat) (f : Nat → Byte) :
    (m.overwrite len base f).wf = true := by
  induction len with
  | zero => exact hm
  | succ n ih => exact Memory.wf_write ih (Nat.mod_lt _ (by decide)) _

theorem Memory.wf_overwriteAll {m : Memory} (hm : m.wf = true) (ws : List Window) (f : Nat → Byte) :
    (m.overwriteAll ws f).wf = true := by
  induction ws generalizing m with
  | nil => exact hm
  | cons w rest ih => exact ih (Memory.wf_overwrite hm _ _ _)

/-- Overwriting a window that lies below 2^32 leaves every address outside it alone. -/
theorem Memory.read_overwrite_outside {m : Memory} {len base : Nat} (h : base + len ≤ Config.addrSpace)
    (f : Nat → Byte) {a : Nat} (ha : ¬(base ≤ a ∧ a < base + len)) : (m.overwrite len base f).read a = m.read a := by
  induction len with
  | zero => rfl
  | succ n ih =>
    rw [Memory.overwrite, Memory.read_write_ne, ih (by omega) (by omega)]
    rw [Nat.mod_eq_of_lt (by omega)]
    omega

/-- Overwriting a window gives each address inside it the value `f` has for it. -/
theorem Memory.read_overwrite_inside {m : Memory} (hm : m.wf = true) {len base : Nat}
    (h : base + len ≤ Config.addrSpace) (f : Nat → Byte) {a : Nat} (ha : base ≤ a ∧ a < base + len) :
    (m.overwrite len base f).read a = f a := by
  induction len with
  | zero => omega
  | succ n ih =>
    have hmod : (base + n) % Config.addrSpace = base + n := Nat.mod_eq_of_lt (by omega)
    rw [Memory.overwrite, hmod]
    by_cases hb : a = base + n
    · subst hb
      exact Memory.read_write_same (Memory.wf_overwrite hm _ _ _) _ _
    · rw [Memory.read_write_ne _ _ hb, ih (by omega) (by omega)]

theorem Memory.read_overwriteAll_outside {m : Memory} {ws : List Window} (h : ∀ w ∈ ws, w.inRange = true)
    (f : Nat → Byte) {a : Nat} (ha : inSome ws a = false) : (m.overwriteAll ws f).read a = m.read a := by
  induction ws generalizing m with
  | nil => rfl
  | cons w rest ih =>
    simp only [inSome, List.any_cons, Bool.or_eq_false_iff] at ha
    have hw := h w (by simp)
    simp only [Window.inRange, decide_eq_true_eq] at hw
    have hout : ¬(w.base ≤ a ∧ a < w.base + w.len) := by simpa [Window.contains] using ha.1
    show Memory.read (Memory.overwriteAll rest f (m.overwrite w.len w.base f)) a = _
    rw [ih (fun v hv => h v (by simp [hv])) ha.2, Memory.read_overwrite_outside hw f hout]

end Sys2Proof.Machine
end

