-- ==== Sys2Proof/Laws/Ops.lean ====
section
/-! SUPPORT. What each shared operation can do: the sequencing of effects, the accesses to memory, and the stream primitives
when their input and output are ready. -/

namespace Sys2Proof.Machine

/-! ### Effects -/

@[simp] theorem Eff.ok_andThen {α β : Type} (v : α) (s : State) (f : α → State → Eff β) :
    (Eff.ok v s).andThen f = f v s := rfl

@[simp] theorem Eff.raise_andThen {α β : Type} (e : Error) (a : Word) (s : State) (f : α → State → Eff β) :
    (Eff.raise e a s : Eff α).andThen f = .raise e a s := rfl

@[simp] theorem Eff.ok_state {α : Type} (v : α) (s : State) : (Eff.ok v s).state = s := rfl

@[simp] theorem Eff.raise_state {α : Type} (e : Error) (a : Word) (s : State) :
    (Eff.raise e a s : Eff α).state = s := rfl

@[simp] theorem forEach_nil {α : Type} (f : α → State → Eff Unit) (s : State) : forEach [] f s = .ok () s := rfl

@[simp] theorem forEach_cons {α : Type} (x : α) (xs : List α) (f : α → State → Eff Unit) (s : State) :
    forEach (x :: xs) f s = (f x s).andThen fun _ t => forEach xs f t := rfl

theorem forEach_append {α : Type} (xs ys : List α) (f : α → State → Eff Unit) (s : State) :
    forEach (xs ++ ys) f s = (forEach xs f s).andThen fun _ t => forEach ys f t := by
  induction xs generalizing s with
  | nil => rfl
  | cons x rest ih =>
    simp only [List.cons_append, forEach_cons]
    cases f x s with
    | ok _ t => simpa using ih t
    | raise _ _ _ => rfl

@[simp] theorem endCode_ok (s : State) : endCode (.ok () s) = .next s := rfl

@[simp] theorem endCode_raise (e : Error) (a : Word) (s : State) :
    endCode (.raise e a s) = .next (abort e a s) := rfl

@[simp] theorem endBody_ok (s : State) : endBody (.ok () s) = .next (complete s) := rfl

@[simp] theorem endBody_raise (e : Error) (a : Word) (s : State) :
    endBody (.raise e a s) = .next (abort e a s) := rfl

/-! ### Memory accesses -/

theorem memRead_admitted {a : Word} {s : State} (h : admits s.platform a = true) :
    memRead a s = .ok (s.mem.read a.toNat) s := by simp [memRead, h]

theorem memRead_refused {a : Word} {s : State} (h : admits s.platform a = false) :
    memRead a s = .raise .busError a s := by simp [memRead, h]

theorem memWrite_admitted {a : Word} {v : Byte} {s : State} (h : admits s.platform a = true) :
    memWrite a v s = .ok () { s with mem := s.mem.write a.toNat v } := by simp [memWrite, h]

theorem memWrite_refused {a : Word} {v : Byte} {s : State} (h : admits s.platform a = false) :
    memWrite a v s = .raise .busError a s := by simp [memWrite, h]

/-! ### The end of a command -/

/-- A completion whose results are specified. -/
theorem complete_settled {s : State} (h : s.unsettled = false) :
    complete s = { streamResults s with
      status := setDone s.status, phase := .idle, unsettled := false, startMem := [] } := by
  simp [complete, endCommand, h]

/-- An abort whose results are specified. -/
theorem abort_settled {e : Error} {a : Word} {s : State} (h : s.unsettled = false) :
    abort e a s = { streamResults s with
      errCode := errorCode e, errAddr := a, status := setErr s.status
      phase := .idle, unsettled := false, startMem := [] } := by
  simp [abort, endCommand, h]

/-- A stream command reports its progress. -/
theorem streamResults_stream {s : State} (h : s.phase = .lcwMode ∨ s.phase = .lcwCode ∨ s.phase = .zrle) :
    streamResults s = { s with outLen := s.eng.outLen, inUsed := s.eng.inPos } := by
  rcases h with h | h | h <;> simp [streamResults, h]

/-- Before a stream command's body there is no progress to report. -/
theorem streamResults_accepted {s : State} (h : s.phase = .accepted) : streamResults s = s := by
  simp [streamResults, h]

/-- The abort of a stream command. -/
theorem abort_stream {e : Error} {a : Word} {s : State} (h : s.unsettled = false)
    (hp : s.phase = .lcwMode ∨ s.phase = .lcwCode ∨ s.phase = .zrle) :
    abort e a s = streamFailed (errorCode e) a s := by
  rw [abort_settled h, streamResults_stream hp]
  simp [streamFailed, failed, setErr, h]

/-- The abort of any other command. -/
theorem abort_accepted {e : Error} {a : Word} {s : State} (h : s.unsettled = false) (hp : s.phase = .accepted) :
    abort e a s = failed (errorCode e) a s := by
  rw [abort_settled h, streamResults_accepted hp]
  simp [failed, setErr, h]

/-- The completion of a command that is no stream. -/
theorem complete_accepted {s : State} (h : s.unsettled = false) (hp : s.phase = .accepted) :
    complete s = completed s := by
  rw [complete_settled h, streamResults_accepted hp]
  simp [completed, setDone, h]

/-- The checks of R131 when the command is ready. -/
theorem runBody_ready {i : Instr} {badLen : Bool} {body : State → Outcome} {s : State} (h : Ready i s)
    (hb : badLen = false) : runBody i badLen body s = body s := by
  have hm : markOverlap i s = s := by
    have : s.unsettled = (s.unsettled || windowsOverlap i s.opr) := by rw [h.apart, h.settled]; rfl
    simp [markOverlap, ← this]
  simp [runBody, h.inRange, hb, h.noDevice, hm]

/-! ### Input -/

/-- The cursor moved on by `n`. -/
def advanceBy (n : Nat) (s : State) : State :=
  { s with eng := { s.eng with inPos := s.eng.inPos + BitVec.ofNat 32 n } }

@[simp] theorem advanceBy_zero (s : State) : advanceBy 0 s = s := by simp [advanceBy]

theorem advance_eq (s : State) : advance s = advanceBy 1 s := rfl

theorem advanceBy_add (m n : Nat) (s : State) : advanceBy m (advanceBy n s) = advanceBy (n + m) s := by
  simp [advanceBy, BitVec.ofNat_add, BitVec.add_assoc]

theorem toNat_add_small {a : Word} {n b : Nat} (h : a.toNat + n ≤ b) (hb : b < 2 ^ 32) :
    (a + BitVec.ofNat 32 n).toNat = a.toNat + n := by
  rw [BitVec.toNat_add, BitVec.toNat_ofNat]; omega

theorem InputReady.mono {s : State} {m n : Nat} (h : InputReady s n) (hm : m ≤ n) : InputReady s m :=
  ⟨by have := h.room; omega, fun k hk => h.answers k (by omega)⟩

/-- What is left of a ready input after `m` bytes. -/
theorem InputReady.advanceBy {s : State} {m n : Nat} (h : InputReady s (m + n)) : InputReady (advanceBy m s) n := by
  have hlt := s.opr.srcLen.isLt
  have hr := h.room
  have he : (s.eng.inPos + BitVec.ofNat 32 m).toNat = s.eng.inPos.toNat + m :=
    toNat_add_small (b := s.opr.srcLen.toNat) (by omega) hlt
  refine ⟨?_, fun k hk => ?_⟩
  · show (s.eng.inPos + BitVec.ofNat 32 m).toNat + n ≤ s.opr.srcLen.toNat
    omega
  · have := h.answers (m + k) (by omega)
    simpa [inAddr, Machine.advanceBy, BitVec.ofNat_add, BitVec.add_assoc] using this

theorem InputReady.markStart {s : State} {n : Nat} (h : InputReady s n) : InputReady (markStart s) n :=
  ⟨h.room, h.answers⟩

theorem InputReady.cursor_lt {s : State} {n : Nat} (h : InputReady s (n + 1)) : s.eng.inPos < s.opr.srcLen := by
  have := h.room; rw [BitVec.lt_def]; omega

theorem InputReady.cursor_admitted {s : State} {n : Nat} (h : InputReady s (n + 1)) :
    admits s.platform (inAddr s) = true := by simpa using h.answers 0 (by omega)

theorem takeByte_ready {s : State} {n : Nat} (h : InputReady s (n + 1)) :
    takeByte s = .ok (s.mem.read (inAddr s).toNat) (advanceBy 1 s) := by
  simp [takeByte, memRead_admitted h.cursor_admitted, advance_eq]

theorem inByte_ready {s : State} {n : Nat} (h : InputReady s (n + 1)) :
    inByte s = .ok (s.mem.read (inAddr s).toNat) (advanceBy 1 s) := by
  have hlt := h.cursor_lt
  rw [inByte, if_neg (by rw [BitVec.not_le]; exact hlt), takeByte_ready h]

theorem countByte_ready {s : State} {n : Nat} (h : InputReady s (n + 1)) :
    countByte s = .ok (s.mem.read (inAddr s).toNat) (advanceBy 1 s) := by
  have hlt := h.cursor_lt
  rw [countByte, if_neg (by rw [BitVec.not_le]; exact hlt), takeByte_ready h]

theorem inBytes_ready {s : State} {n : Nat} (h : InputReady s n) : inBytes n s = .ok () (advanceBy n s) := by
  induction n generalizing s with
  | zero => simp [inBytes]
  | succ n ih =>
    rw [inBytes, inByte_ready h, Eff.ok_andThen, ih (InputReady.advanceBy (by rwa [Nat.add_comm])), advanceBy_add,
      Nat.add_comm]

/-- An LCW command whose first byte is ready. -/
theorem lcwCode_ready {s : State} {n : Nat} (rest : State → Eff Unit) (h : InputReady s (n + 1)) :
    lcwCode rest s = rest (advanceBy 1 (markStart s)) := by
  rw [lcwCode, inByte_ready h.markStart, Eff.ok_andThen]

/-- A zero-run code whose first byte is ready. -/
theorem zrleCode_ready {s : State} {n : Nat} (rest : State → Eff Unit) (h : InputReady s (n + 1)) :
    zrleCode rest s = rest (advanceBy 1 (markStart s)) := by
  rw [zrleCode, takeByte_ready h.markStart, Eff.ok_andThen]

/-! ### Output -/

/-- One byte appended. -/
def appendByte (v : Byte) (s : State) : State :=
  grow { s with mem := s.mem.write (outAddr s s.eng.outLen.toNat).toNat v }

/-- Bytes appended in order. -/
def appendBytes : List Byte → State → State
  | [], s => s
  | v :: rest, s => appendBytes rest (appendByte v s)

theorem outByte_ready {s : State} {n : Nat} (v : Byte) (h : OutputReady s (n + 1)) :
    outByte v s = .ok () (appendByte v s) := by
  have hr := h.room
  have ha := h.answers 0 (by omega)
  rw [outByte, if_neg (by rw [BitVec.le_def]; omega), memWrite_admitted (by simpa using ha), Eff.ok_andThen]
  rfl

theorem OutputReady.appendByte {s : State} {n : Nat} {v : Byte} (h : OutputReady s (n + 1)) :
    OutputReady (appendByte v s) n := by
  have hr := h.room
  have hlt := s.opr.dstCap.isLt
  have he : (s.eng.outLen + 1#32).toNat = s.eng.outLen.toNat + 1 :=
    toNat_add_small (b := s.opr.dstCap.toNat) (by omega) hlt
  refine ⟨Memory.wf_write h.canonical (word_lt_addrSpace _) v, ?_, fun k hk => ?_⟩
  · show (s.eng.outLen + 1#32).toNat + n ≤ s.opr.dstCap.toNat
    omega
  · have := h.answers (1 + k) (by omega)
    show admits s.platform (outAddr s ((s.eng.outLen + 1#32).toNat + k)) = true
    rw [he]
    simpa [Nat.add_assoc] using this

theorem OutputReady.advanceBy {s : State} {m n : Nat} (h : OutputReady s n) : OutputReady (advanceBy m s) n :=
  ⟨h.canonical, h.room, h.answers⟩

theorem OutputReady.markStart {s : State} {n : Nat} (h : OutputReady s n) : OutputReady (markStart s) n :=
  ⟨h.canonical, h.room, h.answers⟩

/-- Appending ready bytes. -/
theorem forEach_outByte_ready {s : State} (bytes : List Byte) {m : Nat} (h : OutputReady s (bytes.length + m)) :
    forEach bytes outByte s = .ok () (appendBytes bytes s) ∧ OutputReady (appendBytes bytes s) m := by
  induction bytes generalizing s with
  | nil => exact ⟨rfl, by simpa [appendBytes] using h⟩
  | cons v rest ih =>
    have h' : OutputReady s ((rest.length + m) + 1) := by simpa [Nat.add_right_comm] using h
    rw [forEach_cons, outByte_ready v h', Eff.ok_andThen]
    exact ih h'.appendByte

theorem outRepeat_ready {s : State} (n : Nat) (v : Byte) {m : Nat} (h : OutputReady s (n + m)) :
    outRepeat n v s = .ok () (appendBytes (List.replicate n v) s) ∧
      OutputReady (appendBytes (List.replicate n v) s) m := by
  rw [outRepeat]
  exact forEach_outByte_ready _ (by simpa using h)

end Sys2Proof.Machine
end

