-- ==== Sys2Proof/Laws/Palette.lean ====
section
/-! SUPPORT. The palette: the search finds exactly the valid entries (10_state.md R49), and a push keeps the entries different
and within the capacity. -/

namespace Sys2Proof.Machine

/-- The search hits only at an entry of the colour. -/
theorem findColor_some {p : List Color} {c : Color} {i : Nat} (h : findColor p c = some i) : p[i]? = some c := by
  induction p generalizing i with
  | nil => simp [findColor] at h
  | cons d rest ih =>
    simp only [findColor] at h
    split at h
    · rename_i hd; cases h; simp [hd]
    · cases hf : findColor rest c with
      | none => simp [hf] at h
      | some j =>
        simp only [hf, Option.map_some, Option.some.injEq] at h
        subst h
        simpa using ih hf

/-- The search misses exactly the colours that are no entry. -/
theorem findColor_none {p : List Color} {c : Color} : findColor p c = none ↔ c ∉ p := by
  induction p with
  | nil => simp [findColor]
  | cons d rest ih =>
    simp only [findColor]
    split
    · rename_i hd; simp [hd]
    · rename_i hd
      simp [ih, Ne.symm hd]

/-- In a palette of different entries the search finds the one index of an entry. -/
theorem findColor_of_getElem? {p : List Color} {c : Color} {i : Nat} (hp : p.Nodup) (h : p[i]? = some c) :
    findColor p c = some i := by
  cases hf : findColor p c with
  | none => exact absurd (List.mem_of_getElem? h) (findColor_none.mp hf)
  | some j =>
    have hj := findColor_some hf
    have hjl := (List.getElem?_eq_some_iff.mp hj).1
    rw [← h] at hj
    rw [(List.getElem?_inj hjl hp).mp hj]

/-- What a push does: it finds the colour, or appends it, or there is no room. -/
theorem pushColor_cases (p : List Color) (c : Color) :
    (∃ i, p[i]? = some c ∧ pushColor p c = some (p, i, true)) ∨
    (c ∉ p ∧ p.length < Config.palCap ∧ pushColor p c = some (p ++ [c], p.length, false)) ∨
    (c ∉ p ∧ Config.palCap ≤ p.length ∧ pushColor p c = none) := by
  cases hf : findColor p c with
  | some i => exact .inl ⟨i, findColor_some hf, by simp [pushColor, hf]⟩
  | none =>
    have hc := findColor_none.mp hf
    by_cases hl : Config.palCap ≤ p.length
    · exact .inr (.inr ⟨hc, hl, by simp [pushColor, hf, hl]⟩)
    · exact .inr (.inl ⟨hc, by omega, by simp [pushColor, hf, hl]⟩)

/-- A push keeps the entries different and within the capacity, and leaves the colour among them. -/
theorem pushColor_some {p q : List Color} {c : Color} {i : Nat} {found : Bool}
    (h : pushColor p c = some (q, i, found)) :
    (p.Nodup → q.Nodup) ∧ (p.length ≤ Config.palCap → q.length ≤ Config.palCap) ∧ q[i]? = some c ∧
      (∃ more, q = p ++ more) := by
  rcases pushColor_cases p c with ⟨j, hj, he⟩ | ⟨hc, hl, he⟩ | ⟨-, -, he⟩ <;> rw [he] at h
  · cases h
    exact ⟨id, id, hj, [], by simp⟩
  · cases h
    refine ⟨fun hp => ?_, fun _ => by simp only [List.length_append, List.length_singleton]; omega, by simp, [c], rfl⟩
    rw [List.nodup_append]
    exact ⟨hp, by simp, fun a ha b hb => by simp at hb; subst hb; rintro rfl; exact hc ha⟩
  · cases h

/-- An unspecified palette is one of different entries within the capacity. -/
theorem pushAll_sound (cs : List Color) : (pushAll cs).Nodup ∧ (pushAll cs).length ≤ Config.palCap := by
  suffices h : ∀ p : List Color, p.Nodup → p.length ≤ Config.palCap →
      (cs.foldl (fun p c => match pushColor p c with | some (q, _, _) => q | none => p) p).Nodup ∧
      (cs.foldl (fun p c => match pushColor p c with | some (q, _, _) => q | none => p) p).length ≤ Config.palCap from
    h [] (by simp) (by simp)
  induction cs with
  | nil => exact fun p hp hl => ⟨hp, hl⟩
  | cons c rest ih =>
    intro p hp hl
    rw [List.foldl_cons]
    cases hq : pushColor p c with
    | none => exact ih p hp hl
    | some r =>
      obtain ⟨q, i, found⟩ := r
      have := pushColor_some hq
      exact ih q (this.1 hp) (this.2.1 hl)

/-- What a push command's body does to the state. -/
theorem push_cases (c : Color) (a : Word) (s : State) :
    (∃ p i found, pushColor s.palette c = some (p, i, found) ∧
      push c a s = .ok () { s with palette := p, palIndex := BitVec.ofNat 16 i, status := setFound found s.status }) ∨
    (pushColor s.palette c = none ∧ push c a s = .raise .palFull a s) := by
  unfold push
  cases h : pushColor s.palette c with
  | none => exact .inr ⟨rfl, rfl⟩
  | some r => obtain ⟨p, i, found⟩ := r; exact .inl ⟨p, i, found, rfl, rfl⟩

end Sys2Proof.Machine
end

