-- ==== Sys2Proof/Laws/Output.lean ====
section
/-! SUPPORT. What appending bytes does to memory, the effect of a stream code on its output, and the copy loop's closed form
(41_lcw.md R159). -/

namespace Sys2Proof.Machine

/-- Output byte addresses differ for different output bytes. -/
theorem outAddr_inj {s : State} {i j : Nat} (hi : i < 2 ^ 32) (hj : j < 2 ^ 32)
    (h : (outAddr s i).toNat = (outAddr s j).toNat) : i = j := by
  have h' : s.opr.dstAddr + BitVec.ofNat 32 i = s.opr.dstAddr + BitVec.ofNat 32 j := BitVec.eq_of_toNat_eq h
  have := congrArg (fun v => v - s.opr.dstAddr) h'
  simp only [BitVec.add_sub_cancel, BitVec.add_comm s.opr.dstAddr] at this
  have := congrArg BitVec.toNat this
  simp only [BitVec.toNat_ofNat] at this
  omega

theorem outLen_add_toNat {s : State} {n : Nat} (h : s.eng.outLen.toNat + n ≤ s.opr.dstCap.toNat) :
    (s.eng.outLen + BitVec.ofNat 32 n).toNat = s.eng.outLen.toNat + n :=
  toNat_add_small h s.opr.dstCap.isLt

/-- Appending bytes changes memory and `out_len` only. -/
theorem appendBytes_frame (bytes : List Byte) (s : State) :
    appendBytes bytes s = { s with
      mem := (appendBytes bytes s).mem
      eng := { s.eng with outLen := s.eng.outLen + BitVec.ofNat 32 bytes.length } } := by
  induction bytes generalizing s with
  | nil => simp [appendBytes]
  | cons v rest ih =>
    rw [appendBytes, ih]
    have : s.eng.outLen + 1#32 + BitVec.ofNat 32 rest.length = s.eng.outLen + BitVec.ofNat 32 (rest.length + 1) := by
      rw [Nat.add_comm, BitVec.ofNat_add, ← BitVec.add_assoc]
    simp [appendByte, grow, this]

theorem appendBytes_wf {bytes : List Byte} {s : State} (h : s.mem.wf = true) :
    (appendBytes bytes s).mem.wf = true := by
  induction bytes generalizing s with
  | nil => exact h
  | cons v rest ih => exact ih (s := appendByte v s) (Memory.wf_write h (word_lt_addrSpace _) v)

/-- What memory holds after ready bytes are appended. -/
theorem appendBytes_read {bytes : List Byte} {s : State} {m : Nat} (h : OutputReady s (bytes.length + m)) :
    (∀ j (hj : j < bytes.length),
      (appendBytes bytes s).mem.read (outAddr s (s.eng.outLen.toNat + j)).toNat = bytes[j]) ∧
    (∀ a, (∀ j, j < bytes.length → a ≠ (outAddr s (s.eng.outLen.toNat + j)).toNat) →
      (appendBytes bytes s).mem.read a = s.mem.read a) := by
  induction bytes generalizing s with
  | nil => exact ⟨fun j hj => absurd hj (by simp), fun a _ => rfl⟩
  | cons v rest ih =>
    have h' : OutputReady s ((rest.length + m) + 1) := by simpa [Nat.add_right_comm] using h
    have hcap := s.opr.dstCap.isLt
    have hroom := h'.room
    have hlen : (appendByte v s).eng.outLen.toNat = s.eng.outLen.toNat + 1 :=
      outLen_add_toNat (s := s) (n := 1) (by omega)
    have haddr : ∀ k, outAddr (appendByte v s) k = outAddr s k := fun k => rfl
    obtain ⟨hin, hout⟩ := ih (s := appendByte v s) (h'.appendByte)
    simp only [hlen, haddr] at hin hout
    refine ⟨fun j hj => ?_, fun a ha => ?_⟩
    · cases j with
      | zero =>
        rw [appendBytes, hout _ (fun j hj he => ?_)]
        · exact Memory.read_write_same h.canonical _ _
        · have := outAddr_inj (by simp only [List.length_cons] at *; omega) (by simp only [List.length_cons] at *; omega) he
          omega
      | succ j =>
        have := hin j (by simpa using hj)
        rw [appendBytes]
        simpa [Nat.add_assoc, Nat.add_comm 1 j] using this
    · rw [appendBytes, hout a (fun j hj => ?_)]
      · exact Memory.read_write_ne _ _ (by simpa using ha 0 (by simp))
      · have := ha (j + 1) (by simpa using hj)
        rwa [← Nat.add_assoc, Nat.add_right_comm] at this

/-- A code that reads `used` bytes and then appends ready bytes has the effect of `CodeEffect`. -/
theorem codeEffect_of_append {s : State} {used m : Nat} {bytes : List Byte} (h : OutputReady s (bytes.length + m)) :
    CodeEffect s (appendBytes bytes (advanceBy used (markStart s))) used bytes := by
  have hr := appendBytes_read (bytes := bytes) (m := m) (s := advanceBy used (markStart s)) h.markStart.advanceBy
  refine ⟨?_, hr.1, hr.2⟩
  rw [appendBytes_frame]
  rfl

/-! ### The copy loop -/

/-- `OutRead` of a byte of the history. -/
theorem outRead_ready {s : State} {i : Nat} (h : HistoryReady s) (hi : i < s.eng.outLen.toNat) :
    outRead (i : Int) s = .ok (outputByte s i) s := by
  rw [outRead, if_neg (by omega), Int.toNat_natCast, memRead_admitted (h i hi)]
  rfl

/-- `OutRead` outside the history. -/
theorem outRead_outside {s : State} {i : Int} (h : i < 0 ∨ (s.eng.outLen.toNat : Int) ≤ i) :
    outRead i s = .raise .lcwBounds s.eng.cmdStart s := by
  rw [outRead, if_pos h]
  rfl

theorem HistoryReady.appendByte {s : State} {n : Nat} {v : Byte} (h : HistoryReady s) (ho : OutputReady s (n + 1)) :
    HistoryReady (appendByte v s) := by
  intro k hk
  have hroom := ho.room
  have hlen : (Machine.appendByte v s).eng.outLen.toNat = s.eng.outLen.toNat + 1 :=
    outLen_add_toNat (s := s) (n := 1) (by omega)
  rw [hlen] at hk
  show admits s.platform (outAddr s k) = true
  by_cases he : k = s.eng.outLen.toNat
  · subst he; simpa using ho.answers 0 (by omega)
  · exact h k (by omega)

/-- The output after one more byte: the new one at the end, the others as before. -/
theorem outputByte_appendByte {s : State} {n : Nat} {v : Byte} (ho : OutputReady s (n + 1)) {k : Nat}
    (hk : k ≤ s.eng.outLen.toNat) :
    outputByte (appendByte v s) k = if k = s.eng.outLen.toNat then v else outputByte s k := by
  have hroom := ho.room
  have hcap := s.opr.dstCap.isLt
  show Memory.read (s.mem.write (outAddr s s.eng.outLen.toNat).toNat v) (outAddr s k).toNat = _
  split
  · rename_i he; rw [he]; exact Memory.read_write_same ho.canonical _ _
  · rename_i he
    rw [Memory.read_write_ne]
    · rfl
    · intro heq; exact he (outAddr_inj (by omega) (by omega) heq)

/-- The bytes a copy appends, one by one: the byte at the read position, then those of the rest of the copy from the next
position, over the output grown by that byte. -/
def copyBytes (s : State) : Nat → Nat → List Byte
  | 0, _ => []
  | n + 1, i => outputByte s i :: copyBytes (appendByte (outputByte s i) s) n (i + 1)

theorem copyBytes_length (s : State) (n i : Nat) : (copyBytes s n i).length = n := by
  induction n generalizing s i with
  | zero => rfl
  | succ n ih => simp [copyBytes, ih]

/-- A copy that starts inside the history appends its bytes and raises nothing. -/
theorem copyLoop_ready {s : State} (n : Nat) {i m : Nat} (hh : HistoryReady s) (ho : OutputReady s (n + m))
    (hi : i < s.eng.outLen.toNat) : copyLoop n (i : Int) s = .ok () (appendBytes (copyBytes s n i) s) := by
  induction n generalizing s i with
  | zero => rfl
  | succ n ih =>
    have ho' : OutputReady s ((n + m) + 1) := by rwa [Nat.add_right_comm] at ho
    have hroom := ho'.room
    have hlen : (appendByte (outputByte s i) s).eng.outLen.toNat = s.eng.outLen.toNat + 1 :=
      outLen_add_toNat (s := s) (n := 1) (by omega)
    rw [copyLoop, outRead_ready hh hi, Eff.ok_andThen, outByte_ready _ ho', Eff.ok_andThen]
    have := ih (s := appendByte (outputByte s i) s) (i := i + 1) (hh.appendByte ho') ho'.appendByte (by omega)
    simpa [copyBytes, appendBytes] using this

/-- R159, the closed form: byte `j` of a copy that starts at `i` with `len` bytes of history is output byte
`i + (j mod (len - i))`. -/
theorem copyBytes_closed {s : State} (n : Nat) {i m : Nat} (ho : OutputReady s (n + m)) (hi : i < s.eng.outLen.toNat) :
    ∀ j (hj : j < (copyBytes s n i).length),
      (copyBytes s n i)[j] = outputByte s (i + j % (s.eng.outLen.toNat - i)) := by
  induction n generalizing s i with
  | zero => intro j hj; simp [copyBytes] at hj
  | succ n ih =>
    intro j hj
    have ho' : OutputReady s ((n + m) + 1) := by rwa [Nat.add_right_comm] at ho
    have hroom := ho'.room
    have hlen : (appendByte (outputByte s i) s).eng.outLen.toNat = s.eng.outLen.toNat + 1 :=
      outLen_add_toNat (s := s) (n := 1) (by omega)
    have hd : 0 < s.eng.outLen.toNat - i := by omega
    cases j with
    | zero => simp [copyBytes]
    | succ j =>
      have hj' : j < (copyBytes (appendByte (outputByte s i) s) n (i + 1)).length := by
        simpa [copyBytes] using hj
      have hrec := ih (s := appendByte (outputByte s i) s) (i := i + 1) ho'.appendByte (by omega) j hj'
      simp only [copyBytes, List.getElem_cons_succ]
      rw [hrec, hlen]
      have hsub : s.eng.outLen.toNat + 1 - (i + 1) = s.eng.outLen.toNat - i := by omega
      rw [hsub]
      generalize s.eng.outLen.toNat - i = d at hd hsub ⊢
      have hjd : j % d < d := Nat.mod_lt _ hd
      rw [outputByte_appendByte ho' (by omega)]
      by_cases hc : j % d + 1 = d
      · have h0 : (j + 1) % d = 0 := by
          rw [← Nat.mod_add_mod, hc, Nat.mod_self]
        rw [if_pos (by omega), h0, Nat.add_zero]
      · have h1 : (j + 1) % d = j % d + 1 := by
          rw [Nat.add_mod, Nat.mod_eq_of_lt (a := 1) (by omega), Nat.mod_eq_of_lt (by omega)]
        rw [if_neg (by omega), h1]
        congr 1
        omega

/-- The bytes of a ready copy are those of the closed form. -/
theorem copyBytes_eq_copied {s : State} (n : Nat) {i m : Nat} (ho : OutputReady s (n + m))
    (hi : i < s.eng.outLen.toNat) : copyBytes s n i = copied (outputByte s) s.eng.outLen.toNat i n := by
  apply List.ext_getElem
  · simp [copyBytes_length, copied]
  · intro j h1 h2
    rw [copyBytes_closed n ho hi j h1]
    simp [copied]

end Sys2Proof.Machine
end

