-- ==== Sys2Proof/Laws/Stream.lean ====
section
/-! SUPPORT. What a stream code can do, said once: it changes memory and the engine's stream state only, keeps memory's
canonical form and the stream's bounds, moves the cursor forward, and writes inside the output window only. -/

namespace Sys2Proof.Machine

/-- The state `t` that some steps of a stream code lead to from `s`. -/
structure StreamStep (s t : State) : Prop where
  frame : t = { s with mem := t.mem, eng := t.eng }
  mode : t.eng.mode = s.eng.mode
  wf : s.mem.wf = true → t.mem.wf = true
  bounds : StreamBounds s → StreamBounds t
  forward : StreamBounds s → s.eng.inPos ≤ t.eng.inPos
  kept : StreamBounds s → ∀ a, (outputWindow s.opr).contains a = false → t.mem.read a = s.mem.read a

theorem StreamStep.refl (s : State) : StreamStep s s :=
  ⟨rfl, rfl, id, id, fun _ => BitVec.le_refl _, fun _ _ _ => rfl⟩

theorem StreamStep.opr {s t : State} (h : StreamStep s t) : t.opr = s.opr := by rw [h.frame]

theorem StreamStep.trans {s t u : State} (h : StreamStep s t) (k : StreamStep t u) : StreamStep s u := by
  refine ⟨?_, k.mode.trans h.mode, fun w => k.wf (h.wf w), fun b => k.bounds (h.bounds b), fun b => ?_, fun b a ha => ?_⟩
  · rw [k.frame, h.frame]
  · exact BitVec.le_trans (h.forward b) (k.forward (h.bounds b))
  · rw [k.kept (h.bounds b) a (by rw [h.opr]; exact ha), h.kept b a ha]

theorem StreamStep.andThen {α β : Type} {s : State} {x : Eff α} {f : α → State → Eff β} (h : StreamStep s x.state)
    (k : ∀ v t, x = .ok v t → StreamStep t (f v t).state) : StreamStep s (x.andThen f).state := by
  cases x with
  | ok v t => exact h.trans (k v t rfl)
  | raise e a t => exact h

theorem StreamStep.markStart (s : State) : StreamStep s (markStart s) :=
  ⟨rfl, rfl, id, fun b => ⟨b.inPos, b.outLen, b.input, b.output⟩, fun _ => BitVec.le_refl _,
    fun _ _ _ => rfl⟩

theorem advance_inPos_toNat {s : State} (h : s.eng.inPos < s.opr.srcLen) :
    (advance s).eng.inPos.toNat = s.eng.inPos.toNat + 1 := by
  rw [BitVec.lt_def] at h
  exact toNat_add_small (b := s.opr.srcLen.toNat) (by omega) s.opr.srcLen.isLt

theorem StreamStep.advance {s : State} (h : s.eng.inPos < s.opr.srcLen) : StreamStep s (advance s) := by
  have he := advance_inPos_toNat h
  rw [BitVec.lt_def] at h
  refine ⟨rfl, rfl, id, fun b => ⟨?_, b.outLen, b.input, b.output⟩, fun _ => ?_, fun _ _ _ => rfl⟩
  · rw [BitVec.le_def, he]; exact h
  · rw [BitVec.le_def, he]; omega

theorem memRead_state (a : Word) (s : State) : (memRead a s).state = s := by
  unfold memRead; split <;> rfl

theorem memRead_ok {a : Word} {s t : State} {v : Byte} (h : memRead a s = .ok v t) : t = s := by
  have := memRead_state a s
  rw [h] at this
  exact this

theorem StreamStep.takeByte {s : State} (h : s.eng.inPos < s.opr.srcLen) : StreamStep s (takeByte s).state := by
  unfold Machine.takeByte
  refine StreamStep.andThen (by rw [memRead_state]; exact .refl s) fun v t ht => ?_
  rw [memRead_ok ht]
  exact .advance h

theorem StreamStep.inByte (s : State) : StreamStep s (inByte s).state := by
  unfold Machine.inByte
  split
  · exact .refl s
  · rename_i h
    exact .takeByte (by rwa [BitVec.not_le] at h)

theorem StreamStep.countByte (s : State) : StreamStep s (countByte s).state := by
  unfold Machine.countByte
  split
  · exact .refl s
  · rename_i h
    exact .takeByte (by rwa [BitVec.not_le] at h)

theorem StreamStep.inBytes (n : Nat) (s : State) : StreamStep s (inBytes n s).state := by
  induction n generalizing s with
  | zero => exact .refl s
  | succ n ih => exact .andThen (.inByte s) fun _ t _ => ih t

/-- The address of an output byte inside the window does not wrap. -/
theorem outAddr_toNat {s : State} (b : StreamBounds s) {i : Nat} (h : i < s.opr.dstCap.toNat) :
    (outAddr s i).toNat = s.opr.dstAddr.toNat + i := by
  have := b.output
  have := s.opr.dstCap.isLt
  simp only [Config.addrSpace] at *
  exact toNat_add_small (b := 4294967295) (by omega) (by omega)

theorem StreamStep.outByte (v : Byte) (s : State) : StreamStep s (outByte v s).state := by
  unfold Machine.outByte
  split
  · exact .refl s
  · rename_i h
    rw [BitVec.not_le, BitVec.lt_def] at h
    cases ha : admits s.platform (outAddr s s.eng.outLen.toNat) with
    | false => rw [memWrite_refused ha]; exact .refl s
    | true =>
      rw [memWrite_admitted ha]
      have he : (s.eng.outLen + 1#32).toNat = s.eng.outLen.toNat + 1 := outLen_add_toNat (n := 1) (by omega)
      refine ⟨rfl, rfl, fun w => Memory.wf_write w (word_lt_addrSpace _) v,
        fun b => ⟨b.inPos, ?_, b.input, b.output⟩, fun _ => BitVec.le_refl _, fun b a hout => ?_⟩
      · rw [BitVec.le_def]
        show (s.eng.outLen + 1#32).toNat ≤ s.opr.dstCap.toNat
        omega
      · refine Memory.read_write_ne _ _ ?_
        rw [outAddr_toNat b h]
        rintro rfl
        simp [outputWindow, Window.contains] at hout
        omega

theorem outRead_state (i : Int) (s : State) : (outRead i s).state = s := by
  unfold outRead; split
  · rfl
  · exact memRead_state _ _

theorem outRead_ok {i : Int} {s t : State} {v : Byte} (h : outRead i s = .ok v t) : t = s := by
  have := outRead_state i s
  rw [h] at this
  exact this

theorem StreamStep.forEach {α : Type} {f : α → State → Eff Unit} (h : ∀ x s, StreamStep s (f x s).state)
    (xs : List α) (s : State) : StreamStep s (forEach xs f s).state := by
  induction xs generalizing s with
  | nil => exact .refl s
  | cons x rest ih => exact .andThen (h x s) fun _ t _ => ih t

theorem StreamStep.outRepeat (n : Nat) (v : Byte) (s : State) : StreamStep s (outRepeat n v s).state :=
  .forEach (fun x s => .outByte x s) _ s

theorem StreamStep.copyLoop (n : Nat) (i : Int) (s : State) : StreamStep s (copyLoop n i s).state := by
  induction n generalizing i s with
  | zero => exact .refl s
  | succ n ih =>
    refine .andThen (by rw [outRead_state]; exact .refl s) fun v t ht => ?_
    rw [outRead_ok ht]
    exact .andThen (.outByte v s) fun _ u _ => ih _ u

theorem StreamStep.srefBody (n : Nat) (p : BitVec 12) (s : State) : StreamStep s (srefBody n p s).state := by
  unfold Machine.srefBody
  split
  · split
    · exact .refl s
    · refine .andThen (by rw [outRead_state]; exact .refl s) fun v t ht => ?_
      rw [outRead_ok ht]
      exact .outRepeat n v s
  · exact .copyLoop _ _ s

/-- An LCW command: its first byte is read, and the rest goes on from there. -/
theorem StreamStep.lcwCode {rest : State → Eff Unit} (h : ∀ s, StreamStep s (rest s).state) (s : State) :
    StreamStep s (lcwCode rest s).state :=
  .andThen (.trans (.markStart s) (.inByte _)) fun _ t _ => h t

/-- An LCW command that goes on has moved the cursor. -/
theorem lcwCode_progress {rest : State → Eff Unit} (h : ∀ s, StreamStep s (rest s).state) {s t : State}
    (b : StreamBounds s) (hok : lcwCode rest s = .ok () t) : s.eng.inPos < t.eng.inPos := by
  have hm : StreamBounds (markStart s) := (StreamStep.markStart s).bounds b
  unfold lcwCode inByte at hok
  split at hok
  · cases hok
  · rename_i hlt
    rw [BitVec.not_le] at hlt
    unfold takeByte at hok
    cases ha : admits (markStart s).platform (inAddr (markStart s)) with
    | false => rw [memRead_refused ha] at hok; cases hok
    | true =>
      rw [memRead_admitted ha, Eff.ok_andThen, Eff.ok_andThen] at hok
      have hs := h (advance (markStart s))
      rw [hok] at hs
      have hf := hs.forward ((StreamStep.advance hlt).bounds hm)
      have he := advance_inPos_toNat hlt
      rw [BitVec.le_def, he] at hf
      rw [BitVec.lt_def]
      have : (markStart s).eng.inPos = s.eng.inPos := rfl
      rw [this] at hf
      simp only [Eff.ok_state] at hf
      omega

/-- A zero-run code, at a cursor inside the input. -/
theorem StreamStep.zrleCode {rest : State → Eff Unit} (h : ∀ s, StreamStep s (rest s).state) {s : State}
    (hlt : s.eng.inPos < s.opr.srcLen) : StreamStep s (zrleCode rest s).state :=
  .andThen (.trans (.markStart s) (.takeByte hlt)) fun _ t _ => h t

theorem zrleCode_progress {rest : State → Eff Unit} (h : ∀ s, StreamStep s (rest s).state) {s t : State}
    (b : StreamBounds s) (hlt : s.eng.inPos < s.opr.srcLen) (hok : zrleCode rest s = .ok () t) :
    s.eng.inPos < t.eng.inPos := by
  have hm : StreamBounds (markStart s) := (StreamStep.markStart s).bounds b
  have hlt' : (markStart s).eng.inPos < (markStart s).opr.srcLen := hlt
  unfold zrleCode takeByte at hok
  cases ha : admits (markStart s).platform (inAddr (markStart s)) with
  | false => rw [memRead_refused ha] at hok; cases hok
  | true =>
    rw [memRead_admitted ha, Eff.ok_andThen, Eff.ok_andThen] at hok
    have hs := h (advance (markStart s))
    rw [hok] at hs
    have hf := hs.forward ((StreamStep.advance hlt').bounds hm)
    have he := advance_inPos_toNat hlt'
    rw [BitVec.le_def, he] at hf
    rw [BitVec.lt_def]
    have : (markStart s).eng.inPos = s.eng.inPos := rfl
    rw [this] at hf
    simp only [Eff.ok_state] at hf
    omega

/-- The effect of a stream code other than END, as its `exec` hands it to `endCode`. -/
def codeBody : Instr → State → Option (Eff Unit)
  | .modeRel, _ => none
  | .endMark, _ => none
  | .lit bytes, s => some (lcwCode (Machine.forEach bytes fun b s => (inByte s).andThen fun _ s => outByte b s) s)
  | .sref c p, s => some (lcwCode (fun s => (inBytes 1 s).andThen fun _ s => srefBody (srefCount c) p s) s)
  | .run n v, s => some (lcwCode (fun s => (inBytes 3 s).andThen fun _ s => outRepeat n.toNat v s) s)
  | .lref n p, s => some (lcwCode (fun s => (inBytes 4 s).andThen fun _ s => copy n.toNat p s) s)
  | .mref c p, s => some (lcwCode (fun s => (inBytes 2 s).andThen fun _ s => copy (mrefCount c) p s) s)
  | .zrun n, s => some (zrleCode (fun s => (countByte s).andThen fun _ s => outRepeat n.toNat 0x00#8 s) s)
  | .zlit v, s => some (zrleCode (outByte v) s)
  | .lcwDecode, _ => none
  | .zrleExpand, _ => none
  | .blit, _ => none
  | .fill, _ => none
  | .palClear, _ => none
  | .palPush, _ => none
  | .palLoad6, _ => none
  | .palFind, _ => none
  | .palRead, _ => none

theorem exec_codeBody {i : Instr} {s : State} {x : Eff Unit} (h : codeBody i s = some x) : exec i s = endCode x := by
  cases i <;> simp only [codeBody, Option.some.injEq, reduceCtorEq] at h <;> subst h <;> rfl

/-- What a stream code other than END does, from a cursor inside the input: a `StreamStep`, and progress when it goes on. -/
theorem codeBody_step {i : Instr} {s : State} {x : Eff Unit} (h : codeBody i s = some x)
    (hlt : s.eng.inPos < s.opr.srcLen) :
    StreamStep s x.state ∧ ∀ t, StreamBounds s → x = .ok () t → s.eng.inPos < t.eng.inPos := by
  have lcw : ∀ rest : State → Eff Unit, (∀ s, StreamStep s (rest s).state) → x = lcwCode rest s →
      StreamStep s x.state ∧ ∀ t, StreamBounds s → x = .ok () t → s.eng.inPos < t.eng.inPos := by
    rintro rest hr rfl
    exact ⟨.lcwCode hr s, fun t b => lcwCode_progress hr b⟩
  have zrle : ∀ rest : State → Eff Unit, (∀ s, StreamStep s (rest s).state) → x = zrleCode rest s →
      StreamStep s x.state ∧ ∀ t, StreamBounds s → x = .ok () t → s.eng.inPos < t.eng.inPos := by
    rintro rest hr rfl
    exact ⟨.zrleCode hr hlt, fun t b => zrleCode_progress hr b hlt⟩
  cases i with
  | lit bytes =>
    exact lcw _ (.forEach (fun b s => .andThen (.inByte s) fun _ t _ => .outByte b t) bytes)
      (Option.some.inj h).symm
  | sref c p =>
    exact lcw _ (fun s => .andThen (.inBytes 1 s) fun _ t _ => .srefBody _ p t) (Option.some.inj h).symm
  | run n v => exact lcw _ (fun s => .andThen (.inBytes 3 s) fun _ t _ => .outRepeat _ v t) (Option.some.inj h).symm
  | lref n p => exact lcw _ (fun s => .andThen (.inBytes 4 s) fun _ t _ => .copyLoop _ _ t) (Option.some.inj h).symm
  | mref c p => exact lcw _ (fun s => .andThen (.inBytes 2 s) fun _ t _ => .copyLoop _ _ t) (Option.some.inj h).symm
  | zrun n => exact zrle _ (fun s => .andThen (.countByte s) fun _ t _ => .outRepeat _ _ t) (Option.some.inj h).symm
  | zlit v => exact zrle _ (fun s => .outByte v s) (Option.some.inj h).symm
  | modeRel => simp [codeBody] at h
  | endMark => simp [codeBody] at h
  | lcwDecode => simp [codeBody] at h
  | zrleExpand => simp [codeBody] at h
  | blit => simp [codeBody] at h
  | fill => simp [codeBody] at h
  | palClear => simp [codeBody] at h
  | palPush => simp [codeBody] at h
  | palLoad6 => simp [codeBody] at h
  | palFind => simp [codeBody] at h
  | palRead => simp [codeBody] at h

end Sys2Proof.Machine
end

