-- ==== Sys2Proof/Laws/Commands.lean ====
section
/-! SUPPORT. What a host command and the end of a command can do, said once: the end of a command (`EndStep`), the body of a
host command (`BodyStep`), and the ways in which a host command's `exec` gives a next state. -/

namespace Sys2Proof.Machine

/-! ### The palette of a state -/

/-- The palette is one that `Inv` allows. -/
abbrev PaletteOk (p : List Color) : Prop := p.Nodup ∧ p.length ≤ Config.palCap

theorem freePalette_ok (s : State) : PaletteOk (freePalette s) := pushAll_sound _

theorem pushColor_ok {p q : List Color} {c : Color} {i : Nat} {found : Bool}
    (h : pushColor p c = some (q, i, found)) (hp : PaletteOk p) : PaletteOk q :=
  ⟨(pushColor_some h).1 hp.1, (pushColor_some h).2.1 hp.2⟩

/-! ### Live windows -/

/-- The live written windows are inside the address space (R75). -/
theorem liveWritten_inRange {s : State} {w : Window} (h : w ∈ liveWritten s) : w.inRange = true := by
  unfold liveWritten at h
  split at h
  · split at h
    · rename_i i _ hr
      simp only [windowsInRange, List.all_eq_true] at hr
      exact hr w (by simp [windows, h])
    · simp at h
  · simp at h

theorem liveWritten_congr {s t : State} (hp : t.phase = s.phase) (hc : t.cmd = s.cmd) (ho : t.opr = s.opr) :
    liveWritten t = liveWritten s := by
  have hr : running t = running s := by unfold running; rw [hp, hc]
  unfold liveWritten
  rw [hr, ho]

/-- The written windows of a host command that has started. -/
theorem liveWritten_accepted {s : State} {i : Instr} (hp : s.phase = .accepted) (hc : decodeCmd s.cmd = some i) :
    liveWritten s = if windowsInRange i s.opr then writtenWindows i s.opr else [] := by
  simp [liveWritten, running, hp, hc]

/-- The written window of a running stream command. -/
theorem liveWritten_stream {s : State} (b : StreamBounds s)
    (hp : s.phase = .lcwMode ∨ s.phase = .lcwCode ∨ s.phase = .zrle) : liveWritten s = [outputWindow s.opr] := by
  have hi : (inputWindow s.opr).inRange = true := decide_eq_true b.input
  have ho : (outputWindow s.opr).inRange = true := decide_eq_true b.output
  rcases hp with hp | hp | hp <;>
    simp [liveWritten, running, hp, windowsInRange, windows, readWindows, writtenWindows, hi, ho]

/-! ### The end of a command -/

/-- What the end of a command can do to the state before it. -/
structure EndStep (s t : State) : Prop where
  phase : t.phase = .idle
  settled : t.unsettled = false
  startMem : t.startMem = []
  opr : t.opr = s.opr
  irqEn : t.irqEn = s.irqEn
  cmd : t.cmd = s.cmd
  platform : t.platform = s.platform
  host : t.host = s.host
  busReply : t.busReply = s.busReply
  palColor : t.palColor = s.palColor
  eng : t.eng = s.eng
  wf : s.mem.wf = true → t.mem.wf = true
  kept : ∀ a, inSome (liveWritten s) a = false → t.mem.read a = s.mem.read a
  flags : s.status.done = false → s.status.err = false → t.status.done ≠ t.status.err
  errCode : t.errCode.toNat ≤ 0x0A ∨ t.errCode = s.errCode
  palette : PaletteOk s.palette → PaletteOk t.palette
  specified : s.unsettled = false →
    t.mem = s.mem ∧ t.palette = s.palette ∧ t.palIndex = s.palIndex ∧ t.status.found = s.status.found

/-- What unspecified results may change: the two progress registers, the palette and its two results. -/
structure ResultsStep (t u : State) : Prop where
  frame : u = { t with
    outLen := u.outLen, inUsed := u.inUsed, palette := u.palette, palIndex := u.palIndex, status := u.status }
  palette : PaletteOk t.palette → PaletteOk u.palette

theorem scrambleResults_step (i : Instr) (s t : State) : ResultsStep t (scrambleResults i s t) := by
  cases i <;> first | exact ⟨rfl, id⟩ | exact ⟨rfl, fun _ => freePalette_ok s⟩

theorem scrambleRaced_step (s t : State) : ResultsStep t (scrambleRaced s t) := by
  unfold scrambleRaced
  split
  · exact ⟨rfl, fun _ => freePalette_ok s⟩
  · exact ⟨rfl, id⟩

theorem ResultsStep.trans {t u v : State} (h : ResultsStep t u) (g : ResultsStep u v) : ResultsStep t v :=
  ⟨by rw [g.frame, h.frame], g.palette ∘ h.palette⟩

theorem freeResults_step (s t : State) : ResultsStep t (freeResults s t) := by
  unfold freeResults
  split
  · exact (scrambleResults_step _ s t).trans (scrambleRaced_step s _)
  · exact scrambleRaced_step s t

/-- After a host write to a live window, every register and store that R89 lists is a free value, whatever the command. -/
theorem scramble_raced {s t : State} (h : s.raced = true) :
    (scramble s t).outLen = freeExtra s 4 ∧ (scramble s t).inUsed = freeExtra s 5 ∧
      (scramble s t).errAddr = freeExtra s 2 ∧ (scramble s t).palette = freePalette s ∧
      (scramble s t).errCode = BitVec.ofNat 8 ((freeExtra s 1).toNat % 11) ∧
      (scramble s t).mem = t.mem.overwriteAll (liveWritten s) (freeByte s) := by
  simp [scramble, freeResults, scrambleRaced, h]

/-- The frame of `streamResults`: it reports progress and does nothing else. -/
theorem streamResults_frame (s : State) : streamResults s = { s with
    outLen := (streamResults s).outLen, inUsed := (streamResults s).inUsed } := by
  unfold streamResults; split <;> rfl

/-- What the end of a command does, whatever results `v` it writes. -/
theorem endCommand_step {s v : State} (hv : v = { s with
      outLen := v.outLen, inUsed := v.inUsed, errCode := v.errCode, errAddr := v.errAddr, status := v.status })
    (hf : s.status.done = false → s.status.err = false → v.status.done ≠ v.status.err)
    (he : v.errCode.toNat ≤ 0x0A ∨ v.errCode = s.errCode) (hfound : v.status.found = s.status.found) :
    EndStep s (endCommand s v) := by
  cases hu : s.unsettled with
  | false =>
    have e : endCommand s v = { v with phase := .idle, unsettled := false, startMem := [] } := by
      simp [endCommand, hu]
    rw [e, hv]
    exact ⟨rfl, rfl, rfl, rfl, rfl, rfl, rfl, rfl, rfl, rfl, rfl, id, fun _ _ => rfl, hf, he, id,
      fun _ => ⟨rfl, rfl, rfl, hfound⟩⟩
  | true =>
    have e : endCommand s v = scramble s { v with phase := .idle, unsettled := false, startMem := [] } := by
      simp [endCommand, hu]
    rw [e, hv]
    have hcode : (BitVec.ofNat 8 ((freeExtra s 1).toNat % 11)).toNat ≤ 0x0A := by
      rw [BitVec.toNat_ofNat]; omega
    obtain ⟨hr, hp⟩ := freeResults_step s { { s with
      outLen := v.outLen, inUsed := v.inUsed, errCode := v.errCode, errAddr := v.errAddr, status := v.status } with
      phase := .idle, unsettled := false, startMem := [] }
    unfold scramble
    rw [hr]
    refine ⟨rfl, rfl, rfl, rfl, rfl, rfl, rfl, rfl, rfl, rfl, rfl, fun w => Memory.wf_overwriteAll w _ _,
      fun a ha => Memory.read_overwriteAll_outside (fun w hw => liveWritten_inRange hw) _ ha, fun _ _ => ?_,
      .inl hcode, hp, fun h => by rw [hu] at h; cases h⟩
    simp

theorem errorCode_le (e : Error) : (errorCode e).toNat ≤ 0x0A := by cases e <;> decide

theorem complete_step (s : State) : EndStep s (complete s) := by
  refine endCommand_step (by rw [streamResults_frame]) (fun _ he => ?_) (.inr (by rw [streamResults_frame])) rfl
  simp [setDone, he]

theorem abort_step (e : Error) (a : Word) (s : State) : EndStep s (abort e a s) := by
  refine endCommand_step (by rw [streamResults_frame]) (fun hd _ => ?_) (.inl (errorCode_le e)) rfl
  simp [setErr, hd]

/-! ### Loops over effects -/

/-- A property of states that each round of a loop keeps holds at its end. -/
theorem forEach_inv {α : Type} {f : α → State → Eff Unit} {P : State → Prop} (h : ∀ x s, P s → P (f x s).state)
    (xs : List α) {s : State} (hs : P s) : P (forEach xs f s).state := by
  induction xs generalizing s with
  | nil => exact hs
  | cons x rest ih =>
    rw [forEach_cons]
    have hx := h x s hs
    cases he : f x s with
    | ok _ t => rw [he] at hx; exact ih hx
    | raise _ _ t => rw [he] at hx; exact hx

/-- The same for a list whose members have a property. -/
theorem forEach_inv_mem {α : Type} {f : α → State → Eff Unit} {P : State → Prop} (xs : List α)
    (h : ∀ x ∈ xs, ∀ s, P s → P (f x s).state) {s : State} (hs : P s) : P (forEach xs f s).state := by
  induction xs generalizing s with
  | nil => exact hs
  | cons x rest ih =>
    rw [forEach_cons]
    have hx := h x (by simp) s hs
    cases he : f x s with
    | ok _ t => rw [he] at hx; exact ih (fun y hy => h y (by simp [hy])) hx
    | raise _ _ t => rw [he] at hx; exact hx

/-! ### The blitter's addresses -/

theorem clip_bounds (rc : Rect) (w h : Nat) : 0 ≤ (rc.clip w h).left ∧ (rc.clip w h).left + (rc.clip w h).width ≤ w ∧
    0 ≤ (rc.clip w h).top ∧ (rc.clip w h).top + (rc.clip w h).height ≤ h := by
  unfold Rect.clip Rect.intersect
  dsimp only
  split
  · rename_i r hr
    split at hr
    · cases hr
      simp only [Rect.right, Rect.bottom] at *
      omega
    · cases hr
  · simp [Rect.empty]

theorem mem_offsets {w h : Nat} {ij : Nat × Nat} : ij ∈ offsets w h ↔ ij.1 < w ∧ ij.2 < h := by
  obtain ⟨i, j⟩ := ij
  simp only [offsets, List.mem_flatMap, List.mem_map, List.mem_range, Prod.mk.injEq]
  constructor
  · rintro ⟨j', hj, i', hi, rfl, rfl⟩; exact ⟨hi, hj⟩
  · rintro ⟨hi, hj⟩; exact ⟨j, hj, i, hi, rfl, rfl⟩

theorem pixel_lt {x y W H : Nat} (hx : x < W) (hy : y < H) : y * W + x < W * H := by
  have h : (y + 1) * W ≤ H * W := Nat.mul_le_mul_right _ hy
  rw [Nat.succ_mul, Nat.mul_comm H] at h
  omega

/-- `PixAddr` of a point of a bitmap that passes the check of R75 does not wrap and lies in the bitmap. -/
theorem pixAddr_toNat {base : Word} {W H : Nat} (hr : base.toNat + W * H ≤ Config.addrSpace) {x y : Int}
    (hx0 : 0 ≤ x) (hx : x < W) (hy0 : 0 ≤ y) (hy : y < H) :
    (pixAddr base W x y).toNat = base.toNat + y.toNat * W + x.toNat ∧ y.toNat * W + x.toNat < W * H := by
  have h := pixel_lt (x := x.toNat) (y := y.toNat) (W := W) (H := H) (by omega) (by omega)
  refine ⟨?_, h⟩
  rw [pixAddr, BitVec.toNat_ofNat, Nat.mod_eq_of_lt]
  simp only [Config.addrSpace] at hr
  omega

/-- A destination pixel lies in the destination bitmap. -/
theorem destPixel_mem {o : Operands} (hr : (destBitmap o).inRange = true) {ij : Nat × Nat}
    (h : ij ∈ offsets (clippedDest o).width (clippedDest o).height) :
    (destBitmap o).contains (destPixel o ij).toNat = true := by
  obtain ⟨h1, h2⟩ := mem_offsets.mp h
  obtain ⟨a, b, c, d⟩ := clip_bounds (destRect o) (dimW o.bdDim) (dimH o.bdDim)
  change 0 ≤ (clippedDest o).left at a
  change (clippedDest o).left + (clippedDest o).width ≤ _ at b
  change 0 ≤ (clippedDest o).top at c
  change (clippedDest o).top + (clippedDest o).height ≤ _ at d
  have hr' : o.bdAddr.toNat + dimW o.bdDim * dimH o.bdDim ≤ Config.addrSpace := of_decide_eq_true hr
  obtain ⟨e, l⟩ := pixAddr_toNat hr' (x := (clippedDest o).left + (ij.1 : Int))
    (y := (clippedDest o).top + (ij.2 : Int)) (by omega) (by omega) (by omega) (by omega)
  simp only [destPixel, Window.contains, destBitmap, Bool.and_eq_true, decide_eq_true_eq, e]
  omega

/-! ### The body of a host command -/

/-- What the body of the host command `i` can do, from the state in which it begins. -/
structure BodyStep (i : Instr) (s t : State) : Prop where
  frame : t = { s with
    status := { s.status with found := t.status.found }
    inUsed := t.inUsed, palColor := t.palColor, palIndex := t.palIndex, palette := t.palette, mem := t.mem }
  wf : s.mem.wf = true → t.mem.wf = true
  kept : windowsInRange i s.opr = true → ∀ a, inSome (writtenWindows i s.opr) a = false → t.mem.read a = s.mem.read a
  palette : PaletteOk s.palette → PaletteOk t.palette
  palColor : i ≠ .palRead → t.palColor = s.palColor
  index : i ∉ [.palPush, .palLoad6, .palFind] → t.palIndex = s.palIndex ∧ t.status.found = s.status.found
  entries : i ∉ [.palClear, .palPush, .palLoad6] → t.palette = s.palette
  memory : i ≠ .blit → i ≠ .fill → t.mem = s.mem

theorem BodyStep.refl (i : Instr) (s : State) : BodyStep i s s :=
  ⟨rfl, id, fun _ _ _ => rfl, id, fun _ => rfl, fun _ => ⟨rfl, rfl⟩, fun _ => rfl, fun _ _ => rfl⟩

/-- A body that writes inside the command's windows only. -/
theorem BodyStep.of_mem {i : Instr} {s t : State} {m : Memory} (h : BodyStep i s t) (hi : i = .blit ∨ i = .fill)
    (hw : t.mem.wf = true → m.wf = true)
    (hk : windowsInRange i s.opr = true → ∀ a, inSome (writtenWindows i s.opr) a = false → m.read a = t.mem.read a) :
    BodyStep i s { t with mem := m } := by
  refine ⟨?_, fun w => hw (h.wf w), fun hr a ha => (hk hr a ha).trans (h.kept hr a ha), h.palette, h.palColor, h.index,
    h.entries, fun h1 h2 => ?_⟩
  · rw [h.frame]
  · rcases hi with rfl | rfl <;> simp at h1 h2

theorem BodyStep.opr {i : Instr} {s t : State} (h : BodyStep i s t) : t.opr = s.opr := by rw [h.frame]

/-- A write to a pixel of the clipped destination rect. -/
theorem BodyStep.write {i : Instr} {s t : State} (h : BodyStep i s t) (hi : i = .blit ∨ i = .fill) {ij : Nat × Nat}
    (hij : ij ∈ offsets (clippedDest s.opr).width (clippedDest s.opr).height) (v : Byte) :
    BodyStep i s (memWrite (destPixel s.opr ij) v t).state := by
  unfold memWrite
  split
  · refine h.of_mem hi (fun w => Memory.wf_write w (word_lt_addrSpace _) v) (fun hr a ha => ?_)
    refine Memory.read_write_ne _ _ ?_
    rintro rfl
    have hd : (destBitmap s.opr).inRange = true ∧ inSome [destBitmap s.opr] (destPixel s.opr ij).toNat = false := by
      rcases hi with rfl | rfl <;>
        simp_all [windowsInRange, windows, readWindows, writtenWindows]
    have := destPixel_mem hd.1 hij
    simp [inSome, this] at hd
  · exact h

theorem fillBody_step (s : State) : BodyStep .fill s (fillBody s).state := by
  unfold fillBody
  exact forEach_inv_mem _ (fun ij hij t ht => ht.write (.inr rfl) hij _) (.refl _ s)

theorem blitBody_step (s : State) : BodyStep .blit s (blitBody s).state := by
  unfold blitBody
  split
  · exact .refl _ s
  · refine forEach_inv_mem _ (fun ij hij t ht => ?_) (.refl _ s)
    unfold blitPixel
    cases hr : memRead (blitFrom s.opr ij) t with
    | ok v u =>
      rw [Eff.ok_andThen, memRead_ok hr]
      exact ht.write (.inl rfl) hij v
    | raise e a u =>
      have := memRead_state (blitFrom s.opr ij) t
      rw [hr] at this
      rw [Eff.raise_andThen, Eff.raise_state, show u = t from this]
      exact ht

/-- A push, by one of the two commands that push. -/
theorem BodyStep.push {i : Instr} {s t : State} (h : BodyStep i s t) (hi : i = .palPush ∨ i = .palLoad6) (c : Color)
    (a : Word) : BodyStep i s (push c a t).state := by
  rcases push_cases c a t with ⟨p, k, found, hp, he⟩ | ⟨-, he⟩ <;> rw [he]
  · have hm : i ∈ [.palPush, .palLoad6, .palFind] ∧ i ∈ [.palClear, .palPush, .palLoad6] ∧ i ≠ .palRead := by
      rcases hi with rfl | rfl <;> simp
    refine ⟨?_, h.wf, h.kept, fun ok => pushColor_ok hp (h.palette ok), h.palColor, fun hn => absurd hm.1 hn,
      fun hn => absurd hm.2.1 hn, h.memory⟩
    rw [Eff.ok_state, h.frame]
    rfl
  · exact h

/-- `IN_USED` of PAL_LOAD6. -/
theorem BodyStep.inUsed {i : Instr} {s t : State} (h : BodyStep i s t) (n : Word) : BodyStep i s { t with inUsed := n } := by
  refine ⟨?_, h.wf, h.kept, h.palette, h.palColor, h.index, h.entries, h.memory⟩
  rw [h.frame]

/-- A body's steps do not depend on the `IN_USED` it begins with. -/
theorem BodyStep.after_inUsed {i : Instr} {s t : State} {n : Word} (h : BodyStep i { s with inUsed := n } t) :
    BodyStep i s t :=
  ⟨by rw [h.frame], h.wf, h.kept, h.palette, h.palColor, h.index, h.entries, h.memory⟩

theorem loadEntry_step {s t : State} (h : BodyStep .palLoad6 s t) (e : Nat) :
    BodyStep .palLoad6 s (loadEntry e t).state := by
  have read : ∀ (a : Word) (t : State) (f : Byte → State → Eff Unit), BodyStep .palLoad6 s t →
      (∀ v, BodyStep .palLoad6 s (f v t).state) → BodyStep .palLoad6 s ((memRead a t).andThen f).state := by
    intro a t f ht hf
    unfold memRead
    split
    · exact hf _
    · exact ht
  unfold loadEntry
  refine read _ _ _ h fun r => read _ _ _ h fun g => read _ _ _ h fun b => ?_
  have hp := h.push (.inr rfl) { r := expand6 r, g := expand6 g, b := expand6 b } (BitVec.ofNat 32 (3 * e))
  cases hx : Machine.push { r := expand6 r, g := expand6 g, b := expand6 b } (BitVec.ofNat 32 (3 * e)) t with
  | ok _ u => rw [hx] at hp; exact hp.inUsed _
  | raise _ _ u => rw [hx] at hp; exact hp

/-! ### A host command -/

/-- The state in which a body begins differs in the model's own `unsettled` only. -/
theorem markOverlap_frame (i : Instr) (s : State) :
    markOverlap i s = { s with unsettled := s.unsettled || windowsOverlap i s.opr } := rfl

/-- The ways in which the host command `i` gives a next state: a start check fails, or its stream begins, or its body ends in
completion or in an error. -/
inductive CommandStep (i : Instr) (s : State) : State → Prop where
  | check (e : Error) (n : Word) : CommandStep i s (abort e 0#32 { s with inUsed := n })
  | begin (t : State) (inRange : windowsInRange i s.opr = true)
      (which : (i = .lcwDecode ∧ t.phase = .lcwMode) ∨ (i = .zrleExpand ∧ t.phase = .zrle))
      (start : t.eng.inPos = 0#32 ∧ t.eng.outLen = 0#32 ∧ (i = .lcwDecode → t.eng.cmdStart = 0#32))
      (frame : t = { markOverlap i s with phase := t.phase, eng := t.eng }) : CommandStep i s t
  | done (u : State) (inRange : windowsInRange i s.opr = true) (body : BodyStep i (markOverlap i s) u) :
      CommandStep i s (complete u)
  | error (u : State) (inRange : windowsInRange i s.opr = true) (body : BodyStep i (markOverlap i s) u) (e : Error)
      (a : Word) : CommandStep i s (abort e a u)

theorem runBody_cases {i : Instr} {badLen : Bool} {body : State → Outcome} {s t : State}
    (h : runBody i badLen body s = .next t) :
    (∃ e, t = abort e 0#32 s) ∨ (windowsInRange i s.opr = true ∧ body (markOverlap i s) = .next t) := by
  unfold runBody at h
  split at h
  · cases h; exact .inl ⟨_, rfl⟩
  · rename_i hr
    split at h
    · cases h; exact .inl ⟨_, rfl⟩
    · split at h
      · cases h
      · exact .inr ⟨by simpa using hr, h⟩

/-- The state in which the checks fail or the body begins may have another `IN_USED`, as PAL_LOAD6's has. -/
theorem CommandStep.of_body {i : Instr} {badLen : Bool} {body : State → Eff Unit} {s t : State}
    (n : Word) (hb : ∀ u, BodyStep i u (body u).state)
    (h : runBody i badLen (fun u => endBody (body u)) { s with inUsed := n } = .next t) : CommandStep i s t := by
  rcases runBody_cases h with ⟨e, rfl⟩ | ⟨hr, h⟩
  · exact .check e n
  · have hx := (hb (markOverlap i { s with inUsed := n })).after_inUsed (s := markOverlap i s)
    cases he : body (markOverlap i { s with inUsed := n }) with
    | ok _ u => rw [he] at h hx; cases h; exact CommandStep.done (s := s) u hr hx
    | raise e a u => rw [he] at h hx; cases h; exact CommandStep.error (s := s) u hr hx e a

/-- What a host command can do when it gives a next state. -/
theorem exec_command {i : Instr} {s t : State} (hi : i.codeSet = .cmd) (h : exec i s = .next t) : CommandStep i s t := by
  cases i with
  | lcwDecode =>
    rw [exec, execLcwDecode] at h
    rcases runBody_cases h with ⟨e, rfl⟩ | ⟨hr, h⟩
    · exact .check e s.inUsed
    · cases h; exact .begin _ hr (.inl ⟨rfl, rfl⟩) ⟨rfl, rfl, fun _ => rfl⟩ rfl
  | zrleExpand =>
    rw [exec, execZrleExpand] at h
    rcases runBody_cases h with ⟨e, rfl⟩ | ⟨hr, h⟩
    · exact .check e s.inUsed
    · cases h; exact .begin _ hr (.inr ⟨rfl, rfl⟩) ⟨rfl, rfl, fun h => by simp at h⟩ rfl
  | blit => rw [exec, execBlit] at h; exact .of_body s.inUsed blitBody_step h
  | fill => rw [exec, execFill] at h; exact .of_body s.inUsed fillBody_step h
  | palClear =>
    rw [exec, execPalClear] at h
    exact .of_body (body := fun u => .ok () { u with palette := [] }) s.inUsed (fun u => ⟨rfl, id, fun _ _ _ => rfl, fun _ => ⟨List.nodup_nil, Nat.zero_le _⟩, fun _ => rfl,
      fun _ => ⟨rfl, rfl⟩, fun hn => by simp at hn, fun _ _ => rfl⟩) h
  | palPush =>
    rw [exec, execPalPush] at h
    exact .of_body (body := fun u => push u.palColor 0#32 u) s.inUsed (fun u => (BodyStep.refl _ u).push (.inl rfl) _ _) h
  | palLoad6 =>
    rw [exec, execPalLoad6] at h
    exact .of_body (body := fun u => forEach (List.range (u.opr.srcLen.toNat / 3)) loadEntry u) 0#32
      (fun u => forEach_inv (P := BodyStep .palLoad6 u) (fun e t ht => loadEntry_step ht e) _ (.refl _ u)) h
  | palFind =>
    rw [exec, execPalFind] at h
    refine .of_body (body := fun u => match findColor u.palette u.palColor with
       | some i => .ok () { u with palIndex := BitVec.ofNat 16 i, status := setFound true u.status }
       | none => .ok () { u with status := setFound false u.status }) s.inUsed (fun u => ?_) h
    split <;> exact ⟨rfl, id, fun _ _ _ => rfl, id, fun _ => rfl, fun hn => by simp at hn, fun _ => rfl, fun _ _ => rfl⟩
  | palRead =>
    rw [exec, execPalRead] at h
    refine .of_body (body := fun u => match u.palette[u.palIndex.toNat]? with
       | some c => .ok () { u with palColor := c }
       | none => .raise .palRange 0#32 u) s.inUsed (fun u => ?_) h
    split
    · exact ⟨rfl, id, fun _ _ _ => rfl, id, fun hn => by simp at hn, fun _ => ⟨rfl, rfl⟩, fun _ => rfl, fun _ _ => rfl⟩
    · exact .refl _ u
  | modeRel => simp [Instr.codeSet] at hi
  | endMark => simp [Instr.codeSet] at hi
  | lit bytes => simp [Instr.codeSet] at hi
  | sref c p => simp [Instr.codeSet] at hi
  | run n v => simp [Instr.codeSet] at hi
  | lref n p => simp [Instr.codeSet] at hi
  | mref c p => simp [Instr.codeSet] at hi
  | zrun n => simp [Instr.codeSet] at hi
  | zlit v => simp [Instr.codeSet] at hi

end Sys2Proof.Machine
end

