-- ==== Sys2Proof/Laws/Engine.lean ====
section
/-! SUPPORT. What a step of the engine can do, said once (`EngineMove`), for the proofs of the whole-machine statements. -/

namespace Sys2Proof.Machine

/-- The step when the host has nothing to do is the engine's. -/
theorem step_engine {s : State} (h : s.host = []) : step s = engineStep s := by simp [step, turn, h]

/-- The step when the host's next action is due is that action. -/
theorem step_host {s : State} {act : HostAction} {later : List HostEvent} (h : s.host = ⟨0, act⟩ :: later) :
    step s = .next (hostAct act { s with host := later }) := by simp [step, turn, h]

/-- The step when the host's next action waits is the engine's, and the action waits for one step less. -/
theorem step_waiting {s : State} {n : Nat} {act : HostAction} {later : List HostEvent}
    (h : s.host = ⟨n + 1, act⟩ :: later) : step s = engineStep { s with host := ⟨n, act⟩ :: later } := by
  simp [step, turn, h]

/-- A host command is decoded from its `CMD` word only. -/
theorem decodeCmd_codeSet {w : Word} {i : Instr} (h : decodeCmd w = some i) : i.codeSet = .cmd := by
  unfold decodeCmd at h
  split at h
  · unfold cmdOfOp at h
    repeat (split at h; · cases h; rfl)
    cases h
  · cases h

/-- The decoder of a code set gives instructions of that code set only. -/
theorem decode_codeSet {cs : CodeSet} {bytes : List Byte} {i : Instr} {rest : List Byte}
    (h : decode cs bytes = .code i rest) : i.codeSet = cs := by
  cases cs with
  | lcwMode =>
    cases bytes with
    | nil => cases h
    | cons b r => simp only [decode, decodeMode] at h; split at h <;> cases h; rfl
  | lcw =>
    cases bytes with
    | nil => cases h
    | cons b r =>
      simp only [decode, decodeLcw] at h
      split at h
      · cases h; rfl
      · split at h
        · unfold decodeLit at h; split at h <;> cases h; rfl
        · split at h
          · unfold decodeSref at h; split at h <;> cases h; rfl
          · split at h
            · unfold decodeRun at h; split at h <;> cases h; rfl
            · split at h
              · unfold decodeLref at h; split at h <;> cases h; rfl
              · unfold decodeMref at h; split at h <;> cases h; rfl
  | zrle =>
    cases bytes with
    | nil => cases h
    | cons b r =>
      simp only [decode, decodeZrle] at h
      split at h
      · split at h <;> cases h; rfl
      · cases h; rfl
  | cmd =>
    simp only [decode, decodeCmdBytes] at h
    split at h
    · split at h
      · rename_i hd; cases h; exact decodeCmd_codeSet hd
      · cases h
    · cases h
    · cases h

/-- The ways in which a stream code or the engine's own move in a stream gives a next state. -/
inductive StreamMove (s : State) : State → Prop where
  /-- The command ends in an error. -/
  | stop (u : State) (stream : StreamStep s u) (e : Error) (a : Word) : StreamMove s (abort e a u)
  /-- The command completes. -/
  | finish (u : State) (stream : StreamStep s u) : StreamMove s (complete u)
  /-- The mode byte has been seen. -/
  | mode (u : State) (stream : StreamStep s u) (m : LcwMode) (phase : s.phase = .lcwMode) :
      StreamMove s { u with phase := .lcwCode, eng := { u.eng with mode := m } }
  /-- A code is done, and the cursor has moved. -/
  | code (u : State) (stream : StreamStep s u) (phase : s.phase ≠ .lcwMode)
      (progress : StreamBounds s → s.eng.inPos < u.eng.inPos) : StreamMove s u

/-- The end of a stream code other than END and the mode byte. -/
theorem codeBody_move {i : Instr} {s t : State} {x : Eff Unit} (h : codeBody i s = some x)
    (hlt : s.eng.inPos < s.opr.srcLen) (hp : s.phase ≠ .lcwMode) (he : exec i s = .next t) : StreamMove s t := by
  rw [exec_codeBody h] at he
  obtain ⟨hs, hprog⟩ := codeBody_step h hlt
  cases x with
  | ok v u =>
    rw [endCode_ok] at he
    cases he
    exact .code t hs hp fun b => hprog t b rfl
  | raise e a u => cases he; exact .stop u hs e a

/-- What an LCW command or a zero-run code can do from a cursor inside the input. -/
theorem exec_stream {i : Instr} {s t : State} (hi : i.codeSet = .lcw ∨ i.codeSet = .zrle)
    (hlt : s.eng.inPos < s.opr.srcLen) (hp : s.phase ≠ .lcwMode) (he : exec i s = .next t) : StreamMove s t := by
  cases i with
  | endMark =>
    rw [exec, execEndMark] at he
    have hs := StreamStep.lcwCode (rest := fun s => .ok () s) StreamStep.refl s
    cases hx : lcwCode (fun s => .ok () s) s with
    | ok v u => rw [hx] at he hs; cases he; exact .finish u hs
    | raise e a u => rw [hx] at he hs; cases he; exact .stop u hs e a
  | lit bytes => exact codeBody_move rfl hlt hp he
  | sref c p => exact codeBody_move rfl hlt hp he
  | run n v => exact codeBody_move rfl hlt hp he
  | lref n p => exact codeBody_move rfl hlt hp he
  | mref c p => exact codeBody_move rfl hlt hp he
  | zrun n => exact codeBody_move rfl hlt hp he
  | zlit v => exact codeBody_move rfl hlt hp he
  | modeRel => simp [Instr.codeSet] at hi
  | lcwDecode => simp [Instr.codeSet] at hi
  | zrleExpand => simp [Instr.codeSet] at hi
  | blit => simp [Instr.codeSet] at hi
  | fill => simp [Instr.codeSet] at hi
  | palClear => simp [Instr.codeSet] at hi
  | palPush => simp [Instr.codeSet] at hi
  | palLoad6 => simp [Instr.codeSet] at hi
  | palFind => simp [Instr.codeSet] at hi
  | palRead => simp [Instr.codeSet] at hi

/-- What the relative mode byte can do. -/
theorem exec_modeRel {s t : State} (hp : s.phase = .lcwMode) (he : exec .modeRel s = .next t) : StreamMove s t := by
  rw [exec, execModeRel] at he
  have hs := StreamStep.inByte s
  cases hx : inByte s with
  | ok v u => rw [hx] at he hs; cases he; exact .mode u hs .rel hp
  | raise e a u => rw [hx] at he hs; cases he; exact .stop u hs e a

/-- Only the mode byte's decoder answers that the byte selects absolute mode. -/
theorem decode_absolute {cs : CodeSet} {bytes : List Byte} (h : decode cs bytes = .reject .absoluteMode) :
    cs = .lcwMode := by
  cases cs with
  | lcwMode => rfl
  | lcw =>
    cases bytes with
    | nil => cases h
    | cons b r =>
      simp only [decode, decodeLcw] at h
      split at h
      · cases h
      · split at h
        · unfold decodeLit at h; split at h <;> cases h
        · split at h
          · unfold decodeSref at h; split at h <;> cases h
          · split at h
            · unfold decodeRun at h; split at h <;> cases h
            · split at h
              · unfold decodeLref at h; split at h <;> cases h
              · unfold decodeMref at h; split at h <;> cases h
  | zrle =>
    cases bytes with
    | nil => cases h
    | cons b r =>
      simp only [decode, decodeZrle] at h
      split at h
      · split at h <;> cases h
      · cases h
  | cmd =>
    simp only [decode, decodeCmdBytes] at h
    split at h
    · split at h <;> cases h
    · cases h
    · cases h

/-- What stands at the cursor: nothing the engine can read or decode, an absolute mode byte, or a code. -/
theorem fetchCode_cases (cs : CodeSet) (s : State) :
    (∃ e a, fetchCode cs s = .moved (abort e a (fetchStart cs s))) ∨
    (cs = .lcwMode ∧ fetchCode cs s = .moved (selectAbsolute s)) ∨
    (∃ i rest, s.eng.inPos < s.opr.srcLen ∧ decode cs (codeAt cs s) = .code i rest ∧ fetchCode cs s = .run i) := by
  unfold fetchCode
  by_cases hl : s.opr.srcLen ≤ s.eng.inPos
  · exact .inl ⟨_, _, if_pos hl⟩
  · rw [if_neg hl]
    rw [BitVec.not_le] at hl
    by_cases ha : (!admits s.platform (inAddr s)) = true
    · exact .inl ⟨_, _, if_pos ha⟩
    · rw [if_neg ha]
      cases hd : decode cs (codeAt cs s) with
      | code i rest => exact .inr (.inr ⟨i, rest, hl, rfl, rfl⟩)
      | reject e =>
        cases e with
        | absoluteMode => exact .inr (.inl ⟨decode_absolute hd, rfl⟩)
        | noBytes => exact .inl ⟨_, _, rfl⟩
        | truncated => exact .inl ⟨_, _, rfl⟩
        | illegalCmd => exact .inl ⟨_, _, rfl⟩

/-- A step of the engine that runs an instruction. -/
theorem engineStep_run {s : State} {i : Instr} (h : fetch s = .run i) : engineStep s = exec i s := by
  simp [engineStep, h]

/-- A step of the engine that runs none. -/
theorem engineStep_moved {s t : State} (h : fetch s = .moved t) : engineStep s = .next t := by
  simp [engineStep, h]

theorem fetch_idle {s : State} (h : s.phase = .idle) : fetch s = .moved s := by simp [fetch, h]

theorem fetch_accepted {s : State} {i : Instr} (h : s.phase = .accepted) (hc : decodeCmd s.cmd = some i) :
    fetch s = .run i := by simp [fetch, h, hc]

theorem fetch_illegal {s : State} (h : s.phase = .accepted) (hc : decodeCmd s.cmd = none) :
    fetch s = .moved (abort .illegalCmd 0#32 s) := by simp [fetch, h, hc]

theorem fetch_lcwMode {s : State} (h : s.phase = .lcwMode) : fetch s = fetchCode .lcwMode s := by simp [fetch, h]

theorem fetch_lcwCode {s : State} (h : s.phase = .lcwCode) : fetch s = fetchCode .lcw s := by simp [fetch, h]

theorem fetch_zrle {s : State} (h : s.phase = .zrle) : fetch s =
    if s.opr.srcLen ≤ s.eng.inPos then .moved (complete s) else fetchCode .zrle s := by simp [fetch, h]

/-- What a step of the engine can do in a stream. -/
theorem fetchCode_move {cs : CodeSet} {s t : State} (hp : (s.phase = .lcwMode ∧ cs = .lcwMode) ∨
      (s.phase ≠ .lcwMode ∧ (cs = .lcw ∨ cs = .zrle)))
    (hf : fetch s = fetchCode cs s) (h : engineStep s = .next t) : StreamMove s t := by
  have hs : StreamStep s (fetchStart cs s) := by
    cases cs <;> first | exact .refl s | exact .markStart s
  rcases fetchCode_cases cs s with ⟨e, a, hc⟩ | ⟨rfl, hc⟩ | ⟨i, rest, hlt, hd, hc⟩
  · rw [engineStep_moved (hf.trans hc)] at h
    cases h
    exact .stop _ hs e a
  · rw [engineStep_moved (hf.trans hc)] at h
    cases h
    refine .mode s (.refl s) .abs ?_
    simpa using hp
  · rw [engineStep_run (hf.trans hc)] at h
    have hi := decode_codeSet hd
    rcases hp with ⟨hp, rfl⟩ | ⟨hp, rfl | rfl⟩
    · cases i <;> simp only [Instr.codeSet, reduceCtorEq] at hi
      exact exec_modeRel hp h
    · exact exec_stream (.inl hi) hlt hp h
    · exact exec_stream (.inr hi) hlt hp h

/-- What a step of the engine can do. -/
inductive EngineMove (s : State) : State → Prop where
  | idle (phase : s.phase = .idle) : EngineMove s s
  | illegal (phase : s.phase = .accepted) : EngineMove s (abort .illegalCmd 0#32 s)
  | command (i : Instr) (t : State) (phase : s.phase = .accepted) (cmd : decodeCmd s.cmd = some i)
      (how : CommandStep i s t) : EngineMove s t
  | stream (t : State) (phase : s.phase = .lcwMode ∨ s.phase = .lcwCode ∨ s.phase = .zrle) (how : StreamMove s t) :
      EngineMove s t

theorem engineStep_move {s t : State} (h : engineStep s = .next t) : EngineMove s t := by
  cases hp : s.phase with
  | idle => rw [engineStep_moved (fetch_idle hp)] at h; cases h; exact .idle hp
  | accepted =>
    cases hd : decodeCmd s.cmd with
    | none => rw [engineStep_moved (fetch_illegal hp hd)] at h; cases h; exact .illegal hp
    | some i =>
      rw [engineStep_run (fetch_accepted hp hd)] at h
      exact .command i t hp hd (exec_command (decodeCmd_codeSet hd) h)
  | lcwMode => exact .stream t (.inl hp) (fetchCode_move (.inl ⟨hp, rfl⟩) (fetch_lcwMode hp) h)
  | lcwCode =>
    exact .stream t (.inr (.inl hp)) (fetchCode_move (.inr ⟨by rw [hp]; simp, .inl rfl⟩) (fetch_lcwCode hp) h)
  | zrle =>
    refine .stream t (.inr (.inr hp)) ?_
    by_cases hl : s.opr.srcLen ≤ s.eng.inPos
    · rw [engineStep_moved ((fetch_zrle hp).trans (if_pos hl))] at h
      cases h
      exact .finish s (.refl s)
    · exact fetchCode_move (.inr ⟨by rw [hp]; simp, .inr rfl⟩) ((fetch_zrle hp).trans (if_neg hl)) h

theorem endBody_next (x : Eff Unit) : ∃ t, endBody x = .next t := by cases x <;> exact ⟨_, rfl⟩

theorem endCode_next (x : Eff Unit) : ∃ t, endCode x = .next t := by cases x <;> exact ⟨_, rfl⟩

theorem runBody_next {i : Instr} {badLen : Bool} {body : State → Outcome} {s : State} (hd : overDevice i s = false)
    (hb : ∀ u, ∃ t, body u = .next t) : ∃ t, runBody i badLen body s = .next t := by
  unfold runBody
  split
  · exact ⟨_, rfl⟩
  · split
    · exact ⟨_, rfl⟩
    · rw [if_neg (by simp [hd])]; exact hb _

/-- An instruction gives a next state, but for a host command with a window over a device. -/
theorem exec_next {i : Instr} {s : State} (hd : i.codeSet = .cmd → overDevice i s = false) :
    ∃ t, exec i s = .next t := by
  cases i with
  | modeRel => exact endCode_next _
  | endMark => exact endBody_next _
  | lit bytes => exact endCode_next _
  | sref c p => exact endCode_next _
  | run n v => exact endCode_next _
  | lref n p => exact endCode_next _
  | mref c p => exact endCode_next _
  | zrun n => exact endCode_next _
  | zlit v => exact endCode_next _
  | lcwDecode => rw [exec, execLcwDecode]; exact runBody_next (hd rfl) fun u => ⟨_, rfl⟩
  | zrleExpand => rw [exec, execZrleExpand]; exact runBody_next (hd rfl) fun u => ⟨_, rfl⟩
  | blit => rw [exec, execBlit]; exact runBody_next (hd rfl) fun u => endBody_next _
  | fill => rw [exec, execFill]; exact runBody_next (hd rfl) fun u => endBody_next _
  | palClear => rw [exec, execPalClear]; exact runBody_next (hd rfl) fun u => endBody_next _
  | palPush => rw [exec, execPalPush]; exact runBody_next (hd rfl) fun u => endBody_next _
  | palLoad6 => rw [exec, execPalLoad6]; exact runBody_next (hd rfl) fun u => endBody_next _
  | palFind => rw [exec, execPalFind]; exact runBody_next (hd rfl) fun u => endBody_next _
  | palRead => rw [exec, execPalRead]; exact runBody_next (hd rfl) fun u => endBody_next _

/-- A step of the engine stops only on a window over a device, before the body of a host command. -/
theorem engineStep_next {s : State}
    (h : s.phase = .accepted → ∀ i, decodeCmd s.cmd = some i → overDevice i s = false) : ∃ t, engineStep s = .next t := by
  have code : ∀ cs, cs ≠ .cmd → fetch s = fetchCode cs s → ∃ t, engineStep s = .next t := by
    intro cs hcs hf
    rcases fetchCode_cases cs s with ⟨e, a, hc⟩ | ⟨-, hc⟩ | ⟨i, rest, -, hd, hc⟩
    · exact ⟨_, engineStep_moved (hf.trans hc)⟩
    · exact ⟨_, engineStep_moved (hf.trans hc)⟩
    · rw [engineStep_run (hf.trans hc)]
      exact exec_next fun hi => absurd ((decode_codeSet hd).symm.trans hi) hcs
  cases hp : s.phase with
  | idle => exact ⟨_, engineStep_moved (fetch_idle hp)⟩
  | accepted =>
    cases hd : decodeCmd s.cmd with
    | none => exact ⟨_, engineStep_moved (fetch_illegal hp hd)⟩
    | some i => rw [engineStep_run (fetch_accepted hp hd)]; exact exec_next fun _ => h hp i hd
  | lcwMode => exact code _ (by simp) (fetch_lcwMode hp)
  | lcwCode => exact code _ (by simp) (fetch_lcwCode hp)
  | zrle =>
    by_cases hl : s.opr.srcLen ≤ s.eng.inPos
    · exact ⟨_, engineStep_moved ((fetch_zrle hp).trans (if_pos hl))⟩
    · exact code _ (by simp) ((fetch_zrle hp).trans (if_neg hl))

end Sys2Proof.Machine
end

