-- ==== Sys2Proof/Laws/PerInstr.lean ====
section
/-! SUPPORT. Per-instruction families. EncodedLength: the length of an instruction's encoding is the one that its decoder
tells from the first byte (30_encoding.md R101, R104, R111). -/

namespace Sys2Proof.Laws.EncodedLength

/-- How many bytes a code of this code set has, by its first byte (R111); a `CMD` word has four (R103). -/
def lengthOf (cs : CodeSet) (b : Byte) : Nat :=
  match cs with
  | .lcwMode => 1
  | .lcw => lcwLength b
  | .zrle => if b = 0#8 then 2 else 1
  | .cmd => 4

/-- The first byte of a well-formed instruction tells its length. -/
def Statement (i : Instr) : Prop :=
  WellFormed i → ∀ b rest, encode i = b :: rest → rest.length + 1 = lengthOf i.codeSet b

/-- The first byte of a literal tells its length. -/
theorem lit_first : ∀ n : Fin 64, n.val ≠ 0 →
    lcwLength (0b10#2 ++ BitVec.ofNat 6 n.val : BitVec 8) = 1 + n.val := by decide

/-- The first byte of a short back-reference tells its length. -/
theorem sref_first : ∀ (c : Fin 8) (q : Fin 16),
    lcwLength (0#1 ++ BitVec.ofFin (w := 3) c ++ BitVec.ofFin (w := 4) q : BitVec 8) = 2 := by decide

/-- The first byte of a medium back-reference tells its length. -/
theorem mref_first : ∀ c : Fin 64, c.val ≤ 0x3D →
    lcwLength (0b11#2 ++ BitVec.ofFin (w := 6) c : BitVec 8) = 3 := by decide

theorem modeRel : Statement .modeRel := by intro _ b r h; cases h; rfl
theorem endMark : Statement .endMark := by intro _ b r h; cases h; rfl

theorem lit (bytes : List Byte) : Statement (.lit bytes) := by
  intro hw b r h
  cases h
  simp only [WellFormed, Instr.wellFormed, Bool.and_eq_true, decide_eq_true_eq] at hw
  have := lit_first ⟨bytes.length, by omega⟩ (by show bytes.length ≠ 0; omega)
  show bytes.length + 1 = lcwLength _
  rw [this, Nat.add_comm]

theorem sref (c : BitVec 3) (p : BitVec 12) : Statement (.sref c p) := by
  intro _ b r h
  cases h
  exact (sref_first c.toFin (p.extractLsb' 8 4).toFin).symm

theorem run (n : BitVec 16) (v : Byte) : Statement (.run n v) := by intro _ b r h; cases h; rfl
theorem lref (n p : BitVec 16) : Statement (.lref n p) := by intro _ b r h; cases h; rfl

theorem mref (c : BitVec 6) (p : BitVec 16) : Statement (.mref c p) := by
  intro hw b r h
  cases h
  simp only [WellFormed, Instr.wellFormed, decide_eq_true_eq] at hw
  exact (mref_first c.toFin hw).symm

theorem zrun (n : Byte) : Statement (.zrun n) := by intro _ b r h; cases h; rfl

theorem zlit (v : Byte) : Statement (.zlit v) := by
  intro hw b r h
  cases h
  simp only [WellFormed, Instr.wellFormed, decide_eq_true_eq] at hw
  simp [Instr.codeSet, lengthOf, hw]

theorem lcwDecode : Statement .lcwDecode := by intro _ b r h; cases h; rfl
theorem zrleExpand : Statement .zrleExpand := by intro _ b r h; cases h; rfl
theorem blit : Statement .blit := by intro _ b r h; cases h; rfl
theorem fill : Statement .fill := by intro _ b r h; cases h; rfl
theorem palClear : Statement .palClear := by intro _ b r h; cases h; rfl
theorem palPush : Statement .palPush := by intro _ b r h; cases h; rfl
theorem palLoad6 : Statement .palLoad6 := by intro _ b r h; cases h; rfl
theorem palFind : Statement .palFind := by intro _ b r h; cases h; rfl
theorem palRead : Statement .palRead := by intro _ b r h; cases h; rfl

end Sys2Proof.Laws.EncodedLength
end

