-- ==== Sys2Proof/Tests/Slice0.lean ====
section
/-! SUPPORT. The model's own tests, each about one step on a small state: the operand ranges of 30_encoding.md R113, words
written out from the encodings of 30_encoding.md, vectors of 95_test_vectors.md (named in each comment), and, for every
obligation with hypotheses, concrete states and operands that meet them. -/

namespace Sys2Proof.Tests

open Sys2Proof.Machine

/-! ### Well-formedness (R113) -/

theorem test_wellFormed_refuses_an_empty_literal : ¬ WellFormed (.lit []) := by decide
theorem test_wellFormed_refuses_a_literal_of_64 : ¬ WellFormed (.lit (List.replicate 64 0#8)) := by decide
theorem test_wellFormed_refuses_mref_0x3E : ¬ WellFormed (.mref 0x3E#6 0#16) := by decide
theorem test_wellFormed_refuses_mref_0x3F : ¬ WellFormed (.mref 0x3F#6 0#16) := by decide
theorem test_wellFormed_refuses_zlit_0 : ¬ WellFormed (.zlit 0#8) := by decide
theorem test_wellFormed_admits_the_largest : WellFormed (.lit (List.replicate 63 0#8)) ∧ WellFormed (.mref 0x3D#6 0xFFFF#16) ∧
    WellFormed (.sref 7#3 0xFFF#12) ∧ WellFormed (.zlit 0xFF#8) := by decide

/-! ### Decoding: words written out from R101, R103, R104 -/

theorem test_decode_modeRel : decode .lcwMode [0b00000000#8, 0x80#8] = .code .modeRel [0x80#8] := by decide
theorem test_decode_mode_absolute : decode .lcwMode [0b10000011#8] = .reject .absoluteMode := by decide
theorem test_decode_end : decode .lcw [0b10000000#8, 0x12#8] = .code .endMark [0x12#8] := by decide
theorem test_decode_lit : decode .lcw [0b10000011#8, 1#8, 2#8, 3#8, 0x80#8] = .code (.lit [1#8, 2#8, 3#8]) [0x80#8] := by
  decide
theorem test_decode_lit_cut : decode .lcw [0b10000011#8, 1#8, 2#8] = .reject .truncated := by decide
/-- R113: `SREF 5, 2` is `20 02`; R105: position `cmd[3:0] || byte1`. -/
theorem test_decode_sref : decode .lcw [0b00100000#8, 0x02#8] = .code (.sref 2#3 2#12) [] ∧
    decode .lcw [0b01111010#8, 0xBC#8] = .code (.sref 7#3 0xABC#12) [] := by decide
/-- R73: the count is little-endian (L21). -/
theorem test_decode_run : decode .lcw [0b11111110#8, 0x00#8, 0x01#8, 0xAB#8] = .code (.run 0x0100#16 0xAB#8) [] := by decide
theorem test_decode_lref :
    decode .lcw [0b11111111#8, 0x34#8, 0x12#8, 0x78#8, 0x56#8] = .code (.lref 0x1234#16 0x5678#16) [] := by decide
theorem test_decode_mref : decode .lcw [0b11000000#8, 0x34#8, 0x12#8] = .code (.mref 0#6 0x1234#16) [] ∧
    decode .lcw [0b11111101#8, 0x00#8, 0x00#8] = .code (.mref 0x3D#6 0#16) [] := by decide
theorem test_decode_zrun : decode .zrle [0b00000000#8, 0x00#8, 7#8] = .code (.zrun 0#8) [7#8] := by decide
theorem test_decode_zlit : decode .zrle [0b11111110#8] = .code (.zlit 0xFE#8) [] := by decide
theorem test_decode_lcwDecode : decodeCmd 0b00000001#32 = some .lcwDecode := by decide
theorem test_decode_zrleExpand : decodeCmd 0b00000010#32 = some .zrleExpand := by decide
theorem test_decode_blit : decodeCmd 0b00000011#32 = some .blit := by decide
theorem test_decode_fill : decodeCmd 0b00000100#32 = some .fill := by decide
theorem test_decode_palClear : decodeCmd 0b00010000#32 = some .palClear := by decide
theorem test_decode_palPush : decodeCmd 0b00010001#32 = some .palPush := by decide
theorem test_decode_palLoad6 : decodeCmd 0b00010010#32 = some .palLoad6 := by decide
theorem test_decode_palFind : decodeCmd 0b00010011#32 = some .palFind := by decide
theorem test_decode_palRead : decodeCmd 0b00010100#32 = some .palRead := by decide
/-- C-1, C-2, C-3. -/
theorem test_decode_unassigned : [0x00#32, 0x05#32, 0x0F#32, 0x15#32, 0xFF#32, 0x101#32, 0x80000001#32].map decodeCmd =
    List.replicate 7 none := by decide

/-! ### Small states -/

/-- An LCW_DECODE at the cursor `pos` of a stream at 0x1000, with `out` produced so far at 0x2000. -/
def lcwAt (mode : LcwMode) (bytes out : List Byte) (pos cap : Word) : State :=
  { State.reset with
    cmd := 0x01#32
    phase := .lcwCode
    opr := { State.reset.opr with
      srcAddr := 0x1000#32, srcLen := BitVec.ofNat 32 bytes.length, dstAddr := 0x2000#32, dstCap := cap }
    eng := { inPos := pos, outLen := BitVec.ofNat 32 out.length, mode := mode, cmdStart := 0#32 }
    mem := storeBytes out 0x2000 (storeBytes bytes 0x1000 []) }

/-- A ZRLE_EXPAND likewise. -/
def zrleAt (bytes out : List Byte) (pos cap : Word) : State :=
  { lcwAt .abs bytes out pos cap with cmd := 0x02#32, phase := .zrle }

/-- A command just started by the `CMD` word `w` on the given operands. -/
def started (w : Word) (o : Operands) (m : Memory) : State := startCommand w { State.reset with opr := o, mem := m }

/-- The operands of a stream command. -/
def streamOpr (srcAddr srcLen dstAddr dstCap : Word) : Operands :=
  { State.reset.opr with srcAddr := srcAddr, srcLen := srcLen, dstAddr := dstAddr, dstCap := dstCap }

/-- The operands of a blit between bitmaps at 0x5000 and 0x6000. -/
def blitOpr (bsDim bdDim srX srY srW srH drX drY drW drH : Word) : Operands :=
  { State.reset.opr with
    bsAddr := 0x5000#32, bsDim := bsDim, bdAddr := 0x6000#32, bdDim := bdDim
    srX := srX, srY := srY, srW := srW, srH := srH, drX := drX, drY := drY, drW := drW, drH := drH
    fillVal := 0x09#8 }

/-- A palette command just started, with this palette, `PAL_COLOR` and `PAL_INDEX`. -/
def palAt (w : Word) (p : List Color) (c : Word) (i : BitVec 16) : State :=
  { started w State.reset.opr [] with palette := p, palColor := colorOf c, palIndex := i }

/-- A PAL_LOAD6 just started on a raw palette at 0x4000. -/
def loadAt (p : List Color) (bytes : List Byte) : State :=
  { started 0x12#32 { State.reset.opr with srcAddr := 0x4000#32, srcLen := BitVec.ofNat 32 bytes.length }
      (storeBytes bytes 0x4000 []) with palette := p }

/-- The next state, if there is one. -/
def after : Outcome → Option State
  | .next t => some t
  | .fault _ => none
  | .refused _ => none

/-- The output so far of a running stream command: cursor, output. -/
def progress (t : State) : Word × List Byte := (t.eng.inPos, (List.range t.eng.outLen.toNat).map (outputByte t))

/-- What a command reports at its end: `STATUS`, `ERRCODE`, `ERR_ADDR`, `IN_USED`, `OUT_LEN`. -/
def report (t : State) : Word × Byte × Word × Word × Word := (statusWord t, t.errCode, t.errAddr, t.inUsed, t.outLen)

/-- The palette's report: `STATUS`, `PAL_INDEX`, `PAL_COUNT`. -/
def palReport (t : State) : Word × BitVec 16 × Word := (statusWord t, t.palIndex, palCount t)

/-- `n` bytes of memory. -/
def bytesAt (a n : Nat) (t : State) : List Byte := (List.range n).map fun k => t.mem.read (a + k)

/-! ### One step of each instruction -/

/-- L1. -/
theorem test_modeRel : (after (step { lcwAt .abs [0x00#8, 0x80#8] [] 0#32 16#32 with phase := .lcwMode })).map
    (fun t => (t.phase, t.eng.mode, t.eng.inPos)) = some (.lcwCode, .rel, 1#32) := by decide
/-- L2. -/
theorem test_mode_absolute : (after (step { lcwAt .rel [0x80#8] [] 0#32 16#32 with phase := .lcwMode })).map
    (fun t => (t.phase, t.eng.mode, t.eng.inPos)) = some (.lcwCode, .abs, 0#32) := by decide
/-- L22. -/
theorem test_end : (after (step (lcwAt .abs [0x80#8, 0x12#8, 0x34#8] [] 0#32 16#32))).map report =
    some (2#32, 0#8, 0#32, 1#32, 0#32) := by decide
/-- E1. -/
theorem test_lit : (after (step (lcwAt .abs [0x83#8, 1#8, 2#8, 3#8, 0x80#8] [] 0#32 16#32))).map progress =
    some (4#32, [1#8, 2#8, 3#8]) := by decide
/-- L14. -/
theorem test_lit_truncated : (after (step (lcwAt .abs [0x83#8, 1#8, 2#8] [] 0#32 16#32))).map
    (fun t => (report t, bytesAt 0x2000 3 t)) = some ((4#32, 3#8, 0#32, 3#32, 2#32), [1#8, 2#8, 0#8]) := by decide
/-- L6. -/
theorem test_sref : (after (step (lcwAt .rel [0#8, 0x82#8, 0x41#8, 0x42#8, 0x20#8, 0x02#8, 0x80#8] [0x41#8, 0x42#8] 4#32
    16#32))).map progress = some (6#32, [0x41#8, 0x42#8, 0x41#8, 0x42#8, 0x41#8, 0x42#8, 0x41#8]) := by decide
/-- L4. -/
theorem test_sref_1_on_empty_output : (after (step (lcwAt .rel [0#8, 0#8, 1#8, 0x80#8] [] 1#32 16#32))).map report =
    some (4#32, 4#8, 1#32, 3#32, 0#32) := by decide
/-- E2. -/
theorem test_run : (after (step (lcwAt .abs [0xFE#8, 4#8, 0#8, 9#8, 0x80#8] [] 0#32 16#32))).map progress =
    some (4#32, [9#8, 9#8, 9#8, 9#8]) := by decide
/-- L17. -/
theorem test_run_overflow : (after (step (lcwAt .abs [0xFE#8, 5#8, 0#8, 7#8, 0x80#8] [] 0#32 3#32))).map
    (fun t => (report t, bytesAt 0x2000 4 t)) = some ((4#32, 6#8, 0#32, 4#32, 3#32), [7#8, 7#8, 7#8, 0#8]) := by decide
/-- The example of R157. -/
theorem test_lref : (after (step (lcwAt .abs [0xFF#8, 5#8, 0#8, 1#8, 0#8] [1#8, 2#8, 3#8] 0#32 16#32))).map progress =
    some (5#32, [1#8, 2#8, 3#8, 2#8, 3#8, 2#8, 3#8, 2#8]) := by decide
/-- L12. -/
theorem test_lref_at_the_end : (after (step (lcwAt .abs [0x83#8, 1#8, 2#8, 3#8, 0xFF#8, 1#8, 0#8, 3#8, 0#8, 0x80#8]
    [1#8, 2#8, 3#8] 4#32 16#32))).map report = some (4#32, 4#8, 4#32, 9#32, 3#32) := by decide
/-- L9. -/
theorem test_mref_absolute : (after (step (lcwAt .abs [0x83#8, 1#8, 2#8, 3#8, 0xC0#8, 1#8, 0#8, 0x80#8] [1#8, 2#8, 3#8] 4#32
    16#32))).map progress = some (7#32, [1#8, 2#8, 3#8, 2#8, 3#8, 2#8]) := by decide
/-- L10. -/
theorem test_mref_relative : (after (step (lcwAt .rel [0#8, 0x83#8, 1#8, 2#8, 3#8, 0xC0#8, 1#8, 0#8, 0x80#8] [1#8, 2#8, 3#8]
    5#32 16#32))).map progress = some (8#32, [1#8, 2#8, 3#8, 3#8, 3#8, 3#8]) := by decide
/-- Z9, at its second code. -/
theorem test_zrun : (after (step (zrleAt [0#8, 1#8, 0#8, 1#8] [0#8] 2#32 16#32))).map progress =
    some (4#32, [0#8, 0#8]) := by decide
/-- Z7. -/
theorem test_zrun_missing_count : (after (step (zrleAt [1#8, 2#8, 0#8] [1#8, 2#8] 2#32 16#32))).map report =
    some (4#32, 5#8, 2#32, 3#32, 2#32) := by decide
/-- Z10. -/
theorem test_zlit : (after (step (zrleAt [0xFF#8, 0x80#8] [] 0#32 16#32))).map progress = some (1#32, [0xFF#8]) := by decide
/-- Z11. -/
theorem test_zlit_overflow : (after (step (zrleAt [5#8, 6#8] [5#8] 1#32 1#32))).map report =
    some (4#32, 6#8, 1#32, 2#32, 1#32) := by decide
/-- R150: the decode starts at the mode byte. -/
theorem test_lcwDecode : (after (step (started 0x01#32 (streamOpr 0x1000#32 2#32 0x2000#32 16#32) []))).map
    (fun t => (t.phase, t.eng.inPos, t.eng.outLen)) = some (.lcwMode, 0#32, 0#32) := by decide
/-- C-4. -/
theorem test_lcwDecode_range : (after (step (started 0x01#32 (streamOpr 0xFFFFFFF0#32 0x20#32 0#32 0#32) []))).map report =
    some (4#32, 2#8, 0#32, 0#32, 0#32) := by decide
/-- C-6. -/
theorem test_zrleExpand_up_to_the_top : (after (step (started 0x02#32 (streamOpr 0xFFFFFFF0#32 0x10#32 0#32 0#32) []))).map
    (fun t => (t.phase, t.eng.inPos, t.eng.outLen)) = some (.zrle, 0#32, 0#32) := by decide
/-- C-7. -/
theorem test_zrleExpand_range : (after (step (started 0x02#32 (streamOpr 0#32 1#32 0xFFFFFFFF#32 2#32) []))).map report =
    some (4#32, 2#8, 0#32, 0#32, 0#32) := by decide
/-- B6. -/
theorem test_blit_rescales : (after (step (started 0x03#32 (blitOpr 0x00020002#32 0x00040004#32 0#32 0#32 2#32 2#32
    0xFFFFFFFE#32 0#32 4#32 2#32) (storeBytes [0x0A#8, 0x0B#8, 0x0C#8, 0x0D#8] 0x5000 [])))).map
    (fun t => (statusWord t, bytesAt 0x6000 8 t)) =
    some (2#32, [0x0A#8, 0x0B#8, 0#8, 0#8, 0x0C#8, 0x0D#8, 0#8, 0#8]) := by decide
/-- B11. -/
theorem test_blit_two_rows_to_one : (after (step (started 0x03#32 (blitOpr 0x00020002#32 0x00030003#32 0#32 0#32 2#32 2#32
    1#32 2#32 2#32 2#32) (storeBytes [0x0A#8, 0x0B#8, 0x0C#8, 0x0D#8] 0x5000 [])))).map (bytesAt 0x6000 9) =
    some [0#8, 0#8, 0#8, 0#8, 0#8, 0#8, 0#8, 0x0A#8, 0x0B#8] := by decide
/-- F1. -/
theorem test_fill : (after (step (started 0x04#32 (blitOpr 0#32 0x00040004#32 0#32 0#32 0#32 0#32 1#32 1#32 2#32 2#32) []))).map
    (fun t => t.mem) = some [(0x6005, 9#8), (0x6006, 9#8), (0x6009, 9#8), (0x600A, 9#8)] := by decide
/-- F6. -/
theorem test_fill_clipped : (after (step (started 0x04#32 (blitOpr 0#32 0x00040004#32 0#32 0#32 0#32 0#32 0xFFFFFFF6#32 2#32
    100#32 100#32) []))).map (bytesAt 0x6006 4) = some [0#8, 0#8, 9#8, 9#8] := by decide

/-- Some colours. -/
def red : Color := { r := 0xFF#8, g := 0#8, b := 0#8 }
def black : Color := { r := 0#8, g := 0#8, b := 0#8 }
def white : Color := { r := 252#8, g := 252#8, b := 252#8 }
def grey : Color := { r := 4#8, g := 4#8, b := 4#8 }
/-- `(i,0,0)` for `i` below `n`. -/
def reds (n : Nat) : List Color := (List.range n).map fun i => { r := BitVec.ofNat 8 i, g := 0#8, b := 0#8 }

/-- P-15. -/
theorem test_palClear : (after (step (palAt 0x10#32 [red, black, white] 0x123456#32 7#16))).map
    (fun t => (palReport t, packColor t.palColor)) = some ((2#32, 7#16, 0#32), 0x123456#32) := by decide
/-- P-1. -/
theorem test_palPush : (after (step (palAt 0x11#32 [] 0xFF#32 7#16))).map (fun t => (palReport t, t.palette)) =
    some ((2#32, 0#16, 1#32), [red]) := by decide
/-- P-16. -/
theorem test_palPush_present : (after (step (palAt 0x11#32 [black] 0xFF000000#32 7#16))).map palReport =
    some (0xA#32, 0#16, 1#32) := by decide
/-- P-10, and P-9: the two top bits are dropped. -/
theorem test_palLoad6 :
    (after (step (loadAt [] [0#8, 0#8, 0#8, 0x3F#8, 0#8, 0#8, 0x3F#8, 0x3F#8, 0x3F#8, 0x3F#8, 0#8, 0#8]))).map
      (fun t => (palReport t, t.inUsed, t.palette)) =
      some ((0xA#32, 1#16, 3#32), 12#32, [black, { r := 252#8, g := 0#8, b := 0#8 }, white]) ∧
    (after (step (loadAt [] [0x40#8, 0xFF#8, 0x01#8]))).map (fun t => (t.inUsed, t.palette)) =
      some (3#32, [{ r := 0#8, g := 252#8, b := 4#8 }]) := by decide
/-- R32, R284: a failed start check leaves `IN_USED` 0, `PAL_BAD_LEN` and `RANGE` alike; nothing is pushed. -/
theorem test_palLoad6_start_checks :
    (after (step { loadAt [red] [1#8, 2#8] with inUsed := 9#32, outLen := 7#32 })).map report =
      some (4#32, 9#8, 0#32, 0#32, 7#32) ∧
    (after (step { loadAt [red] [1#8, 2#8] with inUsed := 9#32 })).map palReport = some (4#32, 0#16, 1#32) ∧
    (after (step { started 0x12#32 (streamOpr 0xFFFFFFFE#32 3#32 0#32 0#32) [] with inUsed := 9#32 })).map report =
      some (4#32, 2#8, 0#32, 0#32, 0#32) := by decide
/-- P3 (2). -/
theorem test_palFind : (after (step (palAt 0x13#32 [black, red, white] 0xFCFCFC#32 7#16))).map palReport =
    some (0xA#32, 2#16, 3#32) := by decide
/-- P-3. -/
theorem test_palFind_miss : (after (step (palAt 0x13#32 [red] 0xFF00#32 7#16))).map palReport = some (2#32, 7#16, 1#32) := by
  decide
/-- P-14. -/
theorem test_palRead : (after (step (palAt 0x14#32 [black, white] 0#32 1#16))).map
    (fun t => (statusWord t, packColor t.palColor)) = some (2#32, 0x00FCFCFC#32) := by decide
/-- P-4. -/
theorem test_palRead_range : (after (step (palAt 0x14#32 [red] 0x123456#32 1#16))).map
    (fun t => (report t, packColor t.palColor)) = some ((4#32, 8#8, 0#32, 0#32, 0#32), 0x123456#32) := by decide
/-- C-2. -/
theorem test_illegal_command : (after (step (started 0x15#32 State.reset.opr []))).map report =
    some (4#32, 1#8, 0#32, 0#32, 0#32) := by decide

/-! ### The host's side -/

/-- The host acts next. -/
def hosted (act : HostAction) (s : State) : State := { s with host := [⟨0, act⟩] }

/-- C-10, C-11. -/
theorem test_acknowledge : (after (step (hosted (.regWrite 0x04#8 .word 4#32) { State.reset with
      status := { done := false, err := true, found := false }, errCode := 3#8, errAddr := 9#32
      irqEn := irqEnOf 2#32 }))).map (fun t => (report t, irq t)) =
    some ((0#32, 0#8, 9#32, 0#32, 0#32), false) := by decide
/-- C-14. -/
theorem test_write_while_busy : (after (step (hosted (.regWrite 0x14#8 .word 5#32) (started 0x10#32 State.reset.opr [])))).map
    (fun t => (t.opr, t.cmd)) = some (State.reset.opr, 0x10#32) := by decide
/-- C-16. -/
theorem test_narrow_access : (after (step (hosted (.regRead 0x04#8 .half) State.reset))).map (fun t => t.busReply) =
    some .busError := by decide
/-- C-15: the start clears `ERR` and `ERRCODE`. -/
theorem test_start_clears : (after (step (hosted (.regWrite 0x00#8 .word 0x10#32) { State.reset with
      status := { done := false, err := true, found := true }, errCode := 3#8 }))).map report =
    some (1#32, 0#8, 0#32, 0#32, 0#32) := by decide

/-- R89: a host write to the input window of a running decode races with it; one to a byte beside the window does not, and
the next `CMD` write begins without a race. -/
theorem test_host_write_races :
    (after (step (hosted (.memWrite 0x1000#32 9#8) (lcwAt .abs [0x80#8] [] 0#32 16#32)))).map (fun t => (t.raced, t.unsettled)) =
      some (true, true) ∧
    (after (step (hosted (.memWrite 0x1001#32 9#8) (lcwAt .abs [0x80#8] [] 0#32 16#32)))).map (fun t => (t.raced, t.unsettled)) =
      some (false, false) ∧
    (after (step (hosted (.regWrite 0x00#8 .word 0x10#32) { State.reset with raced := true }))).map (fun t => t.raced) =
      some false := by decide

/-! ### Table words: the first step after reset -/

theorem test_table_stream_codes :
    decodeTableWord 8 0x00 = some .modeRel ∧ decodeTableWord 8 0x80 = some .endMark ∧
    decodeTableWord 8 0x82 = some (.lit [0#8, 0#8]) ∧ decodeTableWord 16 0x0220 = some (.sref 2#3 2#12) ∧
    decodeTableWord 32 0xAB0103FE = some (.run 0x0103#16 0xAB#8) ∧ decodeTableWord 8 0xFE = some (.run 0#16 0#8) ∧
    decodeTableWord 40 0x02090004FF = some (.lref 4#16 0x0209#16) ∧ decodeTableWord 24 0x0100C0 = some (.mref 0#6 0x0100#16) ∧
    decodeTableWord 16 0x0500 = some (.zrun 5#8) ∧ decodeTableWord 8 0x07 = some (.zlit 7#8) ∧
    decodeTableWord 32 0x14 = some .palRead ∧ decodeTableWord 32 0x114 = none := by decide
/-- The placed word is what the next step runs: one `LIT` of two bytes, one `ZRUN`, one host command. -/
theorem test_placed_words : step (State.reset.withFetchWord 8 0x82) = exec (.lit [0#8, 0#8]) (State.reset.withFetchWord 8 0x82) ∧
    step (State.reset.withFetchWord 16 0x0500) = exec (.zrun 5#8) (State.reset.withFetchWord 16 0x0500) ∧
    step (State.reset.withFetchWord 32 0x03) = exec .blit (State.reset.withFetchWord 32 0x03) := ⟨rfl, rfl, rfl⟩

/-! ### Witnesses: states and operands that meet the hypotheses of each obligation, at the ends of their ranges -/

/-- The platform after reset answers at every address. -/
theorem whole_admits (a : Word) : admits State.reset.platform a = true := by
  have := a.isLt
  simp [admits, State.reset, Window.contains, Config.addrSpace]
  omega

theorem input_ready {s : State} {n : Nat} (hp : s.platform = State.reset.platform)
    (h : s.eng.inPos.toNat + n ≤ s.opr.srcLen.toNat) : InputReady s n := ⟨h, fun k _ => by rw [hp]; exact whole_admits _⟩

theorem output_ready {s : State} {n : Nat} (hp : s.platform = State.reset.platform) (hm : s.mem.wf = true)
    (h : s.eng.outLen.toNat + n ≤ s.opr.dstCap.toNat) : OutputReady s n :=
  ⟨hm, h, fun k _ => by rw [hp]; exact whole_admits _⟩

theorem history_ready {s : State} (hp : s.platform = State.reset.platform) : HistoryReady s :=
  fun k _ => by rw [hp]; exact whole_admits _

/-- A platform that answers at these addresses only. -/
def only (base len : Nat) (s : State) : State := { s with platform := [⟨⟨base, len⟩, .ordinary⟩] }

/-- A platform that answers at the first `n` bytes from 0x1000 on and the first `m` from 0x2000 on. -/
def upTo (n m : Nat) (s : State) : State := { s with platform := [⟨⟨0x1000, n⟩, .ordinary⟩, ⟨⟨0x2000, m⟩, .ordinary⟩] }

/-- The same from 0x5000 and 0x6000 on. -/
def bitmapsUpTo (n m : Nat) (s : State) : State := { s with platform := [⟨⟨0x5000, n⟩, .ordinary⟩, ⟨⟨0x6000, m⟩, .ordinary⟩] }

theorem witness_DecodedBytesAreTheEncoding : decode .lcw [0xFD#8, 0xFF#8, 0xFF#8, 9#8] = .code (.mref 0x3D#6 0xFFFF#16) [9#8] ∧
    decode .zrle [0xFF#8] = .code (.zlit 0xFF#8) [] ∧ decode .cmd [4#8, 0#8, 0#8, 0#8] = .code .fill [] := by decide

/-- The first and the last byte of each range. -/
theorem witness_LcwFirstByteSelectsTheForm :
    ([0x00#8, 0x7F#8, 0x80#8, 0x81#8, 0xBF#8, 0xC0#8, 0xFD#8, 0xFE#8, 0xFF#8].all fun b =>
      decide (lcwLength b ≤ (List.replicate 63 0#8).length + 1)) = true := by decide

theorem witness_StepRuns_accepted : (started 0x03#32 State.reset.opr []).host = [] ∧
    (started 0x03#32 State.reset.opr []).phase = .accepted ∧ decodeCmd (started 0x03#32 State.reset.opr []).cmd = some .blit := by
  decide

theorem witness_StepRuns_waiting_host : ∃ s t : State, (∃ n act later, s.host = ⟨n + 1, act⟩ :: later ∧
    t = { s with host := ⟨n, act⟩ :: later }) ∧ t.phase = .accepted ∧ decodeCmd t.cmd = some .blit :=
  ⟨{ started 0x03#32 State.reset.opr [] with host := [⟨1, .reset⟩] }, _, ⟨0, .reset, [], rfl, rfl⟩, rfl, by decide⟩

theorem witness_StepRuns_lcwMode : let t := { lcwAt .abs [0#8] [] 0#32 0#32 with phase := .lcwMode }
    t.host = [] ∧ t.eng.inPos < t.opr.srcLen ∧ admits t.platform (inAddr t) = true ∧ t.phase = .lcwMode ∧
      decode .lcwMode (codeAt .lcwMode t) = .code .modeRel [] := by decide

theorem witness_StepRuns_lcw : let t := lcwAt .abs [0x81#8, 7#8] [] 0#32 0#32
    t.host = [] ∧ t.eng.inPos < t.opr.srcLen ∧ admits t.platform (inAddr t) = true ∧ t.phase = .lcwCode ∧
      decode .lcw (codeAt .lcw t) = .code (.lit [7#8]) [] := by decide

theorem witness_StepRuns_zrle : let t := zrleAt [0#8, 5#8] [] 0#32 0#32
    t.host = [] ∧ t.eng.inPos < t.opr.srcLen ∧ admits t.platform (inAddr t) = true ∧ t.phase = .zrle ∧
      decode .zrle (codeAt .zrle t) = .code (.zrun 5#8) [] := by decide

theorem witness_CmdWriteStartsTheCommand : State.reset.phase = .idle ∧
    (hosted (.regWrite 0x00#8 .word 0xFFFFFFFF#32) State.reset).host = ⟨0, .regWrite 0x00#8 .word 0xFFFFFFFF#32⟩ :: [] ∧
    (hosted (.regWrite 0x00#8 .word 0xFFFFFFFF#32) State.reset).phase = .idle := by decide

theorem witness_UnassignedCmdIsIllegal : (started 0x101#32 State.reset.opr []).host = [] ∧
    (started 0x101#32 State.reset.opr []).phase = .accepted ∧ (started 0x101#32 State.reset.opr []).unsettled = false ∧
    (started 0x101#32 State.reset.opr []).cmd ∉
      [0x01#32, 0x02#32, 0x03#32, 0x04#32, 0x10#32, 0x11#32, 0x12#32, 0x13#32, 0x14#32] := by decide

/-- The two windows fill the address space. -/
theorem witness_StreamCommandsBeginAtZero :
    Ready .lcwDecode (started 0x01#32 (streamOpr 0xFFFFFFF0#32 0x10#32 0#32 0xFFFFFFF0#32) []) ∧
    Ready .zrleExpand (started 0x02#32 (streamOpr 0xFFFFFFF0#32 0x10#32 0#32 0xFFFFFFF0#32) []) :=
  ⟨⟨rfl, rfl, rfl, by decide, by decide, by decide⟩, ⟨rfl, rfl, rfl, by decide, by decide, by decide⟩⟩

theorem witness_ModeByteSelectsTheAddressing : InputReady (lcwAt .abs [0#8] [] 0#32 0#32) 1 ∧
    (let s := { lcwAt .abs [0xFF#8] [] 0#32 0#32 with phase := .lcwMode }
     s.host = [] ∧ s.phase = .lcwMode ∧ InputReady s 1 ∧ s.mem.read (inAddr s).toNat ≠ 0#8) :=
  ⟨input_ready rfl (by decide), rfl, rfl, input_ready rfl (by decide), by decide⟩

theorem witness_EndCompletesTheDecode : let s := lcwAt .abs [0x81#8, 1#8, 0x80#8] [1#8] 2#32 1#32
    s.phase = .lcwCode ∧ s.unsettled = false ∧ InputReady s 1 := ⟨rfl, rfl, input_ready rfl (by decide)⟩

/-- The longest literal, with no room left in either window. -/
theorem witness_LitAppendsItsBytes : let s := lcwAt .abs (0xBF#8 :: List.replicate 63 5#8) [] 0#32 63#32
    InputReady s (1 + (List.replicate 63 5#8).length) ∧ OutputReady s (List.replicate 63 5#8).length :=
  ⟨input_ready rfl (by decide), output_ready rfl (by decide) (by decide)⟩

/-- The longest short back-reference: position 1, and the first output byte. -/
theorem witness_SrefCopiesBackFromTheEnd : let s := lcwAt .abs [0x70#8, 0x02#8] [1#8, 2#8] 0#32 12#32
    1 ≤ (1#12).toNat ∧ (1#12).toNat ≤ s.eng.outLen.toNat ∧ (2#12).toNat = s.eng.outLen.toNat ∧ InputReady s 2 ∧
      OutputReady s ((7#3).toNat + 3) ∧ HistoryReady s :=
  ⟨by decide, by decide, by decide, input_ready rfl (by decide), output_ready rfl (by decide) (by decide), history_ready rfl⟩

theorem witness_RunAppendsItsValue : let s := lcwAt .abs [0xFE#8, 0xFF#8, 0xFF#8, 7#8] [] 0#32 65535#32
    InputReady s 4 ∧ OutputReady s (0xFFFF#16).toNat ∧ OutputReady s (0#16).toNat :=
  ⟨input_ready rfl (by decide), output_ready rfl (by decide) (by decide), output_ready rfl (by decide) (by decide)⟩

/-- Relative: position `out_len` is output byte 0. -/
theorem witness_BackReferences_relative : let s := lcwAt .rel [0xFF#8, 4#8, 0#8, 2#8, 0#8] [1#8, 2#8] 0#32 66#32
    HistoryReady s ∧ InputReady s 5 ∧ InputReady s 3 ∧ OutputReady s (4#16).toNat ∧ OutputReady s ((0x3D#6).toNat + 3) ∧
      (s.eng.mode = .rel → (2#16).toNat + 0 = s.eng.outLen.toNat) ∧ (s.eng.mode = .abs → 0 = (2#16).toNat) ∧
      0 < s.eng.outLen.toNat :=
  ⟨history_ready rfl, input_ready rfl (by decide), input_ready rfl (by decide), output_ready rfl (by decide) (by decide),
    output_ready rfl (by decide) (by decide), by decide, by decide, by decide⟩

/-- Absolute: position `out_len - 1` is the last output byte. -/
theorem witness_BackReferences_absolute : let s := lcwAt .abs [0xFF#8, 4#8, 0#8, 1#8, 0#8] [1#8, 2#8] 0#32 66#32
    HistoryReady s ∧ InputReady s 5 ∧ InputReady s 3 ∧ OutputReady s (4#16).toNat ∧ OutputReady s ((0x3D#6).toNat + 3) ∧
      (s.eng.mode = .rel → (1#16).toNat + 1 = s.eng.outLen.toNat) ∧ (s.eng.mode = .abs → 1 = (1#16).toNat) ∧
      1 < s.eng.outLen.toNat :=
  ⟨history_ready rfl, input_ready rfl (by decide), input_ready rfl (by decide), output_ready rfl (by decide) (by decide),
    output_ready rfl (by decide) (by decide), by decide, by decide, by decide⟩

/-- Just outside the history: positions 0 and `out_len + 1` (relative), and `out_len` (absolute). -/
theorem witness_BackReferenceOutside_relative : let s := lcwAt .rel [0xFF#8, 1#8, 0#8, 3#8, 0#8] [1#8, 2#8] 0#32 66#32
    s.phase = .lcwCode ∧ s.unsettled = false ∧ InputReady s 5 ∧ InputReady s 3 ∧ InputReady s 2 ∧
      ((0#12).toNat = 0 ∨ s.eng.outLen.toNat < (0#12).toNat) ∧ ((3#12).toNat = 0 ∨ s.eng.outLen.toNat < (3#12).toNat) ∧
      1#16 ≠ 0#16 ∧ (s.eng.mode = .rel → (3#16).toNat = 0 ∨ s.eng.outLen.toNat < (3#16).toNat) ∧
      (s.eng.mode = .abs → s.eng.outLen.toNat ≤ (3#16).toNat) :=
  ⟨rfl, rfl, input_ready rfl (by decide), input_ready rfl (by decide), input_ready rfl (by decide), by decide, by decide,
    by decide, by decide, by decide⟩

theorem witness_BackReferenceOutside_absolute : let s := lcwAt .abs [0xFF#8, 1#8, 0#8, 2#8, 0#8] [1#8, 2#8] 0#32 66#32
    s.phase = .lcwCode ∧ s.unsettled = false ∧ InputReady s 5 ∧ InputReady s 3 ∧ 1#16 ≠ 0#16 ∧
      (s.eng.mode = .rel → (2#16).toNat = 0 ∨ s.eng.outLen.toNat < (2#16).toNat) ∧
      (s.eng.mode = .abs → s.eng.outLen.toNat ≤ (2#16).toNat) :=
  ⟨rfl, rfl, input_ready rfl (by decide), input_ready rfl (by decide), by decide, by decide, by decide⟩

/-- The input ends after the last code. -/
theorem witness_UnterminatedStreamFails_code : let s := lcwAt .abs [0x81#8, 7#8] [7#8] 2#32 1#32
    s.host = [] ∧ s.unsettled = false ∧ s.opr.srcLen ≤ s.eng.inPos ∧ s.phase = .lcwCode := by decide

/-- Before the mode byte, of this stream. -/
def modeAt (bytes : List Byte) (cap : Word) : State := { lcwAt .abs bytes [] 0#32 cap with phase := .lcwMode }

theorem modeAt_inv : (modeAt [] 16#32).Inv where
  mem := rfl
  startMem := rfl
  unique := List.nodup_nil
  capacity := by decide
  exclusive := by decide
  running := by decide
  errCode := by decide
  noError := by decide
  stream := fun _ => ⟨by decide, by decide, by decide, by decide⟩
  modeByte := by decide
  lcw := by decide
  zrle := by decide
  idle := by decide

theorem witness_UnterminatedStreamFails_mode : (modeAt [] 16#32).host = [] ∧ (modeAt [] 16#32).unsettled = false ∧
    (modeAt [] 16#32).opr.srcLen ≤ (modeAt [] 16#32).eng.inPos ∧ (modeAt [] 16#32).phase = .lcwMode ∧ (modeAt [] 16#32).Inv :=
  ⟨by decide, by decide, by decide, by decide, modeAt_inv⟩

/-- A literal of 63 bytes of which 62 are there, and one of which none is. -/
theorem witness_TruncatedLiteralKeepsItsBytes :
    (let s := lcwAt .abs (0xBF#8 :: List.replicate 62 5#8) [] 0#32 62#32
     s.phase = .lcwCode ∧ s.unsettled = false ∧ 62 < (List.replicate 63 5#8).length ∧ InputReady s (1 + 62) ∧
       s.opr.srcLen.toNat = s.eng.inPos.toNat + 1 + 62 ∧ OutputReady s 62) ∧
    (let s := lcwAt .abs [0xBF#8] [] 0#32 0#32
     s.phase = .lcwCode ∧ s.unsettled = false ∧ 0 < (List.replicate 63 5#8).length ∧ InputReady s (1 + 0) ∧
       s.opr.srcLen.toNat = s.eng.inPos.toNat + 1 + 0 ∧ OutputReady s 0) :=
  ⟨⟨rfl, rfl, by decide, input_ready rfl (by decide), by decide, output_ready rfl (by decide) (by decide)⟩,
    ⟨rfl, rfl, by decide, input_ready rfl (by decide), by decide, output_ready rfl (by decide) (by decide)⟩⟩

/-- All but the last payload byte of each form. -/
theorem witness_TruncatedPayloadAppendsNothing : ∀ m : Fin 4,
    let s := lcwAt .abs (List.replicate (1 + m.val) 0xFE#8) [] 0#32 0#32
    s.phase = .lcwCode ∧ s.unsettled = false ∧ InputReady s (1 + m.val) ∧
      s.opr.srcLen.toNat = s.eng.inPos.toNat + 1 + m.val := by
  intro m
  refine ⟨rfl, rfl, input_ready rfl ?_, ?_⟩ <;> revert m <;> decide

/-- The hypotheses of that statement. -/
def overflowing (s : State) (i : Instr) (m : Nat) (out : List Byte) : Prop :=
  s.unsettled = false ∧ Appends s i out ∧ m < out.length ∧ s.eng.outLen.toNat + m = s.opr.dstCap.toNat ∧
    InputReady s (readBefore m i) ∧ OutputReady s m ∧ (readsHistory i → HistoryReady s)

/-- Every code, with no room at all, or with room for all but the last byte. -/
theorem witness_OverflowStopsAtTheCapacity :
    overflowing (lcwAt .abs [0x82#8, 1#8, 2#8] [] 0#32 1#32) (.lit [1#8, 2#8]) 1 [1#8, 2#8] ∧
    overflowing (lcwAt .abs [0x00#8, 1#8] [5#8] 0#32 3#32) (.sref 0#3 1#12) 2 [5#8, 5#8, 5#8] ∧
    overflowing (lcwAt .abs [0xFE#8, 3#8, 0#8, 7#8] [] 0#32 2#32) (.run 3#16 7#8) 2 [7#8, 7#8, 7#8] ∧
    overflowing (lcwAt .abs [0xFF#8, 2#8, 0#8, 0#8, 0#8] [5#8] 0#32 1#32) (.lref 2#16 0#16) 0 [5#8, 5#8] ∧
    overflowing (lcwAt .rel [0xC0#8, 2#8, 0#8] [5#8, 6#8] 0#32 4#32) (.mref 0#6 2#16) 2 [5#8, 6#8, 5#8] ∧
    overflowing (zrleAt [0#8, 1#8] [] 0#32 0#32) (.zrun 1#8) 0 [0#8] ∧
    overflowing (zrleAt [9#8] [] 0#32 0#32) (.zlit 9#8) 0 [9#8] := by
  refine ⟨?_, ?_, ?_, ?_, ?_, ?_, ?_⟩
  iterate 5
    exact ⟨rfl, .inl ⟨rfl, by decide⟩, by decide, by decide, input_ready rfl (by decide),
      output_ready rfl (by decide) (by decide), fun _ => history_ready rfl⟩
  iterate 2
    exact ⟨rfl, .inr ⟨rfl, by decide⟩, by decide, by decide, input_ready rfl (by decide),
      output_ready rfl (by decide) (by decide), fun _ => history_ready rfl⟩

theorem witness_ZeroRunCodesAppend : let s := zrleAt [0#8, 0xFF#8] [] 0#32 255#32
    InputReady s 2 ∧ OutputReady s (0xFF#8).toNat ∧ InputReady s 1 ∧ OutputReady s 1 :=
  ⟨input_ready rfl (by decide), output_ready rfl (by decide) (by decide), input_ready rfl (by decide),
    output_ready rfl (by decide) (by decide)⟩

theorem witness_ZeroRunWithoutItsCountFails : let s := zrleAt [1#8, 0#8] [1#8] 1#32 16#32
    s.phase = .zrle ∧ s.unsettled = false ∧ InputReady s 1 ∧ s.opr.srcLen.toNat = s.eng.inPos.toNat + 1 :=
  ⟨rfl, rfl, input_ready rfl (by decide), by decide⟩

theorem witness_ZeroRunStreamEndsWithItsInput : let s := zrleAt [1#8] [1#8] 1#32 1#32
    s.host = [] ∧ s.phase = .zrle ∧ s.unsettled = false ∧ s.eng.inPos = s.opr.srcLen := by decide

/-- The hypotheses of that statement for a stream code. -/
def writeRefused (s : State) (i : Instr) (m : Nat) (out : List Byte) : Prop :=
  s.unsettled = false ∧ Appends s i out ∧ m < out.length ∧ s.eng.outLen.toNat + m < s.opr.dstCap.toNat ∧
    InputReady s (readBefore m i) ∧ OutputReady s m ∧ (readsHistory i → HistoryReady s) ∧
    admits s.platform (outAddr s (s.eng.outLen.toNat + m)) = false

/-- Every code: the platform ends at its first byte, or at its last. -/
theorem witness_RefusedWriteIsABusError_code :
    writeRefused (upTo 3 1 (lcwAt .abs [0x82#8, 1#8, 2#8] [] 0#32 16#32)) (.lit [1#8, 2#8]) 1 [1#8, 2#8] ∧
    writeRefused (upTo 2 3 (lcwAt .abs [0x00#8, 1#8] [5#8] 0#32 16#32)) (.sref 0#3 1#12) 2 [5#8, 5#8, 5#8] ∧
    writeRefused (upTo 4 2 (lcwAt .abs [0xFE#8, 3#8, 0#8, 7#8] [] 0#32 16#32)) (.run 3#16 7#8) 2 [7#8, 7#8, 7#8] ∧
    writeRefused (upTo 5 1 (lcwAt .abs [0xFF#8, 2#8, 0#8, 0#8, 0#8] [5#8] 0#32 16#32)) (.lref 2#16 0#16) 0 [5#8, 5#8] ∧
    writeRefused (upTo 3 4 (lcwAt .rel [0xC0#8, 2#8, 0#8] [5#8, 6#8] 0#32 16#32)) (.mref 0#6 2#16) 2 [5#8, 6#8, 5#8] ∧
    writeRefused (upTo 2 0 (zrleAt [0#8, 1#8] [] 0#32 16#32)) (.zrun 1#8) 0 [0#8] ∧
    writeRefused (upTo 1 0 (zrleAt [9#8] [] 0#32 1#32)) (.zlit 9#8) 0 [9#8] := by
  refine ⟨?_, ?_, ?_, ?_, ?_, ?_, ?_⟩
  iterate 5
    exact ⟨rfl, .inl ⟨rfl, by decide⟩, by decide, by decide, ⟨by decide, by decide⟩, ⟨by decide, by decide, by decide⟩,
      fun _ => by unfold HistoryReady; decide, by decide⟩
  iterate 2
    exact ⟨rfl, .inr ⟨rfl, by decide⟩, by decide, by decide, ⟨by decide, by decide⟩, ⟨by decide, by decide, by decide⟩,
      fun _ => by unfold HistoryReady; decide, by decide⟩

theorem witness_RefusedCodeByteIsABusError :
    (let s := only 0x1000 1 (lcwAt .abs [0x81#8, 7#8] [] 1#32 1#32)
     s.host = [] ∧ s.unsettled = false ∧ s.eng.inPos < s.opr.srcLen ∧ admits s.platform (inAddr s) = false ∧
       s.phase = .lcwCode) ∧
    (let s := only 0x2000 1 (zrleAt [7#8] [] 0#32 1#32)
     s.host = [] ∧ s.unsettled = false ∧ s.eng.inPos < s.opr.srcLen ∧ admits s.platform (inAddr s) = false ∧
       s.phase = .zrle) ∧
    (let s := only 0x2000 1 (modeAt [7#8] 1#32)
     s.host = [] ∧ s.unsettled = false ∧ s.eng.inPos < s.opr.srcLen ∧ admits s.platform (inAddr s) = false ∧
       s.phase = .lcwMode) := by decide

/-- The first and the last payload byte of a literal. -/
theorem witness_RefusedCodeByte_literal : ∀ m : Fin 2,
    let s := upTo (1 + m.val) 16 (lcwAt .abs [0x82#8, 1#8, 2#8] [] 0#32 16#32)
    s.phase = .lcwCode ∧ s.unsettled = false ∧ m.val < [1#8, 2#8].length ∧ InputReady s (1 + m.val) ∧
      s.eng.inPos.toNat + 1 + m.val < s.opr.srcLen.toNat ∧ OutputReady s m.val ∧
      admits s.platform (inAddr s + BitVec.ofNat 32 (1 + m.val)) = false := by
  intro m
  refine ⟨rfl, rfl, ?_, ⟨?_, ?_⟩, ?_, ⟨?_, ?_, ?_⟩, ?_⟩ <;> revert m <;> decide

/-- Each payload byte of the longest form; the count byte of a zero run. -/
theorem witness_RefusedCodeByte_payload :
    (∀ m : Fin 4,
      let s := upTo (1 + m.val) 16 (lcwAt .abs [0xFF#8, 4#8, 0#8, 0#8, 0#8] [] 0#32 16#32)
      s.phase = .lcwCode ∧ s.unsettled = false ∧ InputReady s (1 + m.val) ∧
        s.eng.inPos.toNat + 1 + m.val < s.opr.srcLen.toNat ∧
        admits s.platform (inAddr s + BitVec.ofNat 32 (1 + m.val)) = false) ∧
    (let s := upTo 1 16 (zrleAt [0#8, 4#8] [] 0#32 16#32)
     s.phase = .zrle ∧ s.unsettled = false ∧ InputReady s (1 + 0) ∧ s.eng.inPos.toNat + 1 + 0 < s.opr.srcLen.toNat ∧
       admits s.platform (inAddr s + BitVec.ofNat 32 (1 + 0)) = false) := by
  refine ⟨fun m => ?_, rfl, rfl, ⟨by decide, by decide⟩, by decide, by decide⟩
  refine ⟨rfl, rfl, ⟨?_, ?_⟩, ?_, ?_⟩ <;> revert m <;> decide

/-- The hypotheses of that statement for a byte of the history. -/
def historyRefused (s : State) (i : Instr) (base n used j : Nat) : Prop :=
  s.phase = .lcwCode ∧ s.unsettled = false ∧ CopiesFrom s i base n used ∧ j < n ∧ base + j < s.eng.outLen.toNat ∧
    InputReady s used ∧ OutputReady s j ∧ (∀ k, base ≤ k → k < base + j → admits s.platform (outAddr s k) = true) ∧
    admits s.platform (outAddr s (base + j)) = false

/-- SREF at position 1, whose one read is refused; SREF, LREF and MREF (in either mode) at the last byte of the history. -/
theorem witness_RefusedCodeByte_history :
    historyRefused (upTo 5 0 (lcwAt .rel [0x00#8, 1#8] [7#8] 0#32 16#32)) (.sref 0#3 1#12) 0 3 2 0 ∧
    historyRefused { lcwAt .abs [0x00#8, 2#8] [7#8, 8#8] 0#32 16#32 with
      platform := [⟨⟨0x1000, 5⟩, .ordinary⟩, ⟨⟨0x2000, 1⟩, .ordinary⟩, ⟨⟨0x2002, 4⟩, .ordinary⟩] } (.sref 0#3 2#12) 0 3 2 1 ∧
    historyRefused { lcwAt .abs [0xFF#8, 2#8, 0#8, 0#8, 0#8] [7#8, 8#8] 0#32 16#32 with
      platform := [⟨⟨0x1000, 5⟩, .ordinary⟩, ⟨⟨0x2000, 1⟩, .ordinary⟩, ⟨⟨0x2002, 4⟩, .ordinary⟩] } (.lref 2#16 0#16) 0 2 5 1 ∧
    historyRefused { lcwAt .rel [0xC0#8, 2#8, 0#8] [7#8, 8#8] 0#32 16#32 with
      platform := [⟨⟨0x1000, 5⟩, .ordinary⟩, ⟨⟨0x2000, 1⟩, .ordinary⟩, ⟨⟨0x2002, 4⟩, .ordinary⟩] } (.mref 0#6 2#16) 0 3 3 1 := by
  refine ⟨⟨rfl, rfl, .inl ⟨0#3, 1#12, rfl, by decide⟩, ?_⟩, ⟨rfl, rfl, .inl ⟨0#3, 2#12, rfl, by decide⟩, ?_⟩,
    ⟨rfl, rfl, .inr (.inl ⟨2#16, 0#16, rfl, rfl, rfl, .inr ⟨rfl, by decide⟩⟩), ?_⟩,
    ⟨rfl, rfl, .inr (.inr ⟨0#6, 2#16, rfl, rfl, rfl, .inl ⟨rfl, by decide⟩⟩), ?_⟩⟩
  · exact ⟨by decide, by decide, ⟨by decide, by decide⟩, ⟨by decide, by decide, by decide⟩, fun k _ _ => by omega, by decide⟩
  iterate 3
    refine ⟨by decide, by decide, ⟨by decide, by decide⟩, ⟨by decide, by decide, by decide⟩, fun k _ hk => ?_, by decide⟩
    obtain rfl : k = 0 := by omega
    decide

/-- I3, I4. -/
theorem witness_IntersectionIsTheCommonPoints :
    Rect.intersect ⟨0, 0, 4, 4⟩ ⟨2, 2, 4, 4⟩ = some ⟨2, 2, 2, 2⟩ ∧ Rect.intersect ⟨0, 0, 2, 2⟩ ⟨2, 0, 2, 2⟩ = none := by decide

/-- K1, K2, K5. -/
theorem witness_ClippedRectLiesInTheBitmap : (Rect.clip ⟨-2, 0, 4, 2⟩ 4 4) = ⟨0, 0, 2, 2⟩ ∧
    (Rect.clip ⟨5, 5, 2, 2⟩ 2 2) = Rect.empty ∧
    (Rect.clip ⟨-2147483648, -2147483648, 4294967295, 4294967295⟩ 4 4) = ⟨0, 0, 4, 4⟩ ∧
    ¬(Rect.clip ⟨-2, 0, 4, 2⟩ 4 4).isEmpty := by decide

/-- The last column: equal sizes, an integer upscale, an integer downscale. -/
theorem witness_AxisMapLaws : (0 < 4 ∧ 3 < 4 ∧ 4 = 4) ∧ (0 < 2 ∧ 5 < 6 ∧ 6 = 3 * 2) ∧ (0 < 6 ∧ 1 < 2 ∧ 6 = 3 * 2) := by decide

/-- The blit of B6, just started. -/
def blitState : State := started 0x03#32 (blitOpr 0x00020002#32 0x00040004#32 0#32 0#32 2#32 2#32 0xFFFFFFFE#32 0#32 4#32 2#32)
  (storeBytes [0x0A#8, 0x0B#8, 0x0C#8, 0x0D#8] 0x5000 [])

theorem witness_BlitMapsEveryDestinationPixel : Ready .blit blitState ∧ (∀ a : Word, admits blitState.platform a = true) ∧
    (sourceClip blitState.opr).isEmpty = false ∧ (destClip blitState.opr).isEmpty = false ∧
    (destClip blitState.opr).hasPoint 0 0 ∧ (destClip blitState.opr).hasPoint 1 1 :=
  ⟨⟨rfl, rfl, by decide, by decide, by decide, by decide⟩, whole_admits, by decide, by decide,
    by unfold Rect.hasPoint; decide, by unfold Rect.hasPoint; decide⟩

/-- The platform ends before the last destination pixel (0x6005), and before the first. -/
theorem witness_RefusedWriteIsABusError_blit :
    (let s := bitmapsUpTo 4 5 blitState
     Ready .blit s ∧ (sourceClip s.opr).isEmpty = false ∧ 3 < (destClip s.opr).width * (destClip s.opr).height ∧
       (∀ j, j < 3 → admits s.platform (pixelFrom s.opr j) = true ∧ admits s.platform (pixelTo s.opr j) = true) ∧
       admits s.platform (pixelFrom s.opr 3) = true ∧ admits s.platform (pixelTo s.opr 3) = false) ∧
    (let s := bitmapsUpTo 4 0 blitState
     Ready .blit s ∧ (sourceClip s.opr).isEmpty = false ∧ 0 < (destClip s.opr).width * (destClip s.opr).height ∧
       admits s.platform (pixelFrom s.opr 0) = true ∧ admits s.platform (pixelTo s.opr 0) = false) :=
  ⟨⟨⟨rfl, rfl, by decide, by decide, by decide, by decide⟩, by decide, by decide, by decide, by decide, by decide⟩,
    ⟨⟨rfl, rfl, by decide, by decide, by decide, by decide⟩, by decide, by decide, by decide, by decide⟩⟩

/-- The platform ends before the last source pixel (0x5003), and before the first. -/
theorem witness_RefusedCodeByte_blit :
    (let s := bitmapsUpTo 3 16 blitState
     Ready .blit s ∧ (sourceClip s.opr).isEmpty = false ∧ 3 < (destClip s.opr).width * (destClip s.opr).height ∧
       (∀ j, j < 3 → admits s.platform (pixelFrom s.opr j) = true ∧ admits s.platform (pixelTo s.opr j) = true) ∧
       admits s.platform (pixelFrom s.opr 3) = false) ∧
    (let s := bitmapsUpTo 0 16 blitState
     Ready .blit s ∧ (sourceClip s.opr).isEmpty = false ∧ 0 < (destClip s.opr).width * (destClip s.opr).height ∧
       admits s.platform (pixelFrom s.opr 0) = false) :=
  ⟨⟨⟨rfl, rfl, by decide, by decide, by decide, by decide⟩, by decide, by decide, by decide, by decide⟩,
    ⟨⟨rfl, rfl, by decide, by decide, by decide, by decide⟩, by decide, by decide, by decide⟩⟩

/-- The addresses of B6's pixels, by hand: rows of 4 bytes at 0x6000 and of 2 at 0x5000. -/
theorem test_pixel_addresses : (List.range 4).map (pixelTo blitState.opr) = [0x6000#32, 0x6001#32, 0x6004#32, 0x6005#32] ∧
    (List.range 4).map (pixelFrom blitState.opr) = [0x5000#32, 0x5001#32, 0x5002#32, 0x5003#32] := by decide

/-- B7, B13. -/
theorem witness_BlitWithAnEmptyClipDoesNothing :
    (let s := started 0x03#32 (blitOpr 0x00020002#32 0x00020002#32 5#32 5#32 2#32 2#32 0#32 0#32 2#32 2#32) []
     Ready .blit s ∧ (sourceClip s.opr).isEmpty = true) ∧
    (let s := started 0x03#32 (blitOpr 0x00020002#32 0x00020002#32 0#32 0#32 2#32 2#32 0#32 0#32 2#32 0#32) []
     Ready .blit s ∧ (destClip s.opr).isEmpty = true) :=
  ⟨⟨⟨rfl, rfl, rfl, by decide, by decide, by decide⟩, by decide⟩,
    ⟨⟨rfl, rfl, rfl, by decide, by decide, by decide⟩, by decide⟩⟩

/-- The fill of F1, just started. -/
def fillState : State := started 0x04#32 (blitOpr 0#32 0x00040004#32 0#32 0#32 0#32 0#32 1#32 1#32 2#32 2#32) []

theorem witness_FillWritesTheClippedRect : Ready .fill fillState ∧ (∀ a : Word, admits fillState.platform a = true) ∧
    (destClip fillState.opr).hasPoint 1 1 ∧ (destClip fillState.opr).hasPoint 2 2 :=
  ⟨⟨rfl, rfl, rfl, by decide, by decide, by decide⟩, whole_admits, by unfold Rect.hasPoint; decide,
    by unfold Rect.hasPoint; decide⟩

/-- The platform ends before the last pixel of the rect (0x600A), and before its first (0x6005). -/
theorem witness_FillStopsAtARefusedPixel :
    (let s := only 0x6000 10 fillState
     Ready .fill s ∧ 3 < (destClip s.opr).width * (destClip s.opr).height ∧
       (∀ j, j < 3 → admits s.platform (pixelTo s.opr j) = true) ∧ admits s.platform (pixelTo s.opr 3) = false) ∧
    (let s := only 0x6000 5 fillState
     Ready .fill s ∧ 0 < (destClip s.opr).width * (destClip s.opr).height ∧ admits s.platform (pixelTo s.opr 0) = false) :=
  ⟨⟨⟨rfl, rfl, rfl, by decide, by decide, by decide⟩, by decide, by decide, by decide⟩,
    ⟨⟨rfl, rfl, rfl, by decide, by decide, by decide⟩, by decide, by decide⟩⟩

theorem witness_PalClearEmptiesThePalette : Ready .palClear (palAt 0x10#32 [red] 0#32 0#16) :=
  ⟨rfl, rfl, rfl, by decide, by decide, by decide⟩

theorem reds_different {n : Nat} (h : n ≤ 256) : (reds n).Nodup := by
  refine List.Nodup.map_on (fun a ha b hb hab => ?_) List.nodup_range
  have := congrArg BitVec.toNat (Color.mk.inj hab).1
  simp only [List.mem_range, BitVec.toNat_ofNat] at *
  omega

/-- Present at the last index; absent with one free entry; absent and full. -/
theorem witness_PalPushAppendsOrFinds :
    (Ready .palPush (palAt 0x11#32 [black, red] 0xFF#32 0#16) ∧ [black, red].Nodup ∧ [black, red][1]? = some (colorOf 0xFF#32)) ∧
    (Ready .palPush (palAt 0x11#32 (reds 255) 0x010000#32 0#16) ∧ (reds 255).Nodup ∧ colorOf 0x010000#32 ∉ reds 255 ∧
      (reds 255).length < Config.palCap) ∧
    (Ready .palPush (palAt 0x11#32 (reds 256) 0x010000#32 0#16) ∧ (reds 256).Nodup ∧ colorOf 0x010000#32 ∉ reds 256 ∧
      Config.palCap ≤ (reds 256).length) :=
  ⟨⟨⟨rfl, rfl, rfl, by decide, by decide, by decide⟩, by decide, by decide⟩,
    ⟨⟨rfl, rfl, rfl, by decide, by decide, by decide⟩, reds_different (by decide), by decide +kernel, by decide +kernel⟩,
    ⟨⟨rfl, rfl, rfl, by decide, by decide, by decide⟩, reds_different (by decide), by decide +kernel, by decide +kernel⟩⟩

theorem witness_PalFindHitsOrMisses :
    (Ready .palFind (palAt 0x13#32 [black, red] 0xFF#32 0#16) ∧ [black, red].Nodup ∧ [black, red][1]? = some (colorOf 0xFF#32)) ∧
    (Ready .palFind (palAt 0x13#32 [] 0xFF#32 0#16) ∧ ([] : List Color).Nodup ∧ colorOf 0xFF#32 ∉ ([] : List Color)) :=
  ⟨⟨⟨rfl, rfl, rfl, by decide, by decide, by decide⟩, by decide, by decide⟩,
    ⟨⟨rfl, rfl, rfl, by decide, by decide, by decide⟩, by decide, by decide⟩⟩

/-- The last valid index, and the one after it. -/
theorem witness_PalReadGivesTheEntry :
    (Ready .palRead (palAt 0x14#32 [black, red] 0#32 1#16) ∧ [black, red][(1#16).toNat]? = some red) ∧
    (Ready .palRead (palAt 0x14#32 [black, red] 0#32 2#16) ∧ [black, red].length ≤ (2#16).toNat) :=
  ⟨⟨⟨rfl, rfl, rfl, by decide, by decide, by decide⟩, by decide⟩, ⟨⟨rfl, rfl, rfl, by decide, by decide, by decide⟩, by decide⟩⟩

/-- P-8, and a load of length 0 (P-13). -/
theorem witness_PalLoadPushesTheEntries :
    (let s := loadAt [] [0#8, 0#8, 0#8, 0x3F#8, 0x3F#8, 0x3F#8]
     Ready .palLoad6 s ∧ s.opr.srcLen.toNat % 3 = 0 ∧
       (∀ k, k < s.opr.srcLen.toNat → admits s.platform (s.opr.srcAddr + BitVec.ofNat 32 k) = true) ∧
       pushMany ((List.range (s.opr.srcLen.toNat / 3)).map (rawColor s)) (s.palette, s.palIndex, s.status.found) =
         some ([black, white], 1#16, false)) ∧
    (let s := loadAt [red] []
     Ready .palLoad6 s ∧ s.opr.srcLen.toNat % 3 = 0 ∧
       (∀ k, k < s.opr.srcLen.toNat → admits s.platform (s.opr.srcAddr + BitVec.ofNat 32 k) = true) ∧
       pushMany ((List.range (s.opr.srcLen.toNat / 3)).map (rawColor s)) (s.palette, s.palIndex, s.status.found) =
         some ([red], 0#16, false)) :=
  ⟨⟨⟨rfl, rfl, by decide, by decide, by decide, by decide⟩, by decide, fun k _ => whole_admits _, by decide⟩,
    ⟨⟨rfl, rfl, rfl, by decide, by decide, by decide⟩, by decide, fun k _ => whole_admits _, by decide⟩⟩

/-- The last channel of entry 1 is refused, and the first of entry 0. -/
theorem witness_RefusedCodeByte_palLoad6 :
    (let s := only 0x4000 5 (loadAt [] [0#8, 0#8, 0#8, 0x3F#8, 0x3F#8, 0x3F#8])
     Ready .palLoad6 s ∧ s.opr.srcLen.toNat % 3 = 0 ∧ 5 < s.opr.srcLen.toNat ∧
       (∀ j, j < 5 → admits s.platform (s.opr.srcAddr + BitVec.ofNat 32 j) = true) ∧
       admits s.platform (s.opr.srcAddr + BitVec.ofNat 32 5) = false ∧
       pushMany ((List.range (5 / 3)).map (rawColor s)) (s.palette, s.palIndex, s.status.found) =
         some ([black], 0#16, false)) ∧
    (let s := only 0x4001 5 (loadAt [red] [0#8, 0#8, 0#8])
     Ready .palLoad6 s ∧ s.opr.srcLen.toNat % 3 = 0 ∧ 0 < s.opr.srcLen.toNat ∧
       admits s.platform (s.opr.srcAddr + BitVec.ofNat 32 0) = false ∧
       pushMany ((List.range (0 / 3)).map (rawColor s)) (s.palette, s.palIndex, s.status.found) =
         some ([red], 0#16, false)) :=
  ⟨⟨⟨rfl, rfl, by decide, by decide, by decide, by decide⟩, by decide, by decide, by decide, by decide, by decide⟩,
    ⟨⟨rfl, rfl, by decide, by decide, by decide, by decide⟩, by decide, by decide, by decide, by decide⟩⟩

theorem witness_DistinctEntriesKeepTheirIndex : (reds 256).Nodup ∧ (reds 256).length ≤ Config.palCap ∧ reds 256 ≠ [] :=
  ⟨reds_different (by decide), by decide +kernel, by decide +kernel⟩

/-- P-12: entry 1 finds no room. -/
theorem witness_PalLoadKeepsTheEntriesBeforeAFullPalette : let s := loadAt (reds 255) [1#8, 1#8, 1#8, 2#8, 2#8, 2#8]
    Ready .palLoad6 s ∧ s.opr.srcLen.toNat % 3 = 0 ∧ 1 < s.opr.srcLen.toNat / 3 ∧
      (∀ k, k < s.opr.srcLen.toNat → admits s.platform (s.opr.srcAddr + BitVec.ofNat 32 k) = true) ∧
      pushMany ((List.range 1).map (rawColor s)) (s.palette, s.palIndex, s.status.found) =
        some (reds 255 ++ [grey], 255#16, false) ∧
      rawColor s 1 ∉ reds 255 ++ [grey] ∧
      Config.palCap ≤ (reds 255 ++ [grey]).length :=
  ⟨⟨rfl, rfl, by decide, by decide, by decide, by decide⟩, by decide, by decide, fun k _ => whole_admits _, by decide +kernel,
    by decide +kernel, by decide +kernel⟩

/-- A push of red into a palette of black; then white is pushed too, and red is looked up and read. -/
theorem witness_PaletteRoundTrip :
    let s := palAt 0x11#32 [black] 0xFF#32 0#16
    let u := palAt 0x13#32 [black, red, white] 0xFF#32 0#16
    let w := palAt 0x14#32 [black, red, white] 0#32 1#16
    Ready .palPush s ∧ (∃ t, exec .palPush s = .next t ∧ t.status.err = false ∧ u.palette = t.palette ++ [white]) ∧
      Ready .palFind u ∧ u.palette.length ≤ Config.palCap ∧ u.palColor = s.palColor ∧
      (∃ v, exec .palFind u = .next v ∧ w.palIndex = v.palIndex) ∧ Ready .palRead w ∧ w.palette = u.palette :=
  ⟨⟨rfl, rfl, rfl, by decide, by decide, by decide⟩, ⟨_, rfl, rfl, rfl⟩, ⟨rfl, rfl, rfl, by decide, by decide, by decide⟩,
    by decide, rfl, ⟨_, rfl, rfl⟩, ⟨rfl, rfl, rfl, by decide, by decide, by decide⟩, rfl⟩

theorem witness_PaletteRoundTrip_read_first :
    let s := palAt 0x14#32 [black, red] 0#32 1#16
    let u := palAt 0x13#32 [black, red] 0xFF#32 0#16
    Ready .palRead s ∧ s.palette.Nodup ∧ s.palIndex.toNat < s.palette.length ∧ Ready .palFind u ∧ u.palette = s.palette ∧
      (∃ t, exec .palRead s = .next t ∧ u.palColor = t.palColor) :=
  ⟨⟨rfl, rfl, rfl, by decide, by decide, by decide⟩, by decide, by decide, ⟨rfl, rfl, rfl, by decide, by decide, by decide⟩, rfl,
    ⟨_, rfl, rfl⟩⟩

/-- One byte too many, in each window a command has. -/
theorem witness_WindowPastTheTopIsARangeError :
    (∃ w ∈ windows .lcwDecode (streamOpr 0xFFFFFFFF#32 2#32 0#32 0#32), Config.addrSpace < w.base + w.len) ∧
    (∃ w ∈ windows .zrleExpand (streamOpr 0#32 1#32 0xFFFFFFFF#32 2#32), Config.addrSpace < w.base + w.len) ∧
    (∃ w ∈ windows .palLoad6 (streamOpr 0xFFFFFFFF#32 4#32 0#32 0#32), Config.addrSpace < w.base + w.len) ∧
    (∃ w ∈ windows .blit { State.reset.opr with bsAddr := 0xFFFFFFFD#32, bsDim := 0x00020002#32 },
      Config.addrSpace < w.base + w.len) ∧
    (∃ w ∈ windows .fill { State.reset.opr with bdAddr := 0xFFFFFFFF#32, bdDim := 0x00010002#32 },
      Config.addrSpace < w.base + w.len) ∧
    (started 0x12#32 (streamOpr 0xFFFFFFFF#32 4#32 0#32 0#32) []).phase = .accepted ∧
    (started 0x12#32 (streamOpr 0xFFFFFFFF#32 4#32 0#32 0#32) []).unsettled = false := by decide

theorem witness_PalLoadOfABadLengthFails : let s := started 0x12#32 (streamOpr 0x4000#32 4#32 0#32 0#32) []
    s.phase = .accepted ∧ s.unsettled = false ∧ windowsInRange .palLoad6 s.opr = true ∧ s.opr.srcLen.toNat % 3 ≠ 0 := by decide

/-- A device at the last byte of the output window, and one at the first byte of a raw palette. -/
theorem witness_WindowOverADeviceIsRefused :
    (let s := { started 0x01#32 (streamOpr 0x1000#32 2#32 0x2000#32 16#32) [] with platform := [⟨⟨0x200F, 1⟩, .device⟩] }
     windowsInRange .lcwDecode s.opr = true ∧ ∃ r ∈ s.platform, r.kind = .device ∧ ∃ w ∈ windows .lcwDecode s.opr, ∃ a : Nat,
       r.range.base ≤ a ∧ a < r.range.base + r.range.len ∧ w.base ≤ a ∧ a < w.base + w.len) ∧
    (let s := { started 0x12#32 (streamOpr 0x4000#32 3#32 0#32 0#32) [] with platform := [⟨⟨0x3FFF, 2⟩, .device⟩] }
     windowsInRange .palLoad6 s.opr = true ∧ s.opr.srcLen.toNat % 3 = 0 ∧ ∃ r ∈ s.platform, r.kind = .device ∧
       ∃ w ∈ windows .palLoad6 s.opr, ∃ a : Nat,
         r.range.base ≤ a ∧ a < r.range.base + r.range.len ∧ w.base ≤ a ∧ a < w.base + w.len) :=
  ⟨⟨by decide, _, List.mem_singleton_self _, rfl, ⟨0x2000, 16⟩, by decide, 0x200F, by decide, by decide, by decide, by decide⟩,
    ⟨by decide, by decide, _, List.mem_singleton_self _, rfl, ⟨0x4000, 3⟩, by decide, 0x4000, by decide, by decide, by decide,
      by decide⟩⟩

/-- `CMD`, the first and the last operand register, and the last reserved offset. -/
theorem witness_WritesWhileBusyAreIgnored :
    ([0x00#8, 0x10#8, 0x74#8, 0xFC#8].all fun offset =>
      let s := hosted (.regWrite offset .word 0xFFFFFFFF#32) (started 0x01#32 State.reset.opr [])
      s.busy && decide (s.host = ⟨0, .regWrite offset .word 0xFFFFFFFF#32⟩ :: []) && decide (offset.toNat % 4 = 0) &&
        decide (offset ≠ 0x04#8) && decide (offset ≠ 0x0C#8)) = true := by decide

theorem witness_StatusAndEnableWritesTakeEffect :
    (hosted (.regWrite 0x04#8 .word 6#32) State.reset).host = ⟨0, .regWrite 0x04#8 .word 6#32⟩ :: [] ∧
    (hosted (.regWrite 0x0C#8 .word 3#32) State.reset).host = ⟨0, .regWrite 0x0C#8 .word 3#32⟩ :: [] := by decide

/-- The first and the last operand register, and the last aligned offset of the window. -/
theorem witness_OperandRegistersReadBack : State.reset.phase = .idle ∧ 0x10#8 ∈ [0x10#8, 0x5C#8] ∧ 0x5C#8 ∈ [0x10#8, 0x5C#8] ∧
    (0xFC#8).toNat % 4 = 0 ∧ (hosted (.regRead 0xFC#8 .word) State.reset).host = ⟨0, .regRead 0xFC#8 .word⟩ :: [] ∧
    (hosted (.regWrite 0x00#8 .word 1#32) State.reset).host = ⟨0, .regWrite 0x00#8 .word 1#32⟩ :: [] := by decide

/-- R21, R250: a colour's word, and the flags' word. -/
theorem test_register_words :
    readReg 0x70#8 { State.reset with palColor := { r := 0x12#8, g := 0x34#8, b := 0x56#8 } } = 0x00563412#32 ∧
    readReg 0x0C#8 { State.reset with irqEn := { doneIe := true, errIe := false } } = 1#32 ∧
    (writeReg 0x38#8 7#32 State.reset).opr = { State.reset.opr with bdAddr := 7#32 } ∧
    readReg 0x28#8 { State.reset with errAddr := 7#32 } = 7#32 := by decide

/-- The first and the last reserved offsets of the upper half, and the last RO register. -/
theorem witness_ReadOnlyAndReservedOffsets : (0x80#8).toNat % 4 = 0 ∧ 0x80 ≤ (0x80#8).toNat ∧ (0xFC#8).toNat % 4 = 0 ∧
    0x80 ≤ (0xFC#8).toNat ∧ (0x7C#8).toNat ∈ [0x08, 0x20, 0x24, 0x28, 0x2C, 0x64, 0x68, 0x6C, 0x78, 0x7C] := by decide

theorem witness_NarrowOrMisalignedAccessIsABusError : (AccessWidth.half ≠ .word ∨ (0x04#8).toNat % 4 ≠ 0) ∧
    (AccessWidth.word ≠ .word ∨ (0xFF#8).toNat % 4 ≠ 0) ∧
    (hosted (.regRead 0x04#8 .half) State.reset).host = ⟨0, .regRead 0x04#8 .half⟩ :: [] ∧
    (hosted (.regWrite 0xFF#8 .word 1#32) State.reset).host = ⟨0, .regWrite 0xFF#8 .word 1#32⟩ :: [] := by decide

theorem witness_StatusBitsAndInterruptLine :
    (hosted (.regRead 0x04#8 .word) State.reset).host = ⟨0, .regRead 0x04#8 .word⟩ :: [] ∧
    (hosted .sampleIrq State.reset).host = ⟨0, .sampleIrq⟩ :: [] := by decide

/-- The last byte of the output window is read, the first byte of the input window is written. -/
theorem witness_HostAccessToALiveWindow :
    (let s := hosted (.memRead 0x200F#32) (lcwAt .abs [0x80#8] [] 0#32 16#32)
     running s = some .lcwDecode ∧ windowsInRange .lcwDecode s.opr = true ∧ s.mem.wf = true ∧
       s.host = ⟨0, .memRead 0x200F#32⟩ :: [] ∧ s.unsettled = false ∧ windowsOverlap .lcwDecode s.opr = false ∧
       ∃ w ∈ writtenWindows .lcwDecode s.opr, w.base ≤ (0x200F#32).toNat ∧ (0x200F#32).toNat < w.base + w.len) ∧
    (let s := hosted (.memWrite 0x1000#32 9#8) (lcwAt .abs [0x80#8] [] 0#32 16#32)
     running s = some .lcwDecode ∧ windowsInRange .lcwDecode s.opr = true ∧ s.mem.wf = true ∧
       s.host = ⟨0, .memWrite 0x1000#32 9#8⟩ :: [] ∧
       ∃ w ∈ windows .lcwDecode s.opr, w.base ≤ (0x1000#32).toNat ∧ (0x1000#32).toNat < w.base + w.len) := by decide

theorem witness_UnspecifiedResultsStillEnd : ∃ s t : State, s.unsettled = true ∧ t = complete s :=
  ⟨{ lcwAt .abs [0x80#8] [] 0#32 16#32 with unsettled := true }, _, rfl, rfl⟩

/-- A reset while idle, and one in a decode: the byte before its output window, and the window's first byte. -/
theorem witness_ResetInputAbandonsTheCommand :
    (hosted .reset State.reset).host = ⟨0, .reset⟩ :: [] ∧ (hosted .reset State.reset).phase = .idle ∧
    (let s := hosted .reset (lcwAt .abs [0x80#8] [] 0#32 16#32)
     s.host = ⟨0, .reset⟩ :: [] ∧ inSome (liveWritten s) 0x1FFF = false ∧ running s = some .lcwDecode ∧ s.mem.wf = true ∧
       s.unsettled = false ∧ windowsOverlap .lcwDecode s.opr = false ∧ inSome (liveWritten s) 0x2000 = true) := by decide

theorem witness_ResetLeavesTheRegistersAtZero : 0x00#8 ≠ 0x7C#8 ∧ 0xFF#8 ≠ 0x7C#8 := by decide

/-- A decode at its mode byte meets the invariant, takes a step, and is not over a device. -/
theorem witness_EveryStepKeepsTheInvariant : (modeAt [] 16#32).Inv ∧ ∃ t, step (modeAt [] 16#32) = .next t :=
  ⟨modeAt_inv, _, rfl⟩

theorem witness_EveryCommandEnds : (modeAt [] 16#32).Inv ∧ (modeAt [] 16#32).host = [] ∧
    (∀ i, running (modeAt [] 16#32) = some i → overDevice i (modeAt [] 16#32) = false) ∧ (modeAt [] 16#32).busy = true :=
  ⟨modeAt_inv, rfl, fun i h => by cases h; decide, rfl⟩

theorem witness_EngineWritesOnlyItsWindows : (modeAt [] 16#32).Inv ∧ (modeAt [] 16#32).host = [] ∧
    (∃ t, step (modeAt [] 16#32) = .next t) ∧ inSome (liveWritten (modeAt [] 16#32)) 0x2010 = false :=
  ⟨modeAt_inv, rfl, ⟨_, rfl⟩, by decide⟩

theorem witness_ResultsChangeOnlyAtTheEnd : ∃ s t : State, s.host = [] ∧ step s = .next t ∧ t.busy = true :=
  ⟨lcwAt .abs [0x81#8, 7#8] [] 0#32 1#32, _, rfl, rfl, by decide⟩

theorem witness_InstructionFrame :
    (∃ t, exec .palRead (palAt 0x14#32 [red] 0#32 0#16) = .next t) ∧ (palAt 0x14#32 [red] 0#32 0#16).unsettled = false ∧
    windowsOverlap .palRead (palAt 0x14#32 [red] 0#32 0#16).opr = false ∧
    (∃ t, exec .blit blitState = .next t) ∧ blitState.unsettled = false ∧ windowsOverlap .blit blitState.opr = false :=
  ⟨⟨_, rfl⟩, by decide, by decide, ⟨_, rfl⟩, by decide, by decide⟩

/-- The bytes just before and just after what a literal appends, and a byte between two rows of the clipped rect. -/
theorem witness_InstructionFrame_memory :
    (let s := lcwAt .abs [0x82#8, 1#8, 2#8] [5#8] 0#32 16#32
     (∃ t, exec (.lit [1#8, 2#8]) s = .next t) ∧ s.unsettled = false ∧ windowsOverlap (.lit [1#8, 2#8]) s.opr = false ∧
       (Instr.lit [1#8, 2#8]).codeSet = .lcw ∧
       (∀ j, j < appendCount (.lit [1#8, 2#8]) → 0x2000 ≠ (outAddr s (s.eng.outLen.toNat + j)).toNat) ∧
       (∀ j, j < appendCount (.lit [1#8, 2#8]) → 0x2003 ≠ (outAddr s (s.eng.outLen.toNat + j)).toNat)) ∧
    (∀ ij ∈ offsets (clippedDest blitState.opr).width (clippedDest blitState.opr).height,
      0x6002 ≠ (destPixel blitState.opr ij).toNat) :=
  ⟨⟨⟨_, rfl⟩, rfl, by decide, rfl, by decide, by decide⟩, by decide⟩

/-- A whole stream just started, at 0x1000, with an output window of `cap` bytes at 0x2000. -/
def streamStart (w : Word) (bytes : List Byte) (cap : Word) : State :=
  started w (streamOpr 0x1000#32 (BitVec.ofNat 32 bytes.length) 0x2000#32 cap) (storeBytes bytes 0x1000 [])

/-- L10 with a byte after the terminator, relative; L9, absolute. -/
theorem witness_LcwDecodeProducesItsStream :
    (let stream := [0#8, 0x83#8, 1#8, 2#8, 3#8, 0xC0#8, 1#8, 0#8, 0x80#8]
     let codes := [.lit [1#8, 2#8, 3#8], .mref 0#6 1#16]
     let s := streamStart 0x01#32 (stream ++ [9#8]) 6#32
     s.cmd = 0x01#32 ∧ s.host = [] ∧ Ready .lcwDecode s ∧ OutputAnswers s ∧ (∀ i ∈ codes, WellFormed i) ∧
       lcwOutput .rel codes [] = some [1#8, 2#8, 3#8, 3#8, 3#8, 3#8] ∧ 6 ≤ s.opr.dstCap.toNat ∧
       stream = encode .modeRel ++ encodeAll codes ++ encode .endMark ∧ InputIs s (stream ++ [9#8])) ∧
    (let stream := [0x83#8, 1#8, 2#8, 3#8, 0xC0#8, 1#8, 0#8, 0x80#8]
     let codes := [.lit [1#8, 2#8, 3#8], .mref 0#6 1#16]
     let s := streamStart 0x01#32 stream 6#32
     s.cmd = 0x01#32 ∧ s.host = [] ∧ Ready .lcwDecode s ∧ OutputAnswers s ∧ (∀ i ∈ codes, WellFormed i) ∧
       lcwOutput .abs codes [] = some [1#8, 2#8, 3#8, 2#8, 3#8, 2#8] ∧ 6 ≤ s.opr.dstCap.toNat ∧
       stream = encodeAll codes ++ encode .endMark ∧ stream.head? ≠ some 0x00#8 ∧ InputIs s (stream ++ [])) :=
  ⟨⟨rfl, rfl, ⟨rfl, rfl, by decide, by decide, by decide, by decide⟩, fun k _ => whole_admits _, by decide, by decide, by decide,
      by decide, ⟨by decide, by decide, fun k _ => whole_admits _⟩⟩,
    ⟨rfl, rfl, ⟨rfl, rfl, by decide, by decide, by decide, by decide⟩, fun k _ => whole_admits _, by decide, by decide, by decide,
      by decide, by decide, ⟨by decide, by decide, fun k _ => whole_admits _⟩⟩⟩

/-- Z2. -/
theorem witness_ZrleExpandProducesItsStream :
    let codes := [.zlit 3#8, .zrun 2#8]
    let s := streamStart 0x02#32 [3#8, 0#8, 2#8] 3#32
    s.cmd = 0x02#32 ∧ s.host = [] ∧ Ready .zrleExpand s ∧ OutputAnswers s ∧ (∀ i ∈ codes, WellFormed i) ∧
      zrleOutput codes = some [3#8, 0#8, 0#8] ∧ 3 ≤ s.opr.dstCap.toNat ∧ InputIs s (encodeAll codes) :=
  ⟨rfl, rfl, ⟨rfl, rfl, by decide, by decide, by decide, by decide⟩, fun k _ => whole_admits _, by decide, by decide, by decide,
    ⟨by decide, by decide, fun k _ => whole_admits _⟩⟩

end Sys2Proof.Tests
end

section
/-! SUPPORT. The register map as the host sees it: what an aligned access does, what a write leaves while the block is busy
and what it changes while it is idle, and the words that the packed registers read as. -/

namespace Sys2Proof.Machine

/-! ### The block's own phase -/

theorem busy_of_idle {s : State} (h : s.phase = .idle) : s.busy = false := by simp [State.busy, h]

theorem busy_of_accepted {s : State} (h : s.phase = .accepted) : s.busy = true := by simp [State.busy, h]

theorem busy_of_stream {s : State} (h : s.phase = .lcwMode ∨ s.phase = .lcwCode ∨ s.phase = .zrle) : s.busy = true := by
  rcases h with h | h | h <;> simp [State.busy, h]

/-! ### Aligned accesses -/

theorem step_regRead {s : State} {offset : BitVec 8} {later : List HostEvent}
    (h : s.host = ⟨0, .regRead offset .word⟩ :: later) (ha : offset.toNat % 4 = 0) :
    step s = .next { s with host := later, busReply := .word (readReg offset { s with host := later }) } := by
  simp [step_host h, hostAct, hostRegRead, accessOk, ha]

theorem step_regWrite {s : State} {offset : BitVec 8} {v : Word} {later : List HostEvent}
    (h : s.host = ⟨0, .regWrite offset .word v⟩ :: later) (ha : offset.toNat % 4 = 0) :
    step s = .next { writeReg offset v { s with host := later } with busReply := .ack } := by
  simp [step_host h, hostAct, hostRegWrite, accessOk, ha]

/-! ### Offsets -/

/-- The offsets at which a write can have an effect (R21). -/
def writableOffsets : List Nat :=
  [0x00, 0x04, 0x0C, 0x10, 0x14, 0x18, 0x1C, 0x30, 0x34, 0x38, 0x3C, 0x40, 0x44, 0x48, 0x4C, 0x50, 0x54, 0x58, 0x5C,
    0x60, 0x70, 0x74]

/-- The offsets at which a register that can be read stands (R21). -/
def readableOffsets : List Nat :=
  [0x04, 0x08, 0x0C, 0x10, 0x14, 0x18, 0x1C, 0x20, 0x24, 0x28, 0x30, 0x34, 0x38, 0x3C, 0x40, 0x44, 0x48, 0x4C, 0x50,
    0x54, 0x58, 0x5C, 0x60, 0x70, 0x74, 0x78, 0x7C]

theorem writeReg_unmapped {offset : BitVec 8} (h : offset.toNat ∉ writableOffsets) (v : Word) (s : State) :
    writeReg offset v s = s := by
  unfold writeReg
  split <;> simp_all [writableOffsets]

theorem readReg_unmapped {offset : BitVec 8} (h : offset.toNat ∉ readableOffsets) (s : State) :
    readReg offset s = 0#32 := by
  unfold readReg
  split <;> simp_all [readableOffsets]

/-- Every register but `PAL_CAPR` reads 0 after reset (R55). -/
theorem readReg_reset {offset : BitVec 8} (h : offset ≠ 0x7C#8) : readReg offset State.reset = 0#32 := by
  unfold readReg
  split
  case h_27 he => exact absurd (BitVec.eq_of_toNat_eq he) h
  all_goals rfl

/-! ### Writes while the block is busy, and while it is idle -/

@[simp] theorem writeCmd_busy {s : State} (h : s.busy = true) (v : Word) : writeCmd v s = s := if_pos h

@[simp] theorem writeOpr_busy {s : State} (h : s.busy = true) (f : Operands → Operands) : writeOpr f s = s := if_pos h

@[simp] theorem writePalColor_busy {s : State} (h : s.busy = true) (v : Word) : writePalColor v s = s := if_pos h

@[simp] theorem writePalIndex_busy {s : State} (h : s.busy = true) (v : Word) : writePalIndex v s = s := if_pos h

/-- R54: only `STATUS` and `IRQ_EN` take a write while the block is busy. -/
theorem writeReg_busy {s : State} {offset : BitVec 8} (hb : s.busy = true) (h4 : offset ≠ 0x04#8) (hC : offset ≠ 0x0C#8)
    (v : Word) : writeReg offset v s = s := by
  have n4 : offset.toNat ≠ 0x04 := fun h => h4 (BitVec.eq_of_toNat_eq h)
  have nC : offset.toNat ≠ 0x0C := fun h => hC (BitVec.eq_of_toNat_eq h)
  unfold writeReg
  split <;> simp_all

theorem writeCmd_idle {s : State} (h : s.phase = .idle) (v : Word) : writeCmd v s = startCommand v s := by
  simp [writeCmd, busy_of_idle h]

theorem writeOpr_idle {s : State} (h : s.phase = .idle) (f : Operands → Operands) :
    writeOpr f s = { s with opr := f s.opr } := by simp [writeOpr, busy_of_idle h]

theorem writePalColor_idle {s : State} (h : s.phase = .idle) (v : Word) :
    writePalColor v s = { s with palColor := colorOf v } := by simp [writePalColor, busy_of_idle h]

theorem writePalIndex_idle {s : State} (h : s.phase = .idle) (v : Word) :
    writePalIndex v s = { s with palIndex := v.extractLsb' 0 16 } := by simp [writePalIndex, busy_of_idle h]

/-- What a register write can do. -/
inductive RegWrite (v : Word) (s : State) : State → Prop where
  | start (idle : s.phase = .idle) : RegWrite v s (startCommand v s)
  | acknowledge : RegWrite v s (acknowledge v s)
  | enables (e : IrqEnable) : RegWrite v s { s with irqEn := e }
  | operands (idle : s.phase = .idle) (o : Operands) (c : Color) (i : BitVec 16) :
      RegWrite v s { s with opr := o, palColor := c, palIndex := i }
  | ignored : RegWrite v s s

theorem writeReg_move_idle {s : State} (hi : s.phase = .idle) (offset : BitVec 8) (v : Word) :
    RegWrite v s (writeReg offset v s) := by
  have opr : ∀ f, RegWrite v s (writeOpr f s) := fun f => by rw [writeOpr_idle hi]; exact .operands hi _ _ _
  unfold writeReg
  split
  case h_1 => rw [writeCmd_idle hi]; exact .start hi
  case h_2 => exact .acknowledge
  case h_3 => exact .enables _
  case h_21 => rw [writePalColor_idle hi]; exact .operands hi _ _ _
  case h_22 => rw [writePalIndex_idle hi]; exact .operands hi _ _ _
  case h_23 => exact .ignored
  all_goals exact opr _

theorem writeReg_move (offset : BitVec 8) (v : Word) (s : State) : RegWrite v s (writeReg offset v s) := by
  by_cases hi : s.phase = .idle
  · exact writeReg_move_idle hi offset v
  · by_cases h4 : offset = 0x04#8
    · rw [h4]; exact .acknowledge
    · by_cases hC : offset = 0x0C#8
      · rw [hC]; exact .enables _
      · rw [writeReg_busy (decide_eq_true hi) h4 hC]; exact .ignored

/-! ### Packed registers -/

/-- The W1C of `STATUS`, bit by bit (R24). -/
theorem clearFlags_eq (w : Word) (f : Status) : clearFlags w f = { f with
    done := if w.getLsbD 1 then false else f.done, err := if w.getLsbD 2 then false else f.err } := by
  unfold clearFlags
  cases w.getLsbD 1 <;> cases w.getLsbD 2 <;> simp

theorem irqEnWord_toNat (e : IrqEnable) : (irqEnWord e).toNat = e.doneIe.toNat + 2 * e.errIe.toNat := by
  rcases e with ⟨_ | _, _ | _⟩ <;> rfl

theorem packColor_toNat (c : Color) : (packColor c).toNat = c.r.toNat + 256 * c.g.toNat + 65536 * c.b.toNat := by
  have hr := c.r.isLt
  have hg := c.g.isLt
  change (0#8 ++ c.b ++ c.g ++ c.r : BitVec (8 + 8 + 8 + 8)).toNat = _
  simp only [BitVec.toNat_append]
  rw [← Nat.shiftLeft_add_eq_or_of_lt hr, ← Nat.shiftLeft_add_eq_or_of_lt hg]
  simp only [BitVec.toNat_ofNat, Nat.shiftLeft_eq, Nat.zero_mod, Nat.zero_mul, Nat.zero_or]
  omega

theorem extractLsb'_eq_ofNat (v : Word) (k n : Nat) : v.extractLsb' k n = BitVec.ofNat n (v.toNat / 2 ^ k % 2 ^ n) := by
  apply BitVec.eq_of_toNat_eq
  simp [Nat.shiftRight_eq_div_pow]

theorem toNat_and_mask (v : Word) {n : Nat} (hn : n ≤ 32) :
    (v &&& BitVec.ofNat 32 (2 ^ n - 1)).toNat = v.toNat % 2 ^ n := by
  have : 2 ^ n ≤ 2 ^ 32 := Nat.pow_le_pow_right (by decide) hn
  rw [BitVec.toNat_and, BitVec.toNat_ofNat, Nat.mod_eq_of_lt (by omega), Nat.and_two_pow_sub_one_eq_mod]

/-- A register of `n` bits reads back what was written, less the reserved bits. -/
theorem setWidth_extractLsb'_low (v : Word) {n : Nat} (hn : n ≤ 32) :
    (v.extractLsb' 0 n).setWidth 32 = v &&& BitVec.ofNat 32 (2 ^ n - 1) := by
  apply BitVec.eq_of_toNat_eq
  rw [BitVec.toNat_setWidth_of_le hn, toNat_and_mask v hn]
  simp

theorem packColor_colorOf (v : Word) : packColor (colorOf v) = v &&& 0xFFFFFF#32 := by
  apply BitVec.eq_of_toNat_eq
  rw [packColor_toNat, show 0xFFFFFF#32 = BitVec.ofNat 32 (2 ^ 24 - 1) from rfl, toNat_and_mask v (by decide)]
  simp only [colorOf, BitVec.extractLsb'_toNat, Nat.shiftRight_eq_div_pow]
  omega

theorem irqEnWord_irqEnOf (v : Word) : irqEnWord (irqEnOf v) = v &&& 3#32 := by
  apply BitVec.eq_of_toNat_eq
  rw [irqEnWord_toNat, show 3#32 = BitVec.ofNat 32 (2 ^ 2 - 1) from rfl, toNat_and_mask v (by decide)]
  simp only [irqEnOf, BitVec.getLsbD, Nat.toNat_testBit]
  omega

end Sys2Proof.Machine
end

section
/-! SUPPORT. The invariant is kept: by the end of a command, by a command that goes on, and by each action of the host. -/

namespace Sys2Proof.Machine

/-! ### Changes that the invariant does not see -/

/-- The bounds of a stream speak of its registers and its cursor only. -/
theorem StreamBounds.congr {s t : State} (b : StreamBounds s) (ho : t.opr = s.opr) (hi : t.eng.inPos = s.eng.inPos)
    (hl : t.eng.outLen = s.eng.outLen) : StreamBounds t := by
  obtain ⟨hin, hout, hsrc, hdst⟩ := b
  constructor <;> simpa only [ho, hi, hl]

theorem State.Inv.of_frame {s t : State} (h : s.Inv) (e : t = { s with
    irqEn := t.irqEn, palColor := t.palColor, palIndex := t.palIndex
    host := t.host, busReply := t.busReply, raced := t.raced, freeCount := t.freeCount }) : t.Inv := by
  rw [e]
  exact { h with stream := fun hp => (h.stream hp).congr rfl rfl rfl }

/-! ### A running command -/

/-- What the invariant says of the block while a command runs, whatever its phase. -/
structure Underway (s : State) : Prop where
  mem : s.mem.wf = true
  palette : PaletteOk s.palette
  done : s.status.done = false
  err : s.status.err = false
  errCode : s.errCode = 0#8

theorem State.Inv.underway {s : State} (h : s.Inv) (hb : s.busy = true) : Underway s :=
  ⟨h.mem, ⟨h.unique, h.capacity⟩, (h.running hb).1, (h.running hb).2, h.noError hb⟩

theorem Underway.congr {s t : State} (h : Underway s) (hm : t.mem = s.mem) (hp : t.palette = s.palette)
    (hs : t.status = s.status) (he : t.errCode = s.errCode) : Underway t := by
  obtain ⟨mem, palette, done, err, errCode⟩ := h
  constructor <;> simpa only [hm, hp, hs, he]

theorem Underway.streamStep {s u : State} (h : Underway s) (k : StreamStep s u) : Underway u := by
  refine ⟨k.wf h.mem, ?_, ?_, ?_, ?_⟩ <;> rw [k.frame]
  exacts [h.palette, h.done, h.err, h.errCode]

theorem Underway.bodyStep {i : Instr} {s u : State} (h : Underway s) (k : BodyStep i s u) : Underway u := by
  refine ⟨k.wf h.mem, k.palette h.palette, ?_, ?_, ?_⟩ <;> rw [k.frame]
  exacts [h.done, h.err, h.errCode]

/-- The invariant of a running command, from what is particular to its phase. -/
theorem Underway.inv {s : State} (h : Underway s) (hs : s.startMem.wf = true) (hp : s.phase ≠ .idle)
    (stream : s.phase = .lcwMode ∨ s.phase = .lcwCode ∨ s.phase = .zrle → StreamBounds s)
    (modeByte : s.phase = .lcwMode → s.eng.inPos = 0#32 ∧ s.eng.outLen = 0#32 ∧ s.eng.cmdStart = 0#32)
    (lcw : s.phase = .lcwMode ∨ s.phase = .lcwCode → s.cmd = 0x01#32) (zrle : s.phase = .zrle → s.cmd = 0x02#32) :
    s.Inv where
  mem := h.mem
  startMem := hs
  unique := h.palette.1
  capacity := h.palette.2
  exclusive := by simp [h.done]
  running := fun _ => ⟨h.done, h.err⟩
  errCode := by rw [h.errCode]; decide
  noError := fun _ => h.errCode
  stream := stream
  modeByte := modeByte
  lcw := lcw
  zrle := zrle
  idle := fun hi => absurd hi hp

/-- The end of a command, completed or aborted, meets the invariant. -/
theorem EndStep.inv {s t : State} (k : EndStep s t) (h : Underway s) : t.Inv where
  mem := k.wf h.mem
  startMem := by rw [k.startMem]; rfl
  unique := (k.palette h.palette).1
  capacity := (k.palette h.palette).2
  exclusive := fun ⟨hd, he⟩ => k.flags h.done h.err (hd.trans he.symm)
  running := by simp [busy_of_idle k.phase]
  errCode := k.errCode.elim id fun e => by rw [e, h.errCode]; decide
  noError := by simp [busy_of_idle k.phase]
  stream := by simp [k.phase]
  modeByte := by simp [k.phase]
  lcw := by simp [k.phase]
  zrle := by simp [k.phase]
  idle := fun _ => k.settled

/-! ### The command that a `CMD` word names -/

theorem cmdOfOp_encode {op : Byte} {i : Instr} (h : cmdOfOp op = some i) : encode i = encodeOp op := by
  unfold cmdOfOp at h
  repeat (split at h; · rename_i he; cases h; rw [he]; rfl)
  cases h

/-- R103, R110: the `CMD` word of a host command is its `OP`, bits [31:8] being 0. -/
theorem decodeCmd_word {w : Word} {i : Instr} {op : Byte} (h : decodeCmd w = some i) (hi : encode i = encodeOp op) :
    w = op.setWidth 32 := by
  unfold decodeCmd at h
  split at h
  · rename_i hz
    have ho : op = w.extractLsb' 0 8 := (List.cons.inj (hi.symm.trans (cmdOfOp_encode h))).1
    have high := congrArg BitVec.toNat hz
    subst ho
    apply BitVec.eq_of_toNat_eq
    simp only [BitVec.extractLsb'_toNat, BitVec.toNat_ofNat, BitVec.toNat_setWidth, Nat.shiftRight_eq_div_pow] at high ⊢
    omega
  · cases h

/-! ### A step of the engine -/

/-- `u` is a state of the command that runs in `s`, before its end: the registers that only the host writes, the platform and
`CMD` are the same, and `Underway` is kept. -/
structure SameCommand (s u : State) : Prop where
  opr : u.opr = s.opr
  irqEn : u.irqEn = s.irqEn
  platform : u.platform = s.platform
  cmd : u.cmd = s.cmd
  underway : Underway s → Underway u

theorem SameCommand.refl (s : State) : SameCommand s s := ⟨rfl, rfl, rfl, rfl, id⟩

theorem StreamStep.sameCommand {s u : State} (k : StreamStep s u) : SameCommand s u := by
  refine ⟨?_, ?_, ?_, ?_, fun h => h.streamStep k⟩ <;> rw [k.frame]

theorem BodyStep.sameCommand {i : Instr} {s u : State} (k : BodyStep i (markOverlap i s) u) : SameCommand s u := by
  have same : SameCommand (markOverlap i s) u := by
    refine ⟨?_, ?_, ?_, ?_, fun h => h.bodyStep k⟩ <;> rw [k.frame]
  exact ⟨same.opr, same.irqEn, same.platform, same.cmd, fun h => same.underway (h.congr rfl rfl rfl rfl)⟩

/-- The command goes on, or the block is idle: results and the palette stand still, and the invariant is kept. -/
structure GoesOn (s t : State) : Prop where
  frame : t = { s with phase := t.phase, eng := t.eng, mem := t.mem, unsettled := t.unsettled }
  inv : s.Inv → t.Inv

/-- The two things that a step of the engine from `s` to `t` can be: the end of the running command, or a step that is not. -/
inductive Outlook (s t : State) : Prop where
  | ends (busy : s.busy = true) (u : State) (same : SameCommand s u) (how : EndStep u t)
  | goesOn (how : GoesOn s t)

/-- The stream of a host command that has passed its start checks begins inside its windows. -/
theorem streamBounds_begin {i : Instr} {t : State} (hi : i = .lcwDecode ∨ i = .zrleExpand)
    (hr : windowsInRange i t.opr = true) (hin : t.eng.inPos = 0#32) (hout : t.eng.outLen = 0#32) : StreamBounds t := by
  have inRange : (inputWindow t.opr).inRange = true ∧ (outputWindow t.opr).inRange = true := by
    rcases hi with rfl | rfl <;> simpa [windowsInRange, windows, readWindows, writtenWindows] using hr
  refine ⟨?_, ?_, of_decide_eq_true inRange.1, of_decide_eq_true inRange.2⟩
  · rw [hin]; exact Nat.zero_le _
  · rw [hout]; exact Nat.zero_le _

theorem CommandStep.outlook {i : Instr} {s t : State} (k : CommandStep i s t) (hp : s.phase = .accepted)
    (hc : decodeCmd s.cmd = some i) : Outlook s t := by
  have hb := busy_of_accepted hp
  cases k with
  | check e n =>
    exact .ends hb { s with inUsed := n } ⟨rfl, rfl, rfl, rfl, fun h => h.congr rfl rfl rfl rfl⟩ (abort_step e 0#32 _)
  | done u inRange body => exact .ends hb u body.sameCommand (complete_step u)
  | error u inRange body e a => exact .ends hb u body.sameCommand (abort_step e a u)
  | begin _ inRange which start frame =>
    obtain ⟨hin, hout, hstart⟩ := start
    refine .goesOn ⟨by rw [frame]; rfl, fun h => ?_⟩
    have opr : t.opr = s.opr := by rw [frame]; rfl
    have cmd : t.cmd = s.cmd := by rw [frame]; rfl
    have startMem : t.startMem.wf = true := by rw [frame]; exact h.startMem
    have ht : Underway t := by rw [frame]; exact (h.underway hb).congr rfl rfl rfl rfl
    have bounds : StreamBounds t :=
      streamBounds_begin (which.imp And.left And.left) (by rw [opr]; exact inRange) hin hout
    rcases which with ⟨rfl, phase⟩ | ⟨rfl, phase⟩
    · exact ht.inv startMem (by simp [phase]) (fun _ => bounds) (fun _ => ⟨hin, hout, hstart rfl⟩)
        (fun _ => cmd.trans (decodeCmd_word (op := 0x01#8) hc rfl)) (by simp [phase])
    · exact ht.inv startMem (by simp [phase]) (fun _ => bounds) (by simp [phase])
        (by simp [phase]) (fun _ => cmd.trans (decodeCmd_word (op := 0x02#8) hc rfl))

/-- A stream command that goes on with its next code. -/
theorem StreamStep.goesOn {s u t : State} (k : StreamStep s u)
    (hp : s.phase = .lcwMode ∨ s.phase = .lcwCode ∨ s.phase = .zrle)
    (e : t = { u with phase := t.phase, eng := { u.eng with mode := t.eng.mode } })
    (ht : (t.phase = .lcwCode ∧ (s.phase = .lcwMode ∨ s.phase = .lcwCode)) ∨ (t.phase = .zrle ∧ s.phase = .zrle)) :
    GoesOn s t := by
  refine ⟨by rw [e, k.frame], fun h => ?_⟩
  have cmd : t.cmd = s.cmd := by rw [e, k.frame]
  have startMem : t.startMem.wf = true := by rw [e, k.frame]; exact h.startMem
  have bounds : StreamBounds t := (k.bounds (h.stream hp)).congr (by rw [e]) (by rw [e]) (by rw [e])
  have under : Underway t := by
    rw [e]; exact ((h.underway (busy_of_stream hp)).streamStep k).congr rfl rfl rfl rfl
  rcases ht with ⟨ht, hs⟩ | ⟨ht, hs⟩
  · exact under.inv startMem (by simp [ht]) (fun _ => bounds) (by simp [ht]) (fun _ => cmd.trans (h.lcw hs)) (by simp [ht])
  · exact under.inv startMem (by simp [ht]) (fun _ => bounds) (by simp [ht]) (by simp [ht]) (fun _ => cmd.trans (h.zrle hs))

theorem StreamMove.outlook {s t : State} (k : StreamMove s t)
    (hp : s.phase = .lcwMode ∨ s.phase = .lcwCode ∨ s.phase = .zrle) : Outlook s t := by
  cases k with
  | stop u stream e a => exact .ends (busy_of_stream hp) u stream.sameCommand (abort_step e a u)
  | finish u stream => exact .ends (busy_of_stream hp) u stream.sameCommand (complete_step u)
  | mode u stream m phase => exact .goesOn (stream.goesOn hp rfl (.inl ⟨rfl, .inl phase⟩))
  | code _ stream phase progress =>
    have same : t.phase = s.phase := by rw [stream.frame]
    refine .goesOn (stream.goesOn hp rfl ?_)
    rw [same]
    exact (hp.resolve_left phase).imp (fun h => ⟨h, .inr h⟩) (fun h => ⟨h, h⟩)

theorem engineStep_outlook {s t : State} (h : engineStep s = .next t) : Outlook s t := by
  cases engineStep_move h with
  | idle phase => exact .goesOn ⟨rfl, id⟩
  | illegal phase => exact .ends (busy_of_accepted phase) s (.refl s) (abort_step _ _ s)
  | command i _ phase cmd how => exact how.outlook phase cmd
  | stream _ phase how => exact how.outlook phase

theorem Outlook.inv {s t : State} (k : Outlook s t) (h : s.Inv) : t.Inv := by
  cases k with
  | ends busy u same how => exact how.inv (same.underway (h.underway busy))
  | goesOn how => exact how.inv h

/-! ### An action of the host -/

theorem State.Inv.startCommand {s : State} (h : s.Inv) (w : Word) : (startCommand w s).Inv :=
  Underway.inv ⟨h.mem, ⟨h.unique, h.capacity⟩, rfl, rfl, rfl⟩ h.mem (by simp) (by simp) (by simp) (by simp) (by simp)

theorem State.Inv.acknowledge {s : State} (h : s.Inv) (w : Word) : (acknowledge w s).Inv :=
  { h with
    exclusive := fun ⟨hd, he⟩ => h.exclusive ⟨(Bool.and_eq_true_iff.mp hd).1, (Bool.and_eq_true_iff.mp he).1⟩
    running := fun hb => by
      obtain ⟨hd, he⟩ := h.running hb
      simp [clearFlags, hd, he]
    errCode := by
      rw [acknowledge_errCode, clearErrCode]
      split
      · decide
      · exact h.errCode
    noError := fun hb => by simp [clearErrCode, h.noError hb]
    stream := fun hp => (h.stream hp).congr rfl rfl rfl }

/-- Operands change while the block is idle only, and then no stream depends on them. -/
theorem State.Inv.idleOperands {s : State} (h : s.Inv) (hi : s.phase = .idle) (o : Operands) (c : Color) (i : BitVec 16) :
    State.Inv { s with opr := o, palColor := c, palIndex := i } :=
  { h with stream := by simp [hi] }

theorem RegWrite.inv {v : Word} {s t : State} (k : RegWrite v s t) (h : s.Inv) : t.Inv := by
  cases k with
  | start idle => exact h.startCommand v
  | acknowledge => exact h.acknowledge v
  | enables e => exact h.of_frame rfl
  | operands idle o c i => exact h.idleOperands idle o c i
  | ignored => exact h

theorem liveWindows_idle {s : State} (h : s.phase = .idle) : liveWindows s = [] := by simp [liveWindows, running, h]

theorem State.Inv.hostMemWrite {s : State} (h : s.Inv) (a : Word) (v : Byte) : (hostMemWrite a v s).Inv :=
  { h with
    mem := Memory.wf_write h.mem (word_lt_addrSpace a) v
    stream := fun hp => (h.stream hp).congr rfl rfl rfl
    idle := fun hp => by
      have idle : s.phase = .idle := hp
      simp [h.idle idle, liveWindows_idle idle, inSome] }

theorem State.reset_inv : State.reset.Inv where
  mem := rfl
  startMem := rfl
  unique := List.nodup_nil
  capacity := Nat.zero_le _
  exclusive := by simp [State.reset]
  running := by simp [State.reset]
  errCode := by decide
  noError := fun _ => rfl
  stream := by simp [State.reset]
  modeByte := by simp [State.reset]
  lcw := by simp [State.reset]
  zrle := by simp [State.reset]
  idle := fun _ => rfl

theorem State.Inv.assertReset {s : State} (h : s.Inv) : (assertReset s).Inv :=
  { State.reset_inv with
    mem := Memory.wf_overwriteAll h.mem _ _
    stream := by simp [Machine.assertReset, State.reset] }

theorem State.Inv.hostAct {s : State} (h : s.Inv) (act : HostAction) : (hostAct act s).Inv := by
  cases act with
  | regRead offset width => exact h.of_frame rfl
  | regWrite offset width v =>
    rw [Machine.hostAct, hostRegWrite]
    split
    · exact ((writeReg_move offset v s).inv h).of_frame rfl
    · exact h.of_frame rfl
  | memRead a =>
    rw [Machine.hostAct, hostMemRead]
    split <;> exact h.of_frame rfl
  | memWrite a v => exact h.hostMemWrite a v
  | sampleIrq => exact h.of_frame rfl
  | reset => exact h.assertReset

/-! ### A step of the machine -/

/-- A step is an action of the host or a step of the engine, from a state in which the host's list has moved on. -/
theorem step_cases {s t : State} (h : step s = .next t) :
    (∃ act later, t = hostAct act { s with host := later }) ∨ ∃ later, engineStep { s with host := later } = .next t := by
  cases hh : s.host with
  | nil => exact .inr ⟨[], by rw [← hh]; exact (step_engine hh).symm.trans h⟩
  | cons event later =>
    obtain ⟨after, act⟩ := event
    cases after with
    | zero =>
      rw [step_host hh] at h
      cases h
      exact .inl ⟨act, later, rfl⟩
    | succ n => exact .inr ⟨_, (step_waiting hh).symm.trans h⟩

end Sys2Proof.Machine
end

section
/-! SUPPORT. The start checks of R131 that a host command fails. -/

namespace Sys2Proof.Machine

/-- The state in which the start checks of a host command are made: PAL_LOAD6 has set `IN_USED` to 0 (R32, R284). -/
def checked (i : Instr) (s : State) : State := if i = .palLoad6 then { s with inUsed := 0#32 } else s

theorem checked_palLoad6 (s : State) : checked .palLoad6 s = { s with inUsed := 0#32 } := if_pos rfl

theorem checked_of_ne {i : Instr} (h : i ≠ .palLoad6) (s : State) : checked i s = s := if_neg h

theorem checked_frame (i : Instr) (s : State) : checked i s = { s with inUsed := (checked i s).inUsed } := by
  unfold checked; split <;> rfl

theorem windowsInRange_false {i : Instr} {o : Operands} {w : Window} (hw : w ∈ windows i o)
    (h : Config.addrSpace < w.base + w.len) : windowsInRange i o = false := by
  rw [windowsInRange, List.all_eq_false]
  exact ⟨w, hw, by simpa [Window.inRange] using h⟩

theorem runBody_range {i : Instr} {s : State} (h : windowsInRange i s.opr = false) (badLen : Bool)
    (body : State → Outcome) : runBody i badLen body s = .next (abort .rangeError 0#32 s) := by
  simp [runBody, h]

theorem runBody_badLen {i : Instr} {s : State} (h : windowsInRange i s.opr = true) (body : State → Outcome) :
    runBody i true body s = .next (abort .palBadLen 0#32 s) := by
  simp [runBody, h]

/-- R75, R131, R283: a host command whose window check fails aborts with `RANGE`. -/
theorem exec_range {i : Instr} (hi : i.codeSet = .cmd) {s : State} (h : windowsInRange i s.opr = false) :
    exec i s = .next (abort .rangeError 0#32 (checked i s)) := by
  cases i with
  | palLoad6 =>
    rw [exec, execPalLoad6, checked_palLoad6]
    exact runBody_range (s := { s with inUsed := 0#32 }) h _ _
  | lcwDecode => rw [exec, execLcwDecode, runBody_range h, checked_of_ne (by simp)]
  | zrleExpand => rw [exec, execZrleExpand, runBody_range h, checked_of_ne (by simp)]
  | blit => rw [exec, execBlit, runBody_range h, checked_of_ne (by simp)]
  | fill => rw [exec, execFill, runBody_range h, checked_of_ne (by simp)]
  | palClear => rw [exec, execPalClear, runBody_range h, checked_of_ne (by simp)]
  | palPush => rw [exec, execPalPush, runBody_range h, checked_of_ne (by simp)]
  | palFind => rw [exec, execPalFind, runBody_range h, checked_of_ne (by simp)]
  | palRead => rw [exec, execPalRead, runBody_range h, checked_of_ne (by simp)]
  | modeRel => simp [Instr.codeSet] at hi
  | endMark => simp [Instr.codeSet] at hi
  | lit bytes => simp [Instr.codeSet] at hi
  | sref c p => simp [Instr.codeSet] at hi
  | run n v => simp [Instr.codeSet] at hi
  | lref n p => simp [Instr.codeSet] at hi
  | mref c p => simp [Instr.codeSet] at hi
  | zrun n => simp [Instr.codeSet] at hi
  | zlit v => simp [Instr.codeSet] at hi

/-- R131, R256: PAL_LOAD6 of a length that is no multiple of 3 aborts with `PAL_BAD_LEN`. -/
theorem exec_palLoad6_badLen {s : State} (hr : windowsInRange .palLoad6 s.opr = true)
    (hlen : s.opr.srcLen.toNat % 3 ≠ 0) :
    exec .palLoad6 s = .next (abort .palBadLen 0#32 { s with inUsed := 0#32 }) := by
  rw [exec, execPalLoad6, decide_eq_true hlen]
  exact runBody_badLen (s := { s with inUsed := 0#32 }) hr _

end Sys2Proof.Machine
end

section
/-! The statements of 10_state.md. -/

namespace Sys2Proof.Machine

/-- Settles O54: a step is a host action or a step of the engine, and the latter ends the command or goes on with it. -/
theorem everyStepKeepsTheInvariant : Obligations.EveryStepKeepsTheInvariant := by
  intro s t h hstep
  have turned : ∀ later, State.Inv { s with host := later } := fun later => h.of_frame rfl
  rcases step_cases hstep with ⟨act, later, rfl⟩ | ⟨later, he⟩
  · exact (turned later).hostAct act
  · exact (engineStep_outlook he).inv (turned later)

/-- Settles O40. -/
theorem windowPastTheTopIsARangeError : Obligations.WindowPastTheTopIsARangeError := by
  rintro s i hi hp hu ⟨w, hw, htop⟩
  rw [exec_range hi (windowsInRange_false hw htop),
    abort_accepted (by rw [checked_frame]; exact hu) (by rw [checked_frame]; exact hp)]
  rfl

/-- Settles O41. -/
theorem palLoadOfABadLengthFails : Obligations.PalLoadOfABadLengthFails := by
  intro s hp hu hr hlen
  rw [exec_palLoad6_badLen hr hlen, abort_accepted (s := { s with inUsed := 0#32 }) hu hp]
  rfl

/-- Settles O43. -/
theorem writesWhileBusyAreIgnored : Obligations.WritesWhileBusyAreIgnored := by
  intro s offset v later hb h ha h4 hC
  rw [step_regWrite h ha, writeReg_busy (s := { s with host := later }) hb h4 hC]

/-- Settles O44. -/
theorem statusAndEnableWritesTakeEffect : Obligations.StatusAndEnableWritesTakeEffect := by
  refine fun s v later => ⟨fun h => ?_, fun h => step_regWrite h rfl⟩
  rw [← clearFlags_eq]
  exact step_regWrite h rfl

/-- Settles O45, clause by clause: the two accesses, the reads, the writes, and a write followed by a read. -/
theorem operandRegistersReadBack : Obligations.OperandRegistersReadBack := by
  refine ⟨fun s offset v later ha => ⟨fun h => step_regRead h ha, fun h => step_regWrite h ha⟩, fun s => ?_,
    fun s v => ⟨rfl, fun hi => ?_⟩, fun s offset v hi => ⟨fun h => ?_, ?_, ?_, ?_, ?_⟩⟩
  · refine ⟨rfl, rfl, rfl, rfl, rfl, rfl, rfl, rfl, rfl, rfl, rfl, rfl, rfl, rfl, rfl, rfl, ?_⟩
    exact ⟨BitVec.toNat_setWidth_of_le (by decide), BitVec.toNat_setWidth_of_le (by decide), packColor_toNat _,
      irqEnWord_toNat _⟩
  · simp [writeReg, writeOpr_idle hi, writePalColor_idle hi, writePalIndex_idle hi, colorOf, extractLsb'_eq_ofNat]
  · simp only [List.mem_cons, List.not_mem_nil, or_false] at h
    rcases h with rfl | rfl | rfl | rfl | rfl | rfl | rfl | rfl | rfl | rfl | rfl | rfl | rfl | rfl | rfl | rfl <;>
      simp [writeReg, writeOpr_idle hi, readReg]
  · rintro rfl
    simpa [writeReg, writeOpr_idle hi, readReg] using setWidth_extractLsb'_low v (n := 8) (by decide)
  · rintro rfl
    simpa [writeReg, writePalColor_idle hi, readReg] using packColor_colorOf v
  · rintro rfl
    simpa [writeReg, writePalIndex_idle hi, readReg] using setWidth_extractLsb'_low v (n := 16) (by decide)
  · rintro rfl
    exact irqEnWord_irqEnOf v

/-- Settles O46. -/
theorem readOnlyAndReservedOffsets : Obligations.ReadOnlyAndReservedOffsets := by
  refine ⟨fun s offset v _ => ⟨fun h => writeReg_unmapped ?_ v s, fun h => readReg_unmapped ?_ s⟩, fun s => ?_⟩
  · simp only [writableOffsets, List.mem_cons, List.not_mem_nil, or_false] at h ⊢; omega
  · simp only [readableOffsets, List.mem_cons, List.not_mem_nil, or_false] at h ⊢; omega
  · exact ⟨BitVec.toNat_setWidth_of_le (by decide), rfl, rfl, rfl, rfl, rfl⟩

/-- Settles O57: the end of a command keeps what only the host writes, and any other step keeps all of it. -/
theorem resultsChangeOnlyAtTheEnd : Obligations.ResultsChangeOnlyAtTheEnd := by
  intro s t hhost hstep
  rw [step_engine hhost] at hstep
  cases engineStep_outlook hstep with
  | ends busy u same how =>
    exact ⟨how.opr.trans same.opr, how.irqEn.trans same.irqEn, how.platform.trans same.platform, how.cmd.trans same.cmd,
      by simp [busy_of_idle how.phase]⟩
  | goesOn how => rw [how.frame]; simp

/-- Settles O51. -/
theorem resetLeavesTheRegistersAtZero : Obligations.ResetLeavesTheRegistersAtZero :=
  ⟨fun _ h => readReg_reset h, rfl, rfl, rfl, rfl, fun _ => rfl⟩

/-- Settles O53. -/
theorem invariantHoldsAtReset : Obligations.InvariantHoldsAtReset := State.reset_inv

end Sys2Proof.Machine
end

section
/-! SUPPORT. The windows of a command: a host command with a window over a device, the windows that are live while a command
runs, the end of a command whose results are unspecified, and what a step of the engine writes. -/

namespace Sys2Proof.Machine

/-! ### Addresses in windows -/

theorem Window.contains_iff {w : Window} {a : Nat} : w.contains a = true ↔ w.base ≤ a ∧ a < w.base + w.len := by
  simp [Window.contains]

/-- Two windows overlap exactly when they share an address (R91). -/
theorem Window.overlaps_iff {v w : Window} :
    v.overlaps w = true ↔ ∃ a, v.contains a = true ∧ w.contains a = true := by
  simp only [Window.overlaps, Window.contains_iff, decide_eq_true_eq]
  constructor
  · exact fun h => ⟨max v.base w.base, by omega⟩
  · rintro ⟨a, hv, hw⟩; omega

theorem inSome_iff {ws : List Window} {a : Nat} :
    inSome ws a = true ↔ ∃ w ∈ ws, w.base ≤ a ∧ a < w.base + w.len := by
  simp only [inSome, List.any_eq_true, Window.contains_iff]

/-! ### A window over a device -/

/-- A device region that shares an address with a window of the command lies under it (R84). -/
theorem overDevice_of_shared {i : Instr} {s : State} {r : Region} (hr : r ∈ s.platform) (hk : r.kind = .device)
    {w : Window} (hw : w ∈ windows i s.opr) {a : Nat} (ha : r.range.contains a = true) (hb : w.contains a = true) :
    overDevice i s = true := by
  simp only [overDevice, List.any_eq_true, Bool.and_eq_true, decide_eq_true_eq]
  exact ⟨r, hr, hk, w, hw, Window.overlaps_iff.mpr ⟨a, ha, hb⟩⟩

/-- The one start check beside the windows: PAL_LOAD6's length (R131). -/
def badLength (i : Instr) (s : State) : Bool := decide (i = .palLoad6) && decide (s.opr.srcLen.toNat % 3 ≠ 0)

theorem badLength_of_ne {i : Instr} (h : i ≠ .palLoad6) (s : State) : badLength i s = false := by simp [badLength, h]

theorem badLength_palLoad6 (s : State) : badLength .palLoad6 s = decide (s.opr.srcLen.toNat % 3 ≠ 0) := by
  simp [badLength]

theorem badLength_eq_false {i : Instr} {s : State} (h : i = .palLoad6 → s.opr.srcLen.toNat % 3 = 0) :
    badLength i s = false := by
  by_cases hi : i = .palLoad6
  · simp [badLength, h hi]
  · exact badLength_of_ne hi s

/-- A host command makes the start checks of R131 and then runs its body. -/
theorem exec_runBody {i : Instr} (hi : i.codeSet = .cmd) (s : State) :
    ∃ body, exec i s = runBody i (badLength i s) body (checked i s) := by
  have unchecked : i ≠ .palLoad6 → (∃ body, exec i s = runBody i false body s) →
      ∃ body, exec i s = runBody i (badLength i s) body (checked i s) := fun hne h => by
    rwa [badLength_of_ne hne, checked_of_ne hne]
  cases i with
  | palLoad6 => exact ⟨_, by rw [exec, execPalLoad6, checked_palLoad6, badLength_palLoad6]⟩
  | lcwDecode => exact unchecked (by simp) ⟨_, by rw [exec, execLcwDecode]⟩
  | zrleExpand => exact unchecked (by simp) ⟨_, by rw [exec, execZrleExpand]⟩
  | blit => exact unchecked (by simp) ⟨_, by rw [exec, execBlit]⟩
  | fill => exact unchecked (by simp) ⟨_, by rw [exec, execFill]⟩
  | palClear => exact unchecked (by simp) ⟨_, by rw [exec, execPalClear]⟩
  | palPush => exact unchecked (by simp) ⟨_, by rw [exec, execPalPush]⟩
  | palFind => exact unchecked (by simp) ⟨_, by rw [exec, execPalFind]⟩
  | palRead => exact unchecked (by simp) ⟨_, by rw [exec, execPalRead]⟩
  | modeRel | endMark | lit | sref | run | lref | mref | zrun | zlit => simp [Instr.codeSet] at hi

theorem runBody_device {i : Instr} {s : State} (hr : windowsInRange i s.opr = true) (hd : overDevice i s = true)
    (body : State → Outcome) : runBody i false body s = .refused .windowOverDevice := by
  simp [runBody, hr, hd]

/-- R84, U3: a host command that has passed its start checks and has a window over a device is refused. -/
theorem exec_device {i : Instr} (hi : i.codeSet = .cmd) {s : State} (hr : windowsInRange i s.opr = true)
    (hb : badLength i s = false) (hd : overDevice i s = true) : exec i s = .refused .windowOverDevice := by
  obtain ⟨body, he⟩ := exec_runBody hi s
  rw [he, hb]
  refine runBody_device ?_ ?_ body <;> rw [checked_frame]
  exacts [hr, hd]

/-! ### The windows of the running command -/

theorem liveWritten_running {s : State} {i : Instr} (hi : running s = some i) (hr : windowsInRange i s.opr = true) :
    liveWritten s = writtenWindows i s.opr := by simp [liveWritten, hi, hr]

theorem liveWindows_running {s : State} {i : Instr} (hi : running s = some i) (hr : windowsInRange i s.opr = true) :
    liveWindows s = windows i s.opr := by simp [liveWindows, hi, hr]

/-- What the host may see of a byte in a written window (R89, R321): the old one, or the one the command would leave. -/
theorem settleByte_cases {s : State} {i : Instr} (hi : running s = some i) (hu : s.unsettled = false)
    (ho : windowsOverlap i s.opr = false) (a : Nat) :
    settleByte s a = s.startMem.read a ∨ settleByte s a = (finalMem s).read a := by
  simp only [settleByte, hu, hi, ho, Bool.or_self, Bool.false_eq_true, if_false]
  split
  · exact .inl rfl
  · exact .inr rfl

theorem hostMemRead_live {a : Word} {s : State} (h : inSome (liveWritten s) a.toNat = true) :
    hostMemRead a s = { s with busReply := .byte (settleByte s a.toNat), freeCount := s.freeCount + freeBlock } :=
  if_pos h

/-! ### The end of a command whose results are unspecified -/

/-- Exactly one of `DONE` and `ERR` is set, and the error code is an assigned one (R89, R281). -/
theorem endCommand_unsettled {s : State} (h : s.unsettled = true) (v : State) :
    (endCommand s v).status.done ≠ (endCommand s v).status.err ∧ (endCommand s v).errCode.toNat ≤ 0x0A := by
  simp only [endCommand, h, if_true, scramble, BitVec.toNat_ofNat]
  exact ⟨by simp, by omega⟩

/-! ### What a step of the engine writes -/

/-- `t` differs from `s` in no byte outside the written windows of the command that runs in `s`. -/
def KeepsOutside (s t : State) : Prop := ∀ a, inSome (liveWritten s) a = false → t.mem.read a = s.mem.read a

/-- The end of a command, after steps of the same command that write inside its windows only. -/
theorem KeepsOutside.ends {s u t : State} (h : KeepsOutside s u) (hw : liveWritten u = liveWritten s)
    (k : EndStep u t) : KeepsOutside s t :=
  fun a ha => (k.kept a (by rw [hw]; exact ha)).trans (h a ha)

theorem BodyStep.keepsOutside {i : Instr} {s u : State} (k : BodyStep i (markOverlap i s) u) (hp : s.phase = .accepted)
    (hc : decodeCmd s.cmd = some i) (hr : windowsInRange i s.opr = true) :
    KeepsOutside s u ∧ liveWritten u = liveWritten s := by
  refine ⟨fun a ha => k.kept hr a ?_, liveWritten_congr ?_ ?_ ?_⟩
  · rwa [liveWritten_accepted hp hc, if_pos hr] at ha
  all_goals rw [k.frame]; rfl

theorem CommandStep.keepsOutside {i : Instr} {s t : State} (k : CommandStep i s t) (hp : s.phase = .accepted)
    (hc : decodeCmd s.cmd = some i) : KeepsOutside s t := by
  cases k with
  | check e n => exact KeepsOutside.ends (u := { s with inUsed := n }) (fun _ _ => rfl) rfl (abort_step e _ _)
  | begin _ inRange which start frame => exact fun a _ => by rw [frame]; rfl
  | done u inRange body =>
    obtain ⟨hk, hw⟩ := body.keepsOutside hp hc inRange
    exact hk.ends hw (complete_step u)
  | error u inRange body e a =>
    obtain ⟨hk, hw⟩ := body.keepsOutside hp hc inRange
    exact hk.ends hw (abort_step e a u)

theorem StreamStep.keepsOutside {s u : State} (k : StreamStep s u) (b : StreamBounds s)
    (hp : s.phase = .lcwMode ∨ s.phase = .lcwCode ∨ s.phase = .zrle) :
    KeepsOutside s u ∧ liveWritten u = liveWritten s := by
  refine ⟨fun a ha => k.kept b a ?_, liveWritten_congr ?_ ?_ ?_⟩
  · simpa [liveWritten_stream b hp, inSome] using ha
  all_goals rw [k.frame]

theorem StreamMove.keepsOutside {s t : State} (k : StreamMove s t) (b : StreamBounds s)
    (hp : s.phase = .lcwMode ∨ s.phase = .lcwCode ∨ s.phase = .zrle) : KeepsOutside s t := by
  cases k with
  | stop u stream e a =>
    obtain ⟨hk, hw⟩ := stream.keepsOutside b hp
    exact hk.ends hw (abort_step e a u)
  | finish u stream =>
    obtain ⟨hk, hw⟩ := stream.keepsOutside b hp
    exact hk.ends hw (complete_step u)
  | mode u stream m phase => exact (stream.keepsOutside b hp).1
  | code _ stream phase progress => exact (stream.keepsOutside b hp).1

theorem engineStep_keepsOutside {s t : State} (hi : s.Inv) (h : engineStep s = .next t) : KeepsOutside s t := by
  cases engineStep_move h with
  | idle phase => exact fun _ _ => rfl
  | illegal phase => exact (abort_step _ _ s).kept
  | command i _ phase cmd how => exact how.keepsOutside phase cmd
  | stream _ phase how => exact how.keepsOutside (hi.stream phase) phase

end Sys2Proof.Machine
end

section
/-! SUPPORT. A stream code that stops part of the way (R71, R76 to R79): its reads and appends up to the one that raises, and
the state they lead to. -/

namespace Sys2Proof.Machine

/-! ### Loops that stop -/

/-- A loop whose round for element `m` raises. -/
theorem forEach_stop {α : Type} {f : α → State → Eff Unit} {xs : List α} {m : Nat} (hm : m < xs.length) {s t u : State}
    {e : Error} {a : Word} (hpre : forEach (xs.take m) f s = .ok () t) (hstop : f xs[m] t = .raise e a u) :
    forEach xs f s = .raise e a u := by
  rw [← List.take_append_drop m xs, forEach_append, hpre, Eff.ok_andThen, List.drop_eq_getElem_cons hm, forEach_cons,
    hstop, Eff.raise_andThen]

/-- `InByte` raises `e` in the state `t`, recording `a`. -/
def InputStops (t : State) (e : Error) (a : Word) : Prop := inByte t = .raise e a t

/-- `OutByte` raises `e` in the state `t`, recording `a`, whatever the byte. -/
def OutputStops (t : State) (e : Error) (a : Word) : Prop := ∀ v, outByte v t = .raise e a t

/-! ### Input -/

theorem takeByte_refused {s : State} (h : admits s.platform (inAddr s) = false) :
    takeByte s = .raise .busError (inAddr s) s := by
  rw [takeByte, memRead_refused h, Eff.raise_andThen]

theorem inputStops_refused {s : State} (hlt : s.eng.inPos < s.opr.srcLen)
    (h : admits s.platform (inAddr s) = false) : InputStops s .busError (inAddr s) := by
  rw [InputStops, inByte, if_neg (BitVec.not_le.mpr hlt), takeByte_refused h]

theorem countByte_refused {s : State} (hlt : s.eng.inPos < s.opr.srcLen) (h : admits s.platform (inAddr s) = false) :
    countByte s = .raise .busError (inAddr s) s := by
  rw [countByte, if_neg (BitVec.not_le.mpr hlt), takeByte_refused h]

theorem inAddr_advanceBy (m : Nat) (s : State) : inAddr (advanceBy m s) = inAddr s + BitVec.ofNat 32 m := by
  simp [inAddr, advanceBy, BitVec.add_assoc]

theorem advanceBy_inPos_lt {s : State} {m : Nat} (h : s.eng.inPos.toNat + m < s.opr.srcLen.toNat) :
    (advanceBy m s).eng.inPos < (advanceBy m s).opr.srcLen := by
  have he : (s.eng.inPos + BitVec.ofNat 32 m).toNat = s.eng.inPos.toNat + m := toNat_add_small h.le s.opr.srcLen.isLt
  rw [BitVec.lt_def]
  exact he.trans_lt h

theorem inBytes_add (m n : Nat) (s : State) : inBytes (m + n) s = (inBytes m s).andThen fun _ t => inBytes n t := by
  induction m generalizing s with
  | zero => rw [Nat.zero_add]; rfl
  | succ m ih =>
    rw [Nat.add_right_comm, inBytes, inBytes]
    cases inByte s with
    | ok v t => exact ih t
    | raise e a t => rfl

/-- A payload whose byte `m` cannot be read. -/
theorem inBytes_stop {s : State} {m n : Nat} (hm : m < n) (hi : InputReady s m) {e : Error} {a : Word}
    (hs : InputStops (advanceBy m s) e a) : inBytes n s = .raise e a (advanceBy m s) := by
  obtain ⟨k, rfl⟩ := Nat.exists_eq_add_of_lt hm
  rw [Nat.add_assoc, inBytes_add, inBytes_ready hi, Eff.ok_andThen, inBytes, hs, Eff.raise_andThen]

/-! ### Output -/

theorem outputStops_full {s : State} (h : s.opr.dstCap ≤ s.eng.outLen) :
    OutputStops s .outputOverflow s.eng.cmdStart := fun v => by rw [outByte, if_pos h]; rfl

theorem outputStops_refused {s : State} (hlt : s.eng.outLen < s.opr.dstCap)
    (h : admits s.platform (outAddr s s.eng.outLen.toNat) = false) :
    OutputStops s .busError (outAddr s s.eng.outLen.toNat) := fun v => by
  rw [outByte, if_neg (BitVec.not_le.mpr hlt), memWrite_refused h, Eff.raise_andThen]

/-- `OutByte` raises, or it appends a byte at which the platform answers. -/
theorem outByte_cases (v : Byte) (s : State) : (∃ e a, OutputStops s e a) ∨
    (s.eng.outLen.toNat < s.opr.dstCap.toNat ∧ admits s.platform (outAddr s s.eng.outLen.toNat) = true ∧
      outByte v s = .ok () (appendByte v s)) := by
  by_cases hfull : s.opr.dstCap ≤ s.eng.outLen
  · exact .inl ⟨_, _, outputStops_full hfull⟩
  · have hlt := BitVec.not_le.mp hfull
    cases ha : admits s.platform (outAddr s s.eng.outLen.toNat) with
    | false => exact .inl ⟨_, _, outputStops_refused hlt ha⟩
    | true => exact .inr ⟨hlt, rfl, by rw [outByte, if_neg hfull, memWrite_admitted ha]; rfl⟩

theorem OutputReady.mono {s : State} {m n : Nat} (h : OutputReady s n) (hm : m ≤ n) : OutputReady s m :=
  ⟨h.canonical, by have := h.room; omega, fun k hk => h.answers k (by omega)⟩

theorem appendByte_outLen {s : State} {v : Byte} (h : s.eng.outLen.toNat < s.opr.dstCap.toNat) :
    (appendByte v s).eng.outLen.toNat = s.eng.outLen.toNat + 1 := outLen_add_toNat (s := s) (n := 1) h

theorem HistoryReady.appendBytes {s : State} (h : HistoryReady s) {bytes : List Byte}
    (ho : OutputReady s bytes.length) : HistoryReady (appendBytes bytes s) := by
  induction bytes generalizing s with
  | nil => exact h
  | cons v rest ih => exact ih (h.appendByte ho) ho.appendByte

theorem appendBytes_outLen {s : State} {bytes : List Byte} (ho : OutputReady s bytes.length) :
    (appendBytes bytes s).eng.outLen.toNat = s.eng.outLen.toNat + bytes.length := by
  rw [appendBytes_frame]
  exact outLen_add_toNat ho.room

theorem outAddr_appendBytes (bytes : List Byte) (s : State) (k : Nat) :
    outAddr (appendBytes bytes s) k = outAddr s k := by rw [appendBytes_frame]; rfl

/-- Appending bytes until one does not go. -/
theorem forEach_outByte_stop {s : State} {bytes : List Byte} {m : Nat} (hm : m < bytes.length) (ho : OutputReady s m)
    {e : Error} {a : Word} (hs : OutputStops (appendBytes (bytes.take m) s) e a) :
    forEach bytes outByte s = .raise e a (appendBytes (bytes.take m) s) := by
  have hlen : (bytes.take m).length = m := List.length_take_of_le hm.le
  exact forEach_stop hm (forEach_outByte_ready (m := 0) _ (by rwa [hlen])).1 (hs _)

theorem outRepeat_stop {s : State} {m n : Nat} {v : Byte} (hm : m < n) (ho : OutputReady s m) {e : Error} {a : Word}
    (hs : OutputStops (appendBytes ((List.replicate n v).take m) s) e a) :
    outRepeat n v s = .raise e a (appendBytes ((List.replicate n v).take m) s) :=
  forEach_outByte_stop (by simpa using hm) ho hs

/-! ### The copy loop -/

theorem outRead_admitted {s : State} {i : Nat} (hi : i < s.eng.outLen.toNat)
    (h : admits s.platform (outAddr s i) = true) : outRead (i : Int) s = .ok (outputByte s i) s := by
  rw [outRead, if_neg (by omega), Int.toNat_natCast, memRead_admitted h]
  rfl

theorem outRead_refused {s : State} {i : Nat} (hi : i < s.eng.outLen.toNat)
    (h : admits s.platform (outAddr s i) = false) : outRead (i : Int) s = .raise .busError (outAddr s i) s := by
  rw [outRead, if_neg (by omega), Int.toNat_natCast, memRead_refused h]

/-- The first `m` bytes of a copy, when the platform answers at those of them that stand in the history. -/
theorem copyLoop_prefix {s : State} (m n : Nat) {i : Nat} (hi : i < s.eng.outLen.toNat) (ho : OutputReady s m)
    (hr : ∀ k, i ≤ k → k < i + m → k < s.eng.outLen.toNat → admits s.platform (outAddr s k) = true) :
    copyLoop (m + n) (i : Int) s = copyLoop n ((i + m : Nat) : Int) (appendBytes (copyBytes s m i) s) := by
  induction m generalizing s i with
  | zero => rw [Nat.zero_add]; rfl
  | succ m ih =>
    have hlen := appendByte_outLen (v := outputByte s i) (show s.eng.outLen.toNat < s.opr.dstCap.toNat by
      have := ho.room; omega)
    have hnext : ∀ k, i + 1 ≤ k → k < i + 1 + m → k < (appendByte (outputByte s i) s).eng.outLen.toNat →
        admits s.platform (outAddr s k) = true := by
      intro k h1 h2 h3
      rw [hlen] at h3
      by_cases he : k = s.eng.outLen.toNat
      · rw [he]; exact ho.answers 0 (by omega)
      · exact hr k (by omega) (by omega) (by omega)
    rw [Nat.add_right_comm, copyLoop, outRead_admitted hi (hr i le_rfl (by omega) hi), Eff.ok_andThen,
      outByte_ready _ ho, Eff.ok_andThen]
    have := ih (s := appendByte (outputByte s i) s) (i := i + 1) (by omega) ho.appendByte hnext
    rw [← Nat.cast_succ, this, Nat.add_assoc i 1 m, Nat.add_comm 1 m]
    rfl

/-- A copy of more than `m` bytes, the byte `m` of which cannot be appended. -/
theorem copyLoop_stop {s : State} {m n i : Nat} (hm : m < n) (hi : i < s.eng.outLen.toNat) (ho : OutputReady s m)
    (hh : HistoryReady s) {e : Error} {a : Word} (hs : OutputStops (appendBytes (copyBytes s m i) s) e a) :
    copyLoop n (i : Int) s = .raise e a (appendBytes (copyBytes s m i) s) := by
  obtain ⟨k, rfl⟩ := Nat.exists_eq_add_of_lt hm
  have hlen : (copyBytes s m i).length = m := copyBytes_length s m i
  have ho' : OutputReady s (copyBytes s m i).length := by rwa [hlen]
  have hi' : i + m < (appendBytes (copyBytes s m i) s).eng.outLen.toNat := by rw [appendBytes_outLen ho', hlen]; omega
  rw [Nat.add_assoc, copyLoop_prefix m (k + 1) hi ho (fun j _ _ hj => hh j hj), copyLoop,
    outRead_ready (hh.appendBytes ho') hi', Eff.ok_andThen, hs, Eff.raise_andThen]

/-- A copy whose byte `m` stands in the history where the platform does not answer. -/
theorem copyLoop_refused {s : State} {m n i : Nat} (hm : m < n) (hi : i + m < s.eng.outLen.toNat)
    (ho : OutputReady s m) (hr : ∀ k, i ≤ k → k < i + m → admits s.platform (outAddr s k) = true)
    (ha : admits s.platform (outAddr s (i + m)) = false) :
    copyLoop n (i : Int) s = .raise .busError (outAddr s (i + m)) (appendBytes (copyBytes s m i) s) := by
  obtain ⟨k, rfl⟩ := Nat.exists_eq_add_of_lt hm
  have ho' : OutputReady s (copyBytes s m i).length := by rwa [copyBytes_length]
  have hlen := appendBytes_outLen ho'
  have ha' : admits (appendBytes (copyBytes s m i) s).platform (outAddr (appendBytes (copyBytes s m i) s) (i + m)) =
      false := by rw [outAddr_appendBytes, appendBytes_frame]; exact ha
  rw [Nat.add_assoc, copyLoop_prefix m (k + 1) (by omega) ho (fun j h1 h2 _ => hr j h1 h2), copyLoop,
    outRead_refused (by omega) ha', Eff.raise_andThen, outAddr_appendBytes]

/-! ### SREF is a copy -/

/-- A copy from the last output byte repeats it: each byte it reads after the first is the one it has just appended. -/
theorem copyLoop_last {s : State} (n : Nat) {k : Nat} (hk : s.eng.outLen.toNat = k + 1) (hwf : s.mem.wf = true)
    (ha : admits s.platform (outAddr s k) = true) : copyLoop n (k : Int) s = outRepeat n (outputByte s k) s := by
  induction n generalizing s k with
  | zero => rfl
  | succ n ih =>
    rw [copyLoop, outRead_admitted (by omega) ha, Eff.ok_andThen, outRepeat, List.replicate_succ, forEach_cons]
    rcases outByte_cases (outputByte s k) s with ⟨e, a, hs⟩ | ⟨hcap, hadm, hok⟩
    · rw [hs, Eff.raise_andThen, Eff.raise_andThen]
    · have hlen := appendByte_outLen (v := outputByte s k) hcap
      have hlast : outputByte (appendByte (outputByte s k) s) (k + 1) = outputByte s k := by
        rw [← hk]; exact Memory.read_write_same hwf _ _
      have := ih (s := appendByte (outputByte s k) s) (k := k + 1) (by omega)
        (Memory.wf_write hwf (word_lt_addrSpace _) _) (by rw [← hk]; exact hadm)
      rw [hok, Eff.ok_andThen, Eff.ok_andThen, ← Nat.cast_succ, this, hlast]
      rfl

/-- The same with its first read, which may be refused. -/
theorem copyLoop_succ_last {s : State} (n : Nat) {k : Nat} (hk : s.eng.outLen.toNat = k + 1) (hwf : s.mem.wf = true) :
    copyLoop (n + 1) (k : Int) s = (outRead (k : Int) s).andThen fun v s => outRepeat (n + 1) v s := by
  cases ha : admits s.platform (outAddr s k) with
  | false => rw [copyLoop, outRead_refused (by omega) ha]; rfl
  | true => rw [outRead_admitted (by omega) ha, Eff.ok_andThen, copyLoop_last _ hk hwf ha]

/-- R155: SREF is the copy from `p` bytes before the end of the output, position 1 included. -/
theorem srefBody_eq_copyLoop {s : State} {n : Nat} (hn : n ≠ 0) (hwf : s.mem.wf = true) (p : BitVec 12) :
    srefBody n p s = copyLoop n ((s.eng.outLen.toNat : Int) - p.toNat) s := by
  obtain ⟨n, rfl⟩ := Nat.exists_eq_succ_of_ne_zero hn
  unfold srefBody
  split
  · rename_i hp
    rw [hp, show ((1#12).toNat : Int) = 1 from rfl]
    split
    · rename_i h0
      rw [copyLoop, outRead_outside (by rw [h0]; simp), Eff.raise_andThen]
      rfl
    · rename_i h0
      obtain ⟨k, hk⟩ := Nat.exists_eq_succ_of_ne_zero (n := s.eng.outLen.toNat) fun h =>
        h0 (BitVec.eq_of_toNat_eq h)
      rw [show (s.eng.outLen.toNat : Int) - 1 = (k : Int) by omega]
      exact (copyLoop_succ_last n hk hwf).symm
  · rfl

end Sys2Proof.Machine
end

section
/-! SUPPORT. Each stream code from the state in which its bytes have been read, and what it leaves when a read or an append
raises. -/

namespace Sys2Proof.Machine

/-! ### The state inside a code -/

/-- The state of a code that began in `s`, has read `used` bytes and appended `out`. -/
def codeState (used : Nat) (out : List Byte) (s : State) : State := appendBytes out (advanceBy used (markStart s))

theorem codeState_frame (used : Nat) (out : List Byte) (s : State) : codeState used out s = { s with
    mem := (codeState used out s).mem
    eng := { s.eng with
      inPos := s.eng.inPos + BitVec.ofNat 32 used
      outLen := s.eng.outLen + BitVec.ofNat 32 out.length
      cmdStart := s.eng.inPos } } := by
  rw [codeState, appendBytes_frame]
  rfl

theorem codeState_nil (used : Nat) (s : State) : codeState used [] s = advanceBy used (markStart s) := rfl

theorem codeState_outLen {s : State} {used : Nat} {out : List Byte} (ho : OutputReady s out.length) :
    (codeState used out s).eng.outLen.toNat = s.eng.outLen.toNat + out.length :=
  appendBytes_outLen (s := advanceBy used (markStart s)) ho.markStart.advanceBy

theorem codeState_inAddr (used : Nat) (out : List Byte) (s : State) :
    inAddr (codeState used out s) = inAddr s + BitVec.ofNat 32 used := by
  rw [codeState_frame]; exact inAddr_advanceBy used s

/-- The abort of a stream command inside a code. -/
theorem abort_codeState {s : State} (hu : s.unsettled = false)
    (hp : s.phase = .lcwMode ∨ s.phase = .lcwCode ∨ s.phase = .zrle) (used : Nat) (out : List Byte) (e : Error)
    (a : Word) : abort e a (codeState used out s) = streamFailed (errorCode e) a (codeState used out s) := by
  apply abort_stream <;> rw [codeState_frame] <;> assumption

theorem codeEffect_codeState {s : State} {used : Nat} {out : List Byte} (ho : OutputReady s out.length) :
    CodeEffect s (codeState used out s) used out := codeEffect_of_append (m := 0) ho

/-- R79: the output window is full. -/
theorem codeState_full {s : State} {out : List Byte} (ho : OutputReady s out.length)
    (hcap : s.eng.outLen.toNat + out.length = s.opr.dstCap.toNat) (used : Nat) :
    OutputStops (codeState used out s) .outputOverflow s.eng.inPos ∧
      (codeState used out s).eng.outLen = s.opr.dstCap := by
  have hlen := (codeState_outLen (used := used) ho).trans hcap
  have hopr : (codeState used out s).opr = s.opr := by rw [codeState_frame]
  have hstart : (codeState used out s).eng.cmdStart = s.eng.inPos := by rw [codeState_frame]
  refine ⟨?_, BitVec.eq_of_toNat_eq hlen⟩
  rw [← hstart]
  exact outputStops_full (by rw [hopr, BitVec.le_def, hlen])

/-- R71, R79: the platform does not answer at the next output byte. -/
theorem codeState_unwritable {s : State} {out : List Byte} (ho : OutputReady s out.length)
    (hcap : s.eng.outLen.toNat + out.length < s.opr.dstCap.toNat)
    (ha : admits s.platform (outAddr s (s.eng.outLen.toNat + out.length)) = false) (used : Nat) :
    OutputStops (codeState used out s) .busError (outAddr s (s.eng.outLen.toNat + out.length)) := by
  have hlen := codeState_outLen (used := used) ho
  have hopr : (codeState used out s).opr = s.opr := by rw [codeState_frame]
  have haddr : outAddr (codeState used out s) (codeState used out s).eng.outLen.toNat =
      outAddr s (s.eng.outLen.toNat + out.length) := by rw [hlen, outAddr, hopr]; rfl
  rw [← haddr]
  refine outputStops_refused (by rw [hopr, BitVec.lt_def, hlen]; exact hcap) ?_
  rw [haddr, codeState_frame]
  exact ha

/-- R71, R76: the platform does not answer at the next input byte. -/
theorem codeState_unreadable {s : State} {used : Nat} (hlt : s.eng.inPos.toNat + used < s.opr.srcLen.toNat)
    (ha : admits s.platform (inAddr s + BitVec.ofNat 32 used) = false) (out : List Byte) :
    (codeState used out s).eng.inPos < (codeState used out s).opr.srcLen ∧
      admits (codeState used out s).platform (inAddr (codeState used out s)) = false := by
  rw [codeState_inAddr, codeState_frame]
  exact ⟨advanceBy_inPos_lt hlt, ha⟩

/-! ### Payloads -/

theorem lcwPayload_ready {s : State} {k : Nat} (rest : State → Eff Unit) (h : InputReady s (1 + k)) :
    lcwCode (fun s => (inBytes k s).andThen fun _ s => rest s) s = rest (advanceBy (1 + k) (markStart s)) := by
  rw [lcwCode_ready (n := k) _ (h.mono (by omega)), inBytes_ready h.markStart.advanceBy, Eff.ok_andThen, advanceBy_add]

theorem lcwPayload_stop {s : State} {k m : Nat} (hm : m < k) (rest : State → Eff Unit) (h : InputReady s (1 + m))
    {e : Error} {a : Word} (hs : InputStops (codeState (1 + m) [] s) e a) :
    lcwCode (fun s => (inBytes k s).andThen fun _ s => rest s) s = .raise e a (codeState (1 + m) [] s) := by
  have he : codeState (1 + m) [] s = advanceBy m (advanceBy 1 (markStart s)) := by rw [codeState_nil, ← advanceBy_add]
  rw [he] at hs ⊢
  rw [lcwCode_ready (n := m) _ (h.mono (by omega)), inBytes_stop hm h.markStart.advanceBy hs, Eff.raise_andThen]

theorem exec_run_ready {s : State} {n : BitVec 16} {v : Byte} (h : InputReady s 4) :
    exec (.run n v) s = endCode (outRepeat n.toNat v (codeState 4 [] s)) :=
  congrArg endCode (lcwPayload_ready _ h)

theorem exec_zrun_ready {s : State} {n : Byte} (h : InputReady s 2) :
    exec (.zrun n) s = endCode (outRepeat n.toNat 0x00#8 (codeState 2 [] s)) := by
  rw [exec, execZrun, zrleCode_ready (n := 1) _ h, countByte_ready (n := 0) (InputReady.advanceBy (m := 1) h.markStart),
    Eff.ok_andThen, advanceBy_add, codeState_nil]

theorem exec_zlit_ready {s : State} {v : Byte} (h : InputReady s 1) :
    exec (.zlit v) s = endCode (outByte v (codeState 1 [] s)) := by
  rw [exec, execZlit, zrleCode_ready (n := 0) _ h, codeState_nil]

theorem copyBase_of_byMode {s : State} {base : Nat} {p : BitVec 16} (h : CopiesFrom.byMode s base p) :
    copyBase s.eng.mode s.eng.outLen p = (base : Int) := by
  rcases h with ⟨hm, hb⟩ | ⟨hm, hb⟩
  · rw [hm, copyBase]; omega
  · rw [hm, copyBase, hb]

/-- R152, R155, R157, R158: every back-reference is a copy from its base. -/
theorem exec_copiesFrom {s : State} {i : Instr} {base n used : Nat} (h : CopiesFrom s i base n used)
    (hi : InputReady s used) (hwf : s.mem.wf = true) :
    exec i s = endCode (copyLoop n (base : Int) (codeState used [] s)) := by
  rcases h with ⟨c, p, rfl, rfl, rfl, hb⟩ | ⟨k, p, rfl, rfl, rfl, hb⟩ | ⟨c, p, rfl, rfl, rfl, hb⟩
  · have hbase : ((codeState 2 [] s).eng.outLen.toNat : Int) - p.toNat = (base : Int) := by
      show (s.eng.outLen.toNat : Int) - p.toNat = base
      omega
    rw [← hbase, ← srefBody_eq_copyLoop (s := codeState 2 [] s) (by omega) hwf]
    exact congrArg endCode (lcwPayload_ready _ hi)
  · rw [← copyBase_of_byMode hb]
    exact congrArg endCode (lcwPayload_ready _ hi)
  · rw [← copyBase_of_byMode hb]
    exact congrArg endCode (lcwPayload_ready _ hi)

/-! ### Literals -/

/-- One round of LIT's loop (R154). -/
def literalByte (b : Byte) (s : State) : Eff Unit := (inByte s).andThen fun _ s => outByte b s

theorem exec_lit_ready {s : State} {bytes : List Byte} (h : InputReady s 1) :
    exec (.lit bytes) s = endCode (forEach bytes literalByte (codeState 1 [] s)) :=
  congrArg endCode (lcwCode_ready (n := 0) _ h)

/-- Reading and appending commute: the one moves the cursor, the other the output. -/
theorem advanceBy_appendByte (n : Nat) (v : Byte) (s : State) :
    advanceBy n (appendByte v s) = appendByte v (advanceBy n s) := rfl

theorem advanceBy_appendBytes (n : Nat) (bytes : List Byte) (s : State) :
    advanceBy n (appendBytes bytes s) = appendBytes bytes (advanceBy n s) := by
  induction bytes generalizing s with
  | nil => rfl
  | cons v rest ih => exact ih _

theorem codeState_advanceBy (n used : Nat) (out : List Byte) (s : State) :
    advanceBy n (codeState used out s) = codeState (used + n) out s := by
  rw [codeState, advanceBy_appendBytes, advanceBy_add]; rfl

theorem forEach_literalByte_ready {s : State} {bytes : List Byte} (hi : InputReady s bytes.length)
    (ho : OutputReady s bytes.length) :
    forEach bytes literalByte s = .ok () (appendBytes bytes (advanceBy bytes.length s)) := by
  induction bytes generalizing s with
  | nil => rw [forEach_nil, List.length_nil, advanceBy_zero]; rfl
  | cons v rest ih =>
    have hi' : InputReady (advanceBy 1 s) rest.length := InputReady.advanceBy (by rwa [Nat.add_comm])
    have ho' : OutputReady (advanceBy 1 s) (rest.length + 1) := ho.advanceBy
    rw [forEach_cons, literalByte, inByte_ready hi, Eff.ok_andThen, outByte_ready v ho', Eff.ok_andThen,
      ih (s := appendByte v (advanceBy 1 s)) ⟨hi'.room, hi'.answers⟩ ho'.appendByte, advanceBy_appendByte,
      advanceBy_add, Nat.add_comm 1]
    rfl

/-- A literal whose byte `m` cannot be read or appended. -/
theorem exec_lit_stop {s : State} {bytes : List Byte} {m : Nat} (hm : m < bytes.length) (hi : InputReady s (1 + m))
    (ho : OutputReady s m) {e : Error} {a : Word} {u : State}
    (hs : literalByte bytes[m] (codeState (1 + m) (bytes.take m) s) = .raise e a u) :
    exec (.lit bytes) s = .next (abort e a u) := by
  have hlen : (bytes.take m).length = m := List.length_take_of_le hm.le
  have hpre := forEach_literalByte_ready (s := codeState 1 [] s) (bytes := bytes.take m)
    (by rw [hlen]; exact hi.markStart.advanceBy) (by rw [hlen]; exact ho.markStart.advanceBy)
  rw [hlen, codeState_advanceBy] at hpre
  rw [exec_lit_ready (hi.mono (by omega)), forEach_stop hm hpre hs, endCode_raise]

/-! ### Appending codes -/

/-- The history that `lcwAppends` speaks of, and memory's output bytes. -/
theorem copied_history {s : State} {base : Nat} (n : Nat) (h : base < s.eng.outLen.toNat) :
    copied (fun k => (history s).getD k 0#8) (history s).length base n =
      copied (outputByte s) s.eng.outLen.toNat base n := by
  have hlen : (history s).length = s.eng.outLen.toNat := by simp [history]
  rw [hlen]
  refine List.map_congr_left fun j _ => ?_
  have hmod : j % (s.eng.outLen.toNat - base) < s.eng.outLen.toNat - base := Nat.mod_lt _ (by omega)
  show (history s).getD _ 0#8 = _
  rw [List.getD_eq_getElem _ _ (by rw [hlen]; omega)]
  simp [history]

theorem take_copied (byteAt : Nat → Byte) (len base : Nat) {m n : Nat} (h : m ≤ n) :
    (copied byteAt len base n).take m = copied byteAt len base m := by
  rw [copied, ← List.map_take, List.take_range, Nat.min_eq_left h]; rfl

theorem backReference_some {mode : LcwMode} {out bytes : List Byte} {n : Nat} {p : BitVec 16}
    (h : lcwAppends.backReference mode out n p = some bytes) (hne : bytes ≠ []) :
    ∃ base, base < out.length ∧ bytes = copied (fun k => out.getD k 0#8) out.length base n ∧
      ((mode = .rel ∧ p.toNat + base = out.length) ∨ (mode = .abs ∧ base = p.toNat)) := by
  unfold lcwAppends.backReference at h
  split at h
  · cases h; exact absurd rfl hne
  · cases mode with
    | rel =>
      simp only at h
      split at h
      · cases h
      · cases h; exact ⟨out.length - p.toNat, by omega, rfl, .inl ⟨rfl, by omega⟩⟩
    | abs =>
      simp only at h
      split at h
      · cases h
      · cases h; exact ⟨p.toNat, by omega, rfl, .inr ⟨rfl, rfl⟩⟩

theorem Appends.phase {s : State} {i : Instr} {out : List Byte} (h : Appends s i out) :
    s.phase = .lcwMode ∨ s.phase = .lcwCode ∨ s.phase = .zrle := .inr (h.imp And.left And.left)

/-- What a back-reference appends is a copy from its base. -/
theorem Appends.copies {s : State} {i : Instr} {out : List Byte} (h : Appends s i out) (hi : readsHistory i)
    (hne : out ≠ []) : ∃ base n used, CopiesFrom s i base n used ∧ base < s.eng.outLen.toNat ∧
      out = copied (outputByte s) s.eng.outLen.toNat base n ∧ ∀ m, readBefore m i = used := by
  have hlen : (history s).length = s.eng.outLen.toNat := by simp [history]
  have hlcw : lcwAppends s.eng.mode (history s) i = some out := by
    rcases h with ⟨-, h⟩ | ⟨-, h⟩
    · exact h
    · rcases hi with ⟨c, p, rfl⟩ | ⟨n, p, rfl⟩ | ⟨c, p, rfl⟩ <;> cases h
  rcases hi with ⟨c, p, rfl⟩ | ⟨n, p, rfl⟩ | ⟨c, p, rfl⟩
  · simp only [lcwAppends] at hlcw
    split at hlcw
    · cases hlcw
    · cases hlcw
      have hb : (history s).length - p.toNat < s.eng.outLen.toNat := by omega
      exact ⟨_, _, _, .inl ⟨c, p, rfl, rfl, rfl, by omega⟩, hb, copied_history _ hb, fun _ => rfl⟩
  · obtain ⟨base, hb, rfl, hmode⟩ := backReference_some hlcw hne
    rw [hlen] at hb hmode
    exact ⟨_, _, _, .inr (.inl ⟨n, p, rfl, rfl, rfl, hmode⟩), hb, copied_history _ hb, fun _ => rfl⟩
  · obtain ⟨base, hb, rfl, hmode⟩ := backReference_some hlcw hne
    rw [hlen] at hb hmode
    exact ⟨_, _, _, .inr (.inr ⟨c, p, rfl, rfl, rfl, hmode⟩), hb, copied_history _ hb, fun _ => rfl⟩

/-- R79: a code, whatever it is, the byte `m` of which cannot be appended. -/
theorem exec_output_stop {s : State} {i : Instr} {m : Nat} {out : List Byte} (happ : Appends s i out)
    (hm : m < out.length) (hi : InputReady s (readBefore m i)) (ho : OutputReady s m)
    (hh : readsHistory i → HistoryReady s) {e : Error} {a : Word}
    (hs : OutputStops (codeState (readBefore m i) (out.take m) s) e a) :
    exec i s = .next (abort e a (codeState (readBefore m i) (out.take m) s)) := by
  have hready : ∀ k, OutputReady (codeState k [] s) m := fun k => ho.markStart.advanceBy
  have back : readsHistory i → exec i s = .next (abort e a (codeState (readBefore m i) (out.take m) s)) := by
    intro hr
    obtain ⟨base, n, used, hc, hb, rfl, hu⟩ := happ.copies hr (List.ne_nil_of_length_pos (by omega))
    have hmn : m < n := by simpa [copied] using hm
    have hcopy : copyBytes (codeState used [] s) m base = copied (outputByte s) s.eng.outLen.toNat base m :=
      copyBytes_eq_copied (s := codeState used [] s) (m := 0) m (hready used) hb
    rw [hu, take_copied _ _ _ hmn.le, ← hcopy] at hs ⊢
    rw [hu] at hi
    rw [exec_copiesFrom hc hi ho.canonical,
      copyLoop_stop (s := codeState used [] s) hmn hb (hready used) (hh hr) hs]
    rfl
  cases i with
  | lit bytes =>
    rcases happ with ⟨-, happ⟩ | ⟨-, happ⟩
    · cases happ
      refine exec_lit_stop hm (hi.mono (by simp only [readBefore]; omega)) ho ?_
      have hread : InputReady (codeState (1 + m) (out.take m) s) 1 := by
        rw [codeState_frame]
        have := InputReady.advanceBy (m := 1 + m) (n := 1) hi.markStart
        exact ⟨this.room, this.answers⟩
      rw [literalByte, inByte_ready hread, Eff.ok_andThen, codeState_advanceBy]
      exact hs _
    · cases happ
  | run n v =>
    rcases happ with ⟨-, happ⟩ | ⟨-, happ⟩
    · cases happ
      rw [exec_run_ready hi, outRepeat_stop (by simpa using hm) (hready 4) hs, endCode_raise]
      rfl
    · cases happ
  | zrun n =>
    rcases happ with ⟨-, happ⟩ | ⟨-, happ⟩
    · cases happ
    · cases happ
      rw [exec_zrun_ready hi, outRepeat_stop (by simpa using hm) (hready 2) hs, endCode_raise]
      rfl
  | zlit v =>
    rcases happ with ⟨-, happ⟩ | ⟨-, happ⟩
    · cases happ
    · cases happ
      obtain rfl : m = 0 := by simpa using hm
      rw [exec_zlit_ready hi]
      exact congrArg endCode (hs v)
  | sref c p => exact back (.inl ⟨c, p, rfl⟩)
  | lref n p => exact back (.inr (.inl ⟨n, p, rfl⟩))
  | mref c p => exact back (.inr (.inr ⟨c, p, rfl⟩))
  | modeRel | endMark | lcwDecode | zrleExpand | blit | fill | palClear | palPush | palLoad6 | palFind | palRead =>
    rcases happ with ⟨-, happ⟩ | ⟨-, happ⟩ <;> cases happ

/-- The same with its effect: the bytes before it are appended, and the command fails. -/
theorem exec_output_failed {s : State} {i : Instr} {m : Nat} {out : List Byte} (hu : s.unsettled = false)
    (happ : Appends s i out) (hm : m < out.length) (hi : InputReady s (readBefore m i)) (ho : OutputReady s m)
    (hh : readsHistory i → HistoryReady s) {e : Error} {a : Word}
    (hs : OutputStops (codeState (readBefore m i) (out.take m) s) e a) :
    CodeEffect s (codeState (readBefore m i) (out.take m) s) (readBefore m i) (out.take m) ∧
      exec i s = .next (streamFailed (errorCode e) a (codeState (readBefore m i) (out.take m) s)) := by
  refine ⟨codeEffect_codeState (by rwa [List.length_take_of_le hm.le]), ?_⟩
  rw [exec_output_stop happ hm hi ho hh hs, abort_codeState hu happ.phase]

end Sys2Proof.Machine
end

section
/-! SUPPORT. Stream codes that stop at a byte they cannot read (R71, R76, R78): a first byte, a payload byte, or a byte of the
history. -/

namespace Sys2Proof.Machine

/-! ### A code byte that cannot be read -/

@[simp] theorem fetchStart_lcwMode (s : State) : fetchStart .lcwMode s = s := rfl
@[simp] theorem fetchStart_lcw (s : State) : fetchStart .lcw s = markStart s := rfl
@[simp] theorem fetchStart_zrle (s : State) : fetchStart .zrle s = markStart s := rfl

/-- R76: at the end of the input there is no code byte. -/
theorem fetchCode_exhausted {s : State} (h : s.opr.srcLen ≤ s.eng.inPos) (cs : CodeSet) :
    fetchCode cs s = .moved (abort .inputExhausted (fetchStart cs s).eng.cmdStart (fetchStart cs s)) := if_pos h

/-- R71, R76: the platform does not answer at the code byte. -/
theorem fetchCode_refused {s : State} (h : s.eng.inPos < s.opr.srcLen) (ha : admits s.platform (inAddr s) = false)
    (cs : CodeSet) : fetchCode cs s = .moved (abort .busError (inAddr s) (fetchStart cs s)) := by
  rw [fetchCode, if_neg (BitVec.not_le.mpr h), if_pos (by rw [ha]; rfl)]

/-! ### Payloads and the history -/

/-- `i` is an LCW command that has more than `m` payload bytes and reads them all before it appends (R155 to R158). -/
def ReadsPayload (i : Instr) (m : Nat) : Prop :=
  (∃ c p, i = .sref c p) ∧ m < 1 ∨ (∃ n v, i = .run n v) ∧ m < 3 ∨ (∃ n p, i = .lref n p) ∧ m < 4 ∨
    (∃ c p, i = .mref c p) ∧ m < 2

/-- An LCW command whose payload byte `m` cannot be read has appended nothing. -/
theorem exec_payload_stop {s : State} {i : Instr} {m : Nat} (h : ReadsPayload i m) (hi : InputReady s (1 + m))
    {e : Error} {a : Word} (hs : InputStops (codeState (1 + m) [] s) e a) :
    exec i s = .next (abort e a (codeState (1 + m) [] s)) := by
  rcases h with ⟨⟨c, p, rfl⟩, hm⟩ | ⟨⟨n, v, rfl⟩, hm⟩ | ⟨⟨n, p, rfl⟩, hm⟩ | ⟨⟨c, p, rfl⟩, hm⟩ <;>
    exact congrArg endCode (lcwPayload_stop hm _ hi hs)

/-- R71, R192: ZRUN at whose count byte the platform does not answer. -/
theorem exec_zrun_refused {s : State} {n : Byte} (hi : InputReady s 1)
    (hlt : s.eng.inPos.toNat + 1 < s.opr.srcLen.toNat)
    (ha : admits s.platform (inAddr s + BitVec.ofNat 32 1) = false) :
    exec (.zrun n) s = .next (abort .busError (inAddr s + BitVec.ofNat 32 1) (codeState 1 [] s)) := by
  obtain ⟨hpos, hadm⟩ := codeState_unreadable hlt ha []
  rw [← codeState_inAddr 1 [] s, exec, execZrun, zrleCode_ready (n := 0) _ hi, ← codeState_nil,
    countByte_refused hpos hadm, Eff.raise_andThen, endCode_raise]

section
variable {s : State} (hu : s.unsettled = false)
include hu

/-- R71, R76: a code that reads its payload before it appends, at whose payload byte `m` the platform does not answer. -/
theorem exec_payload_refused {i : Instr} {m : Nat}
    (hc : s.phase = .lcwCode ∧ ReadsPayload i m ∨ s.phase = .zrle ∧ (∃ n, i = .zrun n) ∧ m < 1)
    (hi : InputReady s (1 + m)) (hlt : s.eng.inPos.toNat + (1 + m) < s.opr.srcLen.toNat)
    (ha : admits s.platform (inAddr s + BitVec.ofNat 32 (1 + m)) = false) :
    exec i s = .next (streamFailed 0x0A#8 (inAddr s + BitVec.ofNat 32 (1 + m)) (codeState (1 + m) [] s)) := by
  have hexec : exec i s = .next (abort .busError (inAddr s + BitVec.ofNat 32 (1 + m)) (codeState (1 + m) [] s)) := by
    rcases hc with ⟨-, hpay⟩ | ⟨-, ⟨n, rfl⟩, hm⟩
    · obtain ⟨hpos, hadm⟩ := codeState_unreadable hlt ha []
      rw [← codeState_inAddr (1 + m) [] s]
      exact exec_payload_stop hpay hi (inputStops_refused hpos hadm)
    · obtain rfl : m = 0 := by omega
      exact exec_zrun_refused hi hlt ha
  rw [hexec, abort_codeState hu (.inr (hc.imp And.left And.left))]
  rfl

/-- R71, R76: a literal at whose byte `m` the platform does not answer. -/
theorem exec_lit_refused (hp : s.phase = .lcwCode) {bytes : List Byte} {m : Nat} (hm : m < bytes.length)
    (hi : InputReady s (1 + m)) (hlt : s.eng.inPos.toNat + (1 + m) < s.opr.srcLen.toNat) (ho : OutputReady s m)
    (ha : admits s.platform (inAddr s + BitVec.ofNat 32 (1 + m)) = false) :
    exec (.lit bytes) s =
      .next (streamFailed 0x0A#8 (inAddr s + BitVec.ofNat 32 (1 + m)) (codeState (1 + m) (bytes.take m) s)) := by
  obtain ⟨hpos, hadm⟩ := codeState_unreadable hlt ha (bytes.take m)
  have hround : literalByte bytes[m] (codeState (1 + m) (bytes.take m) s) =
      .raise .busError (inAddr s + BitVec.ofNat 32 (1 + m)) (codeState (1 + m) (bytes.take m) s) := by
    rw [← codeState_inAddr (1 + m) (bytes.take m) s, literalByte, inputStops_refused hpos hadm, Eff.raise_andThen]
  rw [exec_lit_stop hm hi ho hround, abort_codeState hu (.inr (.inl hp))]
  rfl

/-- R71, R78: a back-reference that copies byte `j` from an output byte at which the platform does not answer. -/
theorem exec_history_refused (hp : s.phase = .lcwCode) {i : Instr} {base n used j : Nat}
    (hc : CopiesFrom s i base n used) (hj : j < n) (hb : base + j < s.eng.outLen.toNat) (hi : InputReady s used)
    (ho : OutputReady s j) (hr : ∀ k, base ≤ k → k < base + j → admits s.platform (outAddr s k) = true)
    (ha : admits s.platform (outAddr s (base + j)) = false) :
    exec i s = .next (streamFailed 0x0A#8 (outAddr s (base + j))
      (codeState used (copied (outputByte s) s.eng.outLen.toNat base j) s)) := by
  have hready : OutputReady (codeState used [] s) j := ho.markStart.advanceBy
  have hcopy : copyBytes (codeState used [] s) j base = copied (outputByte s) s.eng.outLen.toNat base j :=
    copyBytes_eq_copied (s := codeState used [] s) (m := 0) j hready (show base < s.eng.outLen.toNat by omega)
  have hexec : exec i s = .next (abort .busError (outAddr s (base + j))
      (codeState used (copied (outputByte s) s.eng.outLen.toNat base j) s)) := by
    rw [exec_copiesFrom hc hi ho.canonical, copyLoop_refused (s := codeState used [] s) hj hb hready hr ha,
      endCode_raise, hcopy]
    rfl
  rw [hexec, abort_codeState hu (.inr (.inl hp))]
  rfl

/-! ### First bytes -/

variable (hhost : s.host = []) (hlt : s.eng.inPos < s.opr.srcLen) (ha : admits s.platform (inAddr s) = false)
include hhost hlt ha

/-- R71, R151: the platform does not answer at the mode byte. -/
theorem step_mode_refused (hp : s.phase = .lcwMode) : step s = .next (streamFailed 0x0A#8 (inAddr s) s) := by
  rw [step_engine hhost, engineStep_moved ((fetch_lcwMode hp).trans (fetchCode_refused hlt ha _)), fetchStart_lcwMode,
    abort_stream hu (.inl hp)]
  rfl

/-- R71, R150, R190: the platform does not answer at a code's first byte. -/
theorem step_code_refused (hp : s.phase = .lcwCode ∨ s.phase = .zrle) :
    step s = .next (streamFailed 0x0A#8 (inAddr s) (markStart s)) := by
  have hmoved : fetch s = .moved (abort .busError (inAddr s) (markStart s)) := by
    rcases hp with hp | hp
    · exact (fetch_lcwCode hp).trans (fetchCode_refused hlt ha _)
    · rw [fetch_zrle hp, if_neg (BitVec.not_le.mpr hlt), fetchCode_refused hlt ha, fetchStart_zrle]
  rw [step_engine hhost, engineStep_moved hmoved, abort_stream (s := markStart s) hu (.inr hp)]
  rfl

end

end Sys2Proof.Machine
end

section
/-! SUPPORT. BLIT and FILL pixel by pixel (R214, R215, R218): their loops by pixel number, the addresses of their pixels, and
memory after the first pixels. -/

namespace Sys2Proof.Machine

/-! ### Loops by number -/

theorem forEach_map {α β : Type} (g : α → β) (xs : List α) (f : β → State → Eff Unit) (s : State) :
    forEach (xs.map g) f s = forEach xs (fun x => f (g x)) s := by
  induction xs generalizing s with
  | nil => rfl
  | cons x rest ih =>
    rw [List.map_cons, forEach_cons, forEach_cons]
    cases f (g x) s with
    | ok v t => exact ih t
    | raise e a t => rfl

/-- A loop over numbers whose round `k` leads from the state `S k` to `S (k + 1)`. -/
theorem forEach_range {f : Nat → State → Eff Unit} {S : Nat → State} {n : Nat}
    (h : ∀ k, k < n → f k (S k) = .ok () (S (k + 1))) : forEach (List.range n) f (S 0) = .ok () (S n) := by
  induction n with
  | zero => rfl
  | succ n ih =>
    rw [List.range_succ, forEach_append, ih fun k hk => h k (by omega), Eff.ok_andThen, forEach_cons, h n (by omega)]
    rfl

/-- The same, when round `k` raises. -/
theorem forEach_range_stop {f : Nat → State → Eff Unit} {S : Nat → State} {k n : Nat} (hk : k < n)
    (h : ∀ j, j < k → f j (S j) = .ok () (S (j + 1))) {e : Error} {a : Word} {u : State}
    (hs : f k (S k) = .raise e a u) : forEach (List.range n) f (S 0) = .raise e a u := by
  refine forEach_stop (m := k) (by simpa using hk) ?_ (by simpa using hs)
  rw [List.take_range, Nat.min_eq_left hk.le, forEach_range h]

/-- R214: the points of a rect in row-major order, by number. -/
theorem offsets_eq (w h : Nat) : offsets w h = (List.range (w * h)).map fun k => (k % w, k / w) := by
  induction h with
  | zero => rfl
  | succ h ih =>
    have hrow : ((List.range w).map fun i => (i, h)) =
        (List.range w).map fun i => ((w * h + i) % w, (w * h + i) / w) := by
      refine List.map_congr_left fun i hi => ?_
      have hi := List.mem_range.mp hi
      rw [Nat.mul_add_mod, Nat.mod_eq_of_lt hi, Nat.mul_add_div (by omega), Nat.div_eq_of_lt hi, Nat.add_zero]
    rw [Nat.mul_succ, List.range_add, List.map_append, ← ih, List.map_map]
    simp only [offsets, List.range_succ, List.flatMap_append, List.flatMap_singleton, hrow]
    rfl

/-! ### Pixels by number -/

theorem dimW_eq (w : Word) : dimW w = bitmapW w := by simp [dimW, bitmapW]

theorem dimH_eq (w : Word) : dimH w = bitmapH w := by
  have := w.isLt
  simp only [dimH, bitmapH, BitVec.extractLsb'_toNat, Nat.shiftRight_eq_div_pow]
  omega

theorem clippedSource_eq (o : Operands) : clippedSource o = sourceClip o := by
  rw [clippedSource, dimW_eq, dimH_eq]; rfl

theorem clippedDest_eq (o : Operands) : clippedDest o = destClip o := by
  rw [clippedDest, dimW_eq, dimH_eq]; rfl

theorem sourceClip_bounds (o : Operands) :
    0 ≤ (sourceClip o).left ∧ (sourceClip o).left + (sourceClip o).width ≤ bitmapW o.bsDim ∧
      0 ≤ (sourceClip o).top ∧ (sourceClip o).top + (sourceClip o).height ≤ bitmapH o.bsDim :=
  clip_bounds (sourceRect o) _ _

theorem destClip_bounds (o : Operands) :
    0 ≤ (destClip o).left ∧ (destClip o).left + (destClip o).width ≤ bitmapW o.bdDim ∧
      0 ≤ (destClip o).top ∧ (destClip o).top + (destClip o).height ≤ bitmapH o.bdDim :=
  clip_bounds (destRect o) _ _

theorem destPixel_eq (o : Operands) (k : Nat) :
    destPixel o (k % (destClip o).width, k / (destClip o).width) = pixelTo o k := by
  obtain ⟨hl, -, ht, -⟩ := destClip_bounds o
  rw [destPixel, pixAddr, pixelTo, clippedDest_eq, dimW_eq, Int.toNat_add hl (Int.natCast_nonneg _),
    Int.toNat_add ht (Int.natCast_nonneg _), Int.toNat_natCast, Int.toNat_natCast]

theorem blitFrom_eq (o : Operands) (k : Nat) :
    blitFrom o (k % (destClip o).width, k / (destClip o).width) = pixelFrom o k := by
  obtain ⟨hl, -, ht, -⟩ := sourceClip_bounds o
  rw [blitFrom, pixAddr, pixelFrom, clippedSource_eq, clippedDest_eq, dimW_eq, mapAxis, mapAxis,
    Int.toNat_add hl (Int.natCast_nonneg _), Int.toNat_add ht (Int.natCast_nonneg _), Int.toNat_natCast,
    Int.toNat_natCast]

/-- How many pixels the clipped destination rect has. -/
def pixelCount (o : Operands) : Nat := (destClip o).width * (destClip o).height

theorem column_lt {o : Operands} {k : Nat} (hk : k < pixelCount o) : k % (destClip o).width < (destClip o).width :=
  Nat.mod_lt _ (Nat.pos_of_mul_pos_right (Nat.zero_lt_of_lt hk))

theorem row_lt {o : Operands} {k : Nat} (hk : k < pixelCount o) : k / (destClip o).width < (destClip o).height :=
  Nat.div_lt_of_lt_mul hk

theorem destClip_nonempty {o : Operands} {k : Nat} (hk : k < pixelCount o) : (destClip o).isEmpty = false := by
  simp only [Rect.isEmpty, Bool.or_eq_false_iff, decide_eq_false_iff_not]
  exact ⟨Nat.ne_zero_of_lt (column_lt hk), Nat.ne_zero_of_lt (row_lt hk)⟩

/-- A point of a bitmap that passes the check of R75: its address, in numbers, does not wrap and lies in the bitmap. -/
theorem pixel_toNat {base : Word} {W H x y : Nat} (hr : base.toNat + W * H ≤ Config.addrSpace) (hx : x < W) (hy : y < H) :
    (BitVec.ofNat 32 (base.toNat + y * W + x)).toNat = base.toNat + y * W + x ∧
      Window.contains ⟨base.toNat, W * H⟩ (BitVec.ofNat 32 (base.toNat + y * W + x)).toNat = true := by
  have hlt := pixel_lt hx hy
  simp only [Config.addrSpace] at hr
  have he : (BitVec.ofNat 32 (base.toNat + y * W + x)).toNat = base.toNat + y * W + x := by
    rw [BitVec.toNat_ofNat, Nat.mod_eq_of_lt (by omega)]
  refine ⟨he, ?_⟩
  rw [he]
  simp only [Window.contains, Bool.and_eq_true, decide_eq_true_eq]
  omega

theorem bitmap_inRange {base dim : Word} (h : Window.inRange ⟨base.toNat, dimW dim * dimH dim⟩ = true) :
    base.toNat + bitmapW dim * bitmapH dim ≤ Config.addrSpace := by
  rw [← dimW_eq, ← dimH_eq]; exact of_decide_eq_true h

/-- Pixel number `k` of the clipped destination rect is a point of the destination bitmap, and its address does not wrap. -/
theorem pixelTo_toNat {o : Operands} (hr : (destBitmap o).inRange = true) {k : Nat} (hk : k < pixelCount o) :
    (pixelTo o k).toNat = o.bdAddr.toNat + ((destClip o).top.toNat + k / (destClip o).width) * bitmapW o.bdDim +
        ((destClip o).left.toNat + k % (destClip o).width) ∧
      (destClip o).left.toNat + k % (destClip o).width < bitmapW o.bdDim ∧
      (destBitmap o).contains (pixelTo o k).toNat = true := by
  obtain ⟨hl, hw, ht, hh⟩ := destClip_bounds o
  have hx := column_lt hk
  have hy := row_lt hk
  have hcol : (destClip o).left.toNat + k % (destClip o).width < bitmapW o.bdDim := by omega
  obtain ⟨he, hmem⟩ := pixel_toNat (bitmap_inRange hr) hcol
    (show (destClip o).top.toNat + k / (destClip o).width < bitmapH o.bdDim by omega)
  exact ⟨he, hcol, by rw [destBitmap, dimW_eq, dimH_eq]; exact hmem⟩

/-- R217: the per-axis map stays inside the clipped source. -/
theorem mapped_lt {d cs cd : Nat} (hcs : 0 < cs) (hd : d < cd) : d * cs / cd < cs :=
  Nat.div_lt_of_lt_mul (Nat.mul_lt_mul_of_pos_right hd hcs)

/-- A source pixel is a point of the source bitmap. -/
theorem pixelFrom_mem {o : Operands} (hr : (sourceBitmap o).inRange = true) (hs : (sourceClip o).isEmpty = false) {k : Nat}
    (hk : k < pixelCount o) : (sourceBitmap o).contains (pixelFrom o k).toNat = true := by
  obtain ⟨hl, hw, ht, hh⟩ := sourceClip_bounds o
  simp only [Rect.isEmpty, Bool.or_eq_false_iff, decide_eq_false_iff_not] at hs
  have hx := mapped_lt (cs := (sourceClip o).width) (by omega) (column_lt hk)
  have hy := mapped_lt (cs := (sourceClip o).height) (by omega) (row_lt hk)
  rw [pixelFrom, sourceBitmap, dimW_eq, dimH_eq]
  generalize k % (destClip o).width * (sourceClip o).width / (destClip o).width = x at hx ⊢
  generalize k / (destClip o).width * (sourceClip o).height / (destClip o).height = y at hy ⊢
  exact (pixel_toNat (bitmap_inRange hr) (show (sourceClip o).left.toNat + x < bitmapW o.bsDim by omega)
    (show (sourceClip o).top.toNat + y < bitmapH o.bsDim by omega)).2

theorem pixel_inj {x y x' y' W : Nat} (hx : x < W) (hx' : x' < W) (h : y * W + x = y' * W + x') : x = x' ∧ y = y' := by
  have hmod := congrArg (· % W) h
  have hdiv := congrArg (· / W) h
  simp only [Nat.mul_comm _ W, Nat.mul_add_mod, Nat.mod_eq_of_lt hx, Nat.mod_eq_of_lt hx',
    Nat.mul_add_div (Nat.zero_lt_of_lt hx), Nat.div_eq_of_lt hx, Nat.div_eq_of_lt hx', Nat.add_zero] at hmod hdiv
  exact ⟨hmod, hdiv⟩

/-- Different pixels stand at different addresses. -/
theorem pixelTo_inj {o : Operands} (hr : (destBitmap o).inRange = true) {j k : Nat} (hj : j < pixelCount o)
    (hk : k < pixelCount o) (h : (pixelTo o j).toNat = (pixelTo o k).toNat) : j = k := by
  obtain ⟨ej, cj, -⟩ := pixelTo_toNat hr hj
  obtain ⟨ek, ck, -⟩ := pixelTo_toNat hr hk
  obtain ⟨hcol, hrow⟩ := pixel_inj cj ck (y := (destClip o).top.toNat + j / (destClip o).width)
    (y' := (destClip o).top.toNat + k / (destClip o).width) (by omega)
  rw [← Nat.div_add_mod j (destClip o).width, ← Nat.div_add_mod k (destClip o).width, Nat.add_left_cancel hcol,
    Nat.add_left_cancel hrow]

/-! ### Memory after the first pixels -/

/-- Memory after `n` writes: write number `k` stores `val k` at `addr k`. -/
def paint (addr : Nat → Word) (val : Nat → Byte) : Nat → Memory → Memory
  | 0, m => m
  | n + 1, m => (paint addr val n m).write (addr n).toNat (val n)

theorem paint_wf {m : Memory} (h : m.wf = true) (addr : Nat → Word) (val : Nat → Byte) (n : Nat) :
    (paint addr val n m).wf = true := by
  induction n with
  | zero => exact h
  | succ n ih => exact Memory.wf_write ih (word_lt_addrSpace _) _

theorem paint_read_other {addr : Nat → Word} {val : Nat → Byte} {n : Nat} {m : Memory} {a : Nat}
    (h : ∀ k, k < n → a ≠ (addr k).toNat) : (paint addr val n m).read a = m.read a := by
  induction n with
  | zero => rfl
  | succ n ih => rw [paint, Memory.read_write_ne _ _ (h n (by omega)), ih fun k hk => h k (by omega)]

/-- A written byte holds its value, when writes to one address store one value. -/
theorem paint_read {addr : Nat → Word} {val : Nat → Byte} {n : Nat} {m : Memory} (hm : m.wf = true)
    (hval : ∀ j k, j < n → k < n → (addr j).toNat = (addr k).toNat → val j = val k) {k : Nat} (hk : k < n) :
    (paint addr val n m).read (addr k).toNat = val k := by
  induction n with
  | zero => omega
  | succ n ih =>
    rw [paint]
    by_cases he : (addr k).toNat = (addr n).toNat
    · rw [he, Memory.read_write_same (paint_wf hm addr val n), hval k n hk (by omega) he]
    · have hne : k ≠ n := fun h => he (by rw [h])
      rw [Memory.read_write_ne _ _ he]
      exact ih (fun i j hi hj => hval i j (by omega) (by omega)) (by omega)

/-- The state after `n` writes. -/
def painted (addr : Nat → Word) (val : Nat → Byte) (n : Nat) (s : State) : State := { s with mem := paint addr val n s.mem }

theorem memWrite_painted {addr : Nat → Word} {val : Nat → Byte} {n : Nat} {s : State}
    (h : admits s.platform (addr n) = true) :
    memWrite (addr n) (val n) (painted addr val n s) = .ok () (painted addr val (n + 1) s) :=
  memWrite_admitted (s := painted addr val n s) h

/-! ### FILL -/

theorem fillBody_eq (s : State) : fillBody s =
    forEach (List.range (pixelCount s.opr)) (fun k => memWrite (pixelTo s.opr k) s.opr.fillVal) s := by
  rw [fillBody, clippedDest_eq, offsets_eq, forEach_map]
  simp only [destPixel_eq]
  rfl

/-- The state after FILL's first `k` pixels. -/
def filled (k : Nat) (s : State) : State := painted (pixelTo s.opr) (fun _ => s.opr.fillVal) k s

theorem fillBody_refused {s : State} {k : Nat} (hk : k < pixelCount s.opr)
    (hpre : ∀ j, j < k → admits s.platform (pixelTo s.opr j) = true)
    (ha : admits s.platform (pixelTo s.opr k) = false) :
    fillBody s = .raise .busError (pixelTo s.opr k) (filled k s) := by
  rw [fillBody_eq]
  exact forEach_range_stop (S := fun j => filled j s) hk (fun j hj => memWrite_painted (hpre j hj)) (memWrite_refused ha)

/-! ### BLIT -/

/-- BLIT's pixel number `k`. -/
def blitRound (o : Operands) (k : Nat) (s : State) : Eff Unit :=
  (memRead (pixelFrom o k) s).andThen fun v s => memWrite (pixelTo o k) v s

theorem blitPixel_eq (o : Operands) (k : Nat) :
    blitPixel o (k % (destClip o).width, k / (destClip o).width) = blitRound o k := by
  funext s
  rw [blitPixel, blitFrom_eq, destPixel_eq]
  rfl

theorem blitBody_eq {s : State} (hs : (sourceClip s.opr).isEmpty = false) (hd : (destClip s.opr).isEmpty = false) :
    blitBody s = forEach (List.range (pixelCount s.opr)) (blitRound s.opr) s := by
  rw [blitBody, clippedSource_eq, clippedDest_eq, hs, hd, offsets_eq, forEach_map]
  simp only [blitPixel_eq]
  rfl

/-- The state after BLIT's first `k` pixels. -/
def blitted (k : Nat) (s : State) : State :=
  painted (pixelTo s.opr) (fun j => s.mem.read (pixelFrom s.opr j).toNat) k s

/-- The two bitmaps of a BLIT that is ready. -/
theorem Ready.bitmaps {s : State} (h : Ready .blit s) : (sourceBitmap s.opr).inRange = true ∧
    (destBitmap s.opr).inRange = true ∧ (sourceBitmap s.opr).overlaps (destBitmap s.opr) = false := by
  have hr := h.inRange
  have ho := h.apart
  simp only [windowsInRange, windows, windowsOverlap, readWindows, writtenWindows, List.cons_append, List.nil_append,
    List.all_cons, List.all_nil, List.any_cons, List.any_nil, Bool.and_true, Bool.or_false, Bool.and_eq_true] at hr ho
  exact ⟨hr.1, hr.2, ho⟩

/-- BLIT has written no pixel that it still reads (R91). -/
theorem blitted_read_source {s : State} (h : Ready .blit s) (hs : (sourceClip s.opr).isEmpty = false) {j k : Nat}
    (hj : j < pixelCount s.opr) (hk : k ≤ pixelCount s.opr) :
    (blitted k s).mem.read (pixelFrom s.opr j).toNat = s.mem.read (pixelFrom s.opr j).toNat := by
  obtain ⟨hsrc, hdst, hapart⟩ := h.bitmaps
  refine paint_read_other fun i hi he => ?_
  have hin := (pixelTo_toNat hdst (hi.trans_le hk)).2.2
  rw [← he] at hin
  have := Window.overlaps_iff.mpr ⟨_, pixelFrom_mem hsrc hs hj, hin⟩
  simp [hapart] at this

/-- BLIT stops at pixel `k`. -/
theorem blitBody_stop {s : State} (h : Ready .blit s) (hs : (sourceClip s.opr).isEmpty = false) {k : Nat}
    (hk : k < pixelCount s.opr)
    (hpre : ∀ j, j < k → admits s.platform (pixelFrom s.opr j) = true ∧ admits s.platform (pixelTo s.opr j) = true)
    {e : Error} {a : Word} (hstop : blitRound s.opr k (blitted k s) = .raise e a (blitted k s)) :
    blitBody s = .raise e a (blitted k s) := by
  rw [blitBody_eq hs (destClip_nonempty hk)]
  refine forEach_range_stop (S := fun j => blitted j s) hk (fun j hj => ?_) hstop
  obtain ⟨hfrom, hto⟩ := hpre j hj
  rw [blitRound, memRead_admitted (s := blitted j s) hfrom, Eff.ok_andThen,
    blitted_read_source h hs (hj.trans hk) (hj.trans hk).le]
  exact memWrite_painted (val := fun j => s.mem.read (pixelFrom s.opr j).toNat) hto

/-- What memory holds after BLIT's first `k` pixels. -/
theorem blitted_read {s : State} (h : Ready .blit s) {k : Nat} (hk : k ≤ pixelCount s.opr) :
    (∀ j, j < k → (blitted k s).mem.read (pixelTo s.opr j).toNat = s.mem.read (pixelFrom s.opr j).toNat) ∧
      ∀ a, (∀ j, j < k → a ≠ (pixelTo s.opr j).toNat) → (blitted k s).mem.read a = s.mem.read a := by
  obtain ⟨-, hdst, -⟩ := h.bitmaps
  refine ⟨fun j hj => paint_read h.canonical (fun i j hi hj he => ?_) hj, fun a ha => paint_read_other ha⟩
  rw [pixelTo_inj hdst (hi.trans_le hk) (hj.trans_le hk) he]

/-- R71, R215, R284: BLIT that stops at a refused access for pixel `k` keeps the pixels before it. -/
theorem exec_blit_refused {s : State} (h : Ready .blit s) (hs : (sourceClip s.opr).isEmpty = false) {k : Nat}
    (hk : k < pixelCount s.opr)
    (hpre : ∀ j, j < k → admits s.platform (pixelFrom s.opr j) = true ∧ admits s.platform (pixelTo s.opr j) = true)
    {a : Word} (hstop : blitRound s.opr k (blitted k s) = .raise .busError a (blitted k s)) :
    ∃ m, exec .blit s = .next (failed 0x0A#8 a { s with mem := m }) ∧
      (∀ j, j < k → m.read (pixelTo s.opr j).toNat = s.mem.read (pixelFrom s.opr j).toNat) ∧
      ∀ b, (∀ j, j < k → b ≠ (pixelTo s.opr j).toNat) → m.read b = s.mem.read b := by
  refine ⟨(blitted k s).mem, ?_, blitted_read h hk.le⟩
  rw [exec, execBlit, runBody_ready h rfl, blitBody_stop h hs hk hpre hstop, endBody_raise,
    abort_accepted (s := blitted k s) h.settled h.accepted]
  rfl

end Sys2Proof.Machine
end

section
/-! SUPPORT. PAL_LOAD6 entry by entry (R255, R256): an entry whose bytes can be read is pushed, and one of whose bytes one
cannot be read ends the command. -/

namespace Sys2Proof.Machine

/-- R255: the expansion of a channel, in numbers. -/
theorem expand6_eq (v : Byte) : expand6 v = rawChannel v := by
  apply BitVec.eq_of_toNat_eq
  simp [expand6, rawChannel]

/-! ### Several pushes -/

theorem pushMany_snoc {xs : List Color} {c : Color} {r : List Color × BitVec 16 × Bool} {q : List Color} {i : BitVec 16}
    {found : Bool} (h : pushMany (xs ++ [c]) r = some (q, i, found)) :
    ∃ p j g k, pushMany xs r = some (p, j, g) ∧ pushColor p c = some (q, k, found) ∧ i = BitVec.ofNat 16 k := by
  induction xs generalizing r with
  | nil =>
    obtain ⟨p, j, g⟩ := r
    simp only [List.nil_append, pushMany] at h
    split at h
    · rename_i hp; cases h; exact ⟨p, j, g, _, rfl, hp, rfl⟩
    · cases h
  | cons d rest ih =>
    obtain ⟨p, j, g⟩ := r
    simp only [List.cons_append, pushMany] at h ⊢
    split at h
    · exact ih h
    · cases h

/-! ### One entry -/

/-- An entry whose three bytes can be read is pushed. -/
theorem loadEntry_ready {s : State} {e : Nat} (h : ∀ r, r < 3 → admits s.platform (rawAddr s (3 * e + r)) = true) :
    loadEntry e s = (push (rawColor s e) (BitVec.ofNat 32 (3 * e)) s).andThen fun _ s =>
      .ok () { s with inUsed := BitVec.ofNat 32 (3 * (e + 1)) } := by
  simp only [loadEntry, memRead_admitted (show admits s.platform (rawAddr s (3 * e)) = true from h 0 (by omega)),
    memRead_admitted (h 1 (by omega)), memRead_admitted (h 2 (by omega)), Eff.ok_andThen, expand6_eq]
  rfl

/-- R71, R256: an entry at whose byte `r` the platform does not answer. -/
theorem loadEntry_refused {s : State} {e r : Nat} (hr : r < 3)
    (hpre : ∀ q, q < r → admits s.platform (rawAddr s (3 * e + q)) = true)
    (ha : admits s.platform (rawAddr s (3 * e + r)) = false) :
    loadEntry e s = .raise .busError (rawAddr s (3 * e + r)) s := by
  rw [loadEntry]
  obtain rfl | rfl | rfl : r = 0 ∨ r = 1 ∨ r = 2 := by omega
  · rw [memRead_refused (show admits s.platform (rawAddr s (3 * e)) = false from ha)]
    rfl
  · rw [memRead_admitted (show admits s.platform (rawAddr s (3 * e)) = true from hpre 0 (by omega)), Eff.ok_andThen,
      memRead_refused ha, Eff.raise_andThen]
  · rw [memRead_admitted (show admits s.platform (rawAddr s (3 * e)) = true from hpre 0 (by omega)), Eff.ok_andThen,
      memRead_admitted (hpre 1 (by omega)), Eff.ok_andThen, memRead_refused ha, Eff.raise_andThen]

/-! ### The first entries -/

/-- The state after the first `e` entries, pushed with these results. -/
def loaded (e : Nat) (p : List Color) (i : BitVec 16) (found : Bool) (s : State) : State :=
  { s with palette := p, palIndex := i, inUsed := BitVec.ofNat 32 (3 * e), status := { s.status with found := found } }

theorem forEach_loadEntry {s : State} (hz : s.inUsed = 0#32) {e : Nat}
    (hadm : ∀ j, j < 3 * e → admits s.platform (rawAddr s j) = true) {p : List Color} {i : BitVec 16} {found : Bool}
    (hp : pushMany ((List.range e).map (rawColor s)) (s.palette, s.palIndex, s.status.found) = some (p, i, found)) :
    forEach (List.range e) loadEntry s = .ok () (loaded e p i found s) := by
  induction e generalizing p i found with
  | zero => cases hp; rw [loaded, Nat.mul_zero, ← hz]; rfl
  | succ e ih =>
    rw [List.range_succ, List.map_append] at hp
    obtain ⟨q, j, g, k, hpre, hpush, rfl⟩ := pushMany_snoc hp
    rw [List.range_succ, forEach_append, ih (fun j hj => hadm j (by omega)) hpre, Eff.ok_andThen, forEach_cons,
      loadEntry_ready (s := loaded e q j g s) (fun r hr => hadm (3 * e + r) (by omega)), push,
      show pushColor (loaded e q j g s).palette (rawColor (loaded e q j g s) e) = some (p, k, found) from hpush]
    rfl

theorem Ready.inUsed {i : Instr} {s : State} (h : Ready i s) (n : Word) : Ready i { s with inUsed := n } :=
  ⟨h.accepted, h.settled, h.canonical, h.inRange, h.noDevice, h.apart⟩

/-- R71, R256, R284: PAL_LOAD6 at whose byte `k` the platform does not answer keeps the entries before it. -/
theorem exec_palLoad6_refused {s : State} (h : Ready .palLoad6 s) (hlen : s.opr.srcLen.toNat % 3 = 0) {k : Nat}
    (hk : k < s.opr.srcLen.toNat) (hpre : ∀ j, j < k → admits s.platform (rawAddr s j) = true)
    (ha : admits s.platform (rawAddr s k) = false) {p : List Color} {i : BitVec 16} {found : Bool}
    (hp : pushMany ((List.range (k / 3)).map (rawColor s)) (s.palette, s.palIndex, s.status.found) =
      some (p, i, found)) :
    exec .palLoad6 s = .next (failed 0x0A#8 (rawAddr s k) (loaded (k / 3) p i found s)) := by
  have hsplit : 3 * (k / 3) + k % 3 = k := Nat.div_add_mod k 3
  have hentries : forEach (List.range (k / 3)) loadEntry { s with inUsed := 0#32 } =
      .ok () (loaded (k / 3) p i found s) :=
    forEach_loadEntry (s := { s with inUsed := 0#32 }) rfl (fun j hj => hpre j (by omega)) hp
  have hentry : loadEntry (k / 3) (loaded (k / 3) p i found s) =
      .raise .busError (rawAddr s k) (loaded (k / 3) p i found s) := by
    have := loadEntry_refused (s := loaded (k / 3) p i found s) (e := k / 3) (r := k % 3) (Nat.mod_lt _ (by decide))
      (fun q hq => hpre _ (by omega)) (by rw [hsplit]; exact ha)
    rwa [hsplit] at this
  have hbody : forEach (List.range (s.opr.srcLen.toNat / 3)) loadEntry { s with inUsed := 0#32 } =
      .raise .busError (rawAddr s k) (loaded (k / 3) p i found s) := by
    refine forEach_stop (m := k / 3) (by simp; omega) ?_ (by simpa using hentry)
    rw [List.take_range, Nat.min_eq_left (Nat.div_le_div_right hk.le), hentries]
  rw [exec, execPalLoad6, runBody_ready (h.inUsed 0#32) (by simp [hlen])]
  show endBody (forEach (List.range (s.opr.srcLen.toNat / 3)) loadEntry { s with inUsed := 0#32 }) = _
  rw [hbody, endBody_raise, abort_accepted (s := loaded (k / 3) p i found s) h.settled h.accepted]
  rfl

end Sys2Proof.Machine
end

section
/-! The statements of 20_memory.md. -/

namespace Sys2Proof.Machine

/-- Settles O16. -/
theorem unterminatedStreamFails : Obligations.UnterminatedStreamFails := by
  intro s hhost hu hend
  rw [step_engine hhost]
  refine ⟨fun hp => ?_, fun hp hinv => ?_⟩
  · rw [engineStep_moved ((fetch_lcwCode hp).trans (fetchCode_exhausted hend _)), fetchStart_lcw,
      abort_stream (s := markStart s) hu (.inr (.inl hp))]
    rfl
  · obtain ⟨-, -, hstart⟩ := hinv.modeByte hp
    rw [engineStep_moved ((fetch_lcwMode hp).trans (fetchCode_exhausted hend _)), fetchStart_lcwMode, hstart,
      abort_stream hu (.inl hp)]
    rfl

/-- Settles O19: the output window is full when the bytes that fit have been appended. -/
theorem overflowStopsAtTheCapacity : Obligations.OverflowStopsAtTheCapacity := by
  intro s i m out hu happ hm hcap hi ho hh
  have hlen : (out.take m).length = m := List.length_take_of_le hm.le
  obtain ⟨hs, hfull⟩ := codeState_full (out := out.take m) (by rwa [hlen]) (by rwa [hlen]) (readBefore m i)
  obtain ⟨heffect, hexec⟩ := exec_output_failed hu happ hm hi ho hh hs
  exact ⟨_, heffect, hfull, hexec⟩

/-- Settles O23: a stream code's write, and a pixel's. -/
theorem refusedWriteIsABusError : Obligations.RefusedWriteIsABusError := by
  refine ⟨fun s i m out hu happ hm hcap hi ho hh ha => ?_, fun s k h hs hk hpre hfrom hto => ?_⟩
  · have hlen : (out.take m).length = m := List.length_take_of_le hm.le
    have hstop := codeState_unwritable (out := out.take m) (by rwa [hlen]) (by rwa [hlen]) (by rwa [hlen])
      (readBefore m i)
    rw [hlen] at hstop
    exact ⟨_, exec_output_failed hu happ hm hi ho hh hstop⟩
  · refine exec_blit_refused h hs hk hpre ?_
    rw [blitRound, memRead_admitted (s := blitted k s) hfrom, Eff.ok_andThen, memWrite_refused (s := blitted k s) hto]

/-- Settles O24, clause by clause: a code's first byte, LIT's bytes, the other payloads, the history, the source pixels and
the raw palette. -/
theorem refusedCodeByteIsABusError : Obligations.RefusedCodeByteIsABusError := by
  refine ⟨fun s hhost hu hlt ha => ⟨step_mode_refused hu hhost hlt ha, step_code_refused hu hhost hlt ha⟩,
    fun s bytes m hp hu hm hi hlt ho ha => ?_, fun s i m hu hc hi hlt ha => ?_,
    fun s i base n used j hp hu hc hj hb hi ho hr ha => ?_, fun s k h hs hk hpre ha => ?_,
    fun s k p i found h hlen hk hpre ha hp => exec_palLoad6_refused h hlen hk hpre ha hp⟩
  · exact ⟨_, codeEffect_codeState (by rwa [List.length_take_of_le hm.le]),
      exec_lit_refused hu hp hm hi (by omega) ho ha⟩
  · exact exec_payload_refused hu hc hi (by omega) ha
  · exact ⟨_, codeEffect_codeState (by simpa [copied] using ho), exec_history_refused hu hp hc hj hb hi ho hr ha⟩
  · refine exec_blit_refused h hs hk hpre ?_
    rw [blitRound, memRead_refused (s := blitted k s) ha, Eff.raise_andThen]

/-- Settles O31. -/
theorem fillStopsAtARefusedPixel : Obligations.FillStopsAtARefusedPixel := by
  intro s k h hk hpre ha
  refine ⟨(filled k s).mem, ?_, fun j hj => paint_read h.canonical (fun _ _ _ _ _ => rfl) hj,
    fun a hne => paint_read_other hne⟩
  rw [exec, execFill, runBody_ready h rfl, fillBody_refused hk hpre ha, endBody_raise,
    abort_accepted (s := filled k s) h.settled h.accepted]
  rfl

/-- Settles O42. -/
theorem windowOverADeviceIsRefused : Obligations.WindowOverADeviceIsRefused := by
  rintro s i hi hr hlen ⟨r, hmem, hk, w, hw, a, hra, hra', hwa, hwa'⟩
  exact exec_device hi hr (badLength_eq_false hlen) (overDevice_of_shared hmem hk hw
    (Window.contains_iff.mpr ⟨hra, hra'⟩) (Window.contains_iff.mpr ⟨hwa, hwa'⟩))

/-- Settles O47. -/
theorem narrowOrMisalignedAccessIsABusError : Obligations.NarrowOrMisalignedAccessIsABusError := by
  intro s offset width v later h
  have hbad : accessOk offset width = false := by
    simp only [accessOk, Bool.and_eq_false_iff, decide_eq_false_iff_not]; exact h
  exact ⟨fun hh => by simp [step_host hh, hostAct, hostRegRead, hbad],
    fun hh => by simp [step_host hh, hostAct, hostRegWrite, hbad]⟩

/-- Settles O49. -/
theorem hostAccessToALiveWindow : Obligations.HostAccessToALiveWindow := by
  intro s a v later i hi hr hwf
  refine ⟨fun hh hu ho hw => ?_, fun hh hw => ?_⟩
  · have live : inSome (liveWritten { s with host := later }) a.toNat = true := by
      rw [liveWritten_running (s := { s with host := later }) hi hr]; exact inSome_iff.mpr hw
    exact ⟨_, _, (step_host hh).trans (congrArg _ (hostMemRead_live live)), rfl, rfl, rfl, rfl,
      settleByte_cases (s := { s with host := later }) hi hu ho _⟩
  · have live : inSome (liveWindows { s with host := later }) a.toNat = true := by
      rw [liveWindows_running (s := { s with host := later }) hi hr]; exact inSome_iff.mpr hw
    refine ⟨_, step_host hh, ?_, Memory.read_write_same hwf _ _, fun b hb => Memory.read_write_ne _ _ hb⟩
    rw [hostAct, hostMemWrite_unsettled, live, Bool.or_true]

/-- Settles O50. -/
theorem unspecifiedResultsStillEnd : Obligations.UnspecifiedResultsStillEnd := by
  intro s hu t ht
  have ends : ∀ v, t = endCommand s v → EndStep s t →
      t.phase = .idle ∧ t.unsettled = false ∧ t.status.done ≠ t.status.err ∧ t.errCode.toNat ≤ 0x0A ∧
        t.opr = s.opr ∧ t.irqEn = s.irqEn ∧ ∀ a, inSome (liveWritten s) a = false → t.mem.read a = s.mem.read a := by
    rintro v rfl k
    obtain ⟨hflags, hcode⟩ := endCommand_unsettled hu v
    exact ⟨k.phase, k.settled, hflags, hcode, k.opr, k.irqEn, k.kept⟩
  rcases ht with rfl | ⟨e, a, rfl⟩
  · exact ends _ rfl (complete_step s)
  · exact ends _ rfl (abort_step e a s)

/-- Settles O56. -/
theorem engineWritesOnlyItsWindows : Obligations.EngineWritesOnlyItsWindows := by
  intro s t hinv hhost hstep
  rw [step_engine hhost] at hstep
  exact engineStep_keepsOutside hinv hstep

end Sys2Proof.Machine
end

section
/-! SUPPORT. The decoders read back: which decoder an LCW first byte selects (30_encoding.md R102), by the bit fields that the
encoder writes (R101), what each encoding decodes to, and the bytes that a decoded instruction stood in. -/

namespace Sys2Proof.Machine

/-! ### Bit fields -/

/-- Two fields side by side are read back each on its own. -/
theorem append_fields_inj {m n : Nat} {x x' : BitVec m} {y y' : BitVec n} (h : x ++ y = x' ++ y') : x = x' ∧ y = y' :=
  ⟨by simpa only [BitVec.extractLsb'_append_eq_left] using congrArg (BitVec.extractLsb' n m) h,
    by simpa only [BitVec.extractLsb'_append_eq_right] using congrArg (BitVec.extractLsb' 0 n) h⟩

/-- A word is its high bits and its low bits side by side. -/
theorem append_extractLsb' {m n : Nat} (v : BitVec (m + n)) : v.extractLsb' n m ++ v.extractLsb' 0 n = v := by
  rw [BitVec.extractLsb'_append_extractLsb'_eq_extractLsb' (Nat.zero_add n).symm, BitVec.extractLsb'_eq_self]

@[simp] theorem u16_lo_hi (v : BitVec 16) : u16 (u16Lo v) (u16Hi v) = v := append_extractLsb' (m := 8) (n := 8) v

@[simp] theorem u16Lo_u16 (lo hi : Byte) : u16Lo (u16 lo hi) = lo := BitVec.extractLsb'_append_eq_right

@[simp] theorem u16Hi_u16 (lo hi : Byte) : u16Hi (u16 lo hi) = hi := BitVec.extractLsb'_append_eq_left

theorem encode_sref (c : BitVec 3) (q : BitVec 4) (p : Byte) : encode (.sref c (q ++ p)) = [0#1 ++ c ++ q, p] := by
  have hq : (q ++ p).extractLsb' 8 4 = q := BitVec.extractLsb'_append_eq_left
  have hp : (q ++ p).extractLsb' 0 8 = p := BitVec.extractLsb'_append_eq_right
  rw [encode, hq, hp]

/-! ### The first byte of an LCW command -/

/-- The first bytes of the LCW commands, by the fields of R101. -/
inductive LcwFirst : Byte → Prop where
  | endMark : LcwFirst 0x80#8
  | lit (n : BitVec 6) (pos : n ≠ 0#6) : LcwFirst (0b10#2 ++ n)
  | sref (c : BitVec 3) (q : BitVec 4) : LcwFirst (0#1 ++ c ++ q)
  | run : LcwFirst 0xFE#8
  | lref : LcwFirst 0xFF#8
  | mref (c : BitVec 6) (le : c.toNat ≤ 0x3D) : LcwFirst (0b11#2 ++ c)

theorem lit_fields : ∀ b : Byte, b ≠ 0x80#8 → b &&& 0xC0#8 = 0x80#8 →
    b.extractLsb' 0 6 ≠ 0#6 ∧ 0b10#2 ++ b.extractLsb' 0 6 = b := by decide

theorem sref_fields : ∀ b : Byte, b &&& 0x80#8 = 0#8 → 0#1 ++ b.extractLsb' 4 3 ++ b.extractLsb' 0 4 = b := by decide

theorem mref_fields : ∀ b : Byte, b &&& 0xC0#8 ≠ 0x80#8 → b &&& 0x80#8 ≠ 0#8 → b ≠ 0xFE#8 → b ≠ 0xFF#8 →
    (b.extractLsb' 0 6).toNat ≤ 0x3D ∧ 0b11#2 ++ b.extractLsb' 0 6 = b := by decide

/-- R108: every byte is the first byte of an LCW command; the cases are in the order of R102. -/
theorem lcwFirst (b : Byte) : LcwFirst b := by
  by_cases hend : b = 0x80#8
  · exact hend ▸ .endMark
  by_cases hlit : b &&& 0xC0#8 = 0x80#8
  · obtain ⟨pos, hb⟩ := lit_fields b hend hlit
    exact hb ▸ .lit _ pos
  by_cases hsref : b &&& 0x80#8 = 0#8
  · exact sref_fields b hsref ▸ .sref _ _
  by_cases hrun : b = 0xFE#8
  · exact hrun ▸ .run
  by_cases hlref : b = 0xFF#8
  · exact hlref ▸ .lref
  · obtain ⟨le, hb⟩ := mref_fields b hlit hsref hrun hlref
    exact hb ▸ .mref _ le

/-! ### What the encoding of an LCW command decodes to -/

theorem lit_class : ∀ n : BitVec 6, n ≠ 0#6 → (0b10#2 ++ n : Byte) ≠ 0x80#8 ∧
    (0b10#2 ++ n : Byte) &&& 0xC0#8 = 0x80#8 ∧ ((0b10#2 ++ n : Byte) &&& 0x3F#8).toNat = n.toNat := by decide

theorem sref_class : ∀ (c : BitVec 3) (q : BitVec 4), (0#1 ++ c ++ q : Byte) ≠ 0x80#8 ∧
    (0#1 ++ c ++ q : Byte) &&& 0xC0#8 ≠ 0x80#8 ∧ (0#1 ++ c ++ q : Byte) &&& 0x80#8 = 0#8 := by decide

theorem mref_class : ∀ c : BitVec 6, c.toNat ≤ 0x3D → (0b11#2 ++ c : Byte) ≠ 0x80#8 ∧
    (0b11#2 ++ c : Byte) &&& 0xC0#8 ≠ 0x80#8 ∧ (0b11#2 ++ c : Byte) &&& 0x80#8 ≠ 0#8 ∧
    (0b11#2 ++ c : Byte) ≠ 0xFE#8 ∧ (0b11#2 ++ c : Byte) ≠ 0xFF#8 := by decide

theorem decode_lit {n : BitVec 6} (pos : n ≠ 0#6) (rest : List Byte) : decode .lcw ((0b10#2 ++ n) :: rest) =
    if rest.length < n.toNat then .reject .truncated
    else .code (.lit (rest.take n.toNat)) (rest.drop n.toNat) := by
  obtain ⟨hend, hlit, hcount⟩ := lit_class n pos
  rw [decode, decodeLcw, if_neg hend, if_pos hlit, decodeLit, hcount]

theorem decode_sref (c : BitVec 3) (q : BitVec 4) (rest : List Byte) :
    decode .lcw ((0#1 ++ c ++ q) :: rest) = decodeSref (0#1 ++ c ++ q) rest := by
  obtain ⟨hend, hlit, hsref⟩ := sref_class c q
  rw [decode, decodeLcw, if_neg hend, if_neg hlit, if_pos hsref]

theorem decodeSref_cons (c : BitVec 3) (q : BitVec 4) (p : Byte) (rest : List Byte) :
    decodeSref (0#1 ++ c ++ q) (p :: rest) = .code (.sref c (q ++ p)) rest := by
  rw [decodeSref, BitVec.extractLsb'_append_eq_of_le le_rfl, BitVec.extractLsb'_append_eq_right,
    BitVec.extractLsb'_append_eq_right]

theorem decode_mref {c : BitVec 6} (le : c.toNat ≤ 0x3D) (rest : List Byte) :
    decode .lcw ((0b11#2 ++ c) :: rest) = decodeMref (0b11#2 ++ c) rest := by
  obtain ⟨hend, hlit, hsref, hrun, hlref⟩ := mref_class c le
  rw [decode, decodeLcw, if_neg hend, if_neg hlit, if_neg hsref, if_neg hrun, if_neg hlref]

theorem decodeMref_cons (c : BitVec 6) (lo hi : Byte) (rest : List Byte) :
    decodeMref (0b11#2 ++ c) (lo :: hi :: rest) = .code (.mref c (u16 lo hi)) rest := by
  rw [decodeMref, BitVec.extractLsb'_append_eq_right]

/-! ### The ranges of the first byte (R102) -/

theorem lit_range : ∀ n : BitVec 6, n ≠ 0#6 →
    0x81 ≤ (0b10#2 ++ n : Byte).toNat ∧ (0b10#2 ++ n : Byte).toNat ≤ 0xBF := by decide

theorem sref_range : ∀ (c : BitVec 3) (q : BitVec 4), (0#1 ++ c ++ q : Byte).toNat ≤ 0x7F := by decide

theorem mref_range : ∀ c : BitVec 6, c.toNat ≤ 0x3D →
    0xC0 ≤ (0b11#2 ++ c : Byte).toNat ∧ (0b11#2 ++ c : Byte).toNat ≤ 0xFD := by decide

/-! ### Host commands -/

/-- The assigned values of `OP` (R103). -/
def assignedOps : List Byte := [0x01#8, 0x02#8, 0x03#8, 0x04#8, 0x10#8, 0x11#8, 0x12#8, 0x13#8, 0x14#8]

theorem command_op {i : Instr} (hi : i.codeSet = .cmd) :
    ∃ op ∈ assignedOps, encode i = encodeOp op ∧ cmdOfOp op = some i ∧ WellFormed i := by
  cases i <;> cases hi <;> exact ⟨_, by decide, rfl, rfl, rfl⟩

/-- R103: the `CMD` words that decode are those of the assigned `OP`s. -/
theorem decodeCmd_assigned {w : Word} {i : Instr} (h : decodeCmd w = some i) : w ∈ assignedOps.map (·.setWidth 32) := by
  obtain ⟨op, hop, henc, -, -⟩ := command_op (decodeCmd_codeSet h)
  exact decodeCmd_word h henc ▸ List.mem_map_of_mem hop

theorem decode_command {i : Instr} (hi : i.codeSet = .cmd) (rest : List Byte) :
    decode .cmd (encode i ++ rest) = .code i rest := by
  obtain ⟨op, -, henc, hop, -⟩ := command_op hi
  have hw : decodeCmd (0#8 ++ 0#8 ++ 0#8 ++ op) = some i := by
    rw [decodeCmd, BitVec.extractLsb'_append_eq_left, BitVec.extractLsb'_append_eq_right, if_pos (by decide), hop]
  simp only [henc, encodeOp, decode, List.cons_append, List.nil_append, decodeCmdBytes, hw]

/-- R74, R103: a `CMD` word that names a host command stands in memory as that command's encoding. -/
theorem encode_of_decodeCmd {b0 b1 b2 b3 : Byte} {i : Instr} (h : decodeCmd (b3 ++ b2 ++ b1 ++ b0) = some i) :
    encode i = [b0, b1, b2, b3] := by
  obtain ⟨op, -, henc, -, -⟩ := command_op (decodeCmd_codeSet h)
  have hw : b3 ++ b2 ++ b1 ++ b0 = 0#8 ++ 0#8 ++ 0#8 ++ op :=
    (decodeCmd_word h henc).trans (by simp [BitVec.setWidth_eq_append])
  obtain ⟨hw3, h0⟩ := append_fields_inj hw
  obtain ⟨hw2, h1⟩ := append_fields_inj hw3
  obtain ⟨h3, h2⟩ := append_fields_inj hw2
  rw [henc, encodeOp, h0, h1, h2, h3]

/-! ### What a decoded instruction was read from -/

section
variable {bytes rest : List Byte} {i : Instr}

theorem encode_of_decode_lcw (h : decode .lcw bytes = .code i rest) : bytes = encode i ++ rest ∧ WellFormed i := by
  cases bytes with
  | nil => cases h
  | cons b payload =>
    cases lcwFirst b with
    | endMark => cases h; exact ⟨rfl, rfl⟩
    | lit n pos =>
      rw [decode_lit pos] at h
      split at h
      · cases h
      next hlen =>
        cases h
        have hn : (payload.take n.toNat).length = n.toNat := List.length_take_of_le (by omega)
        have hpos : n.toNat ≠ 0 := fun h0 => pos (BitVec.eq_of_toNat_eq h0)
        refine ⟨by simp [encode, hn], ?_⟩
        simp only [WellFormed, Instr.wellFormed, hn, Bool.and_eq_true, decide_eq_true_eq]
        omega
    | sref c q =>
      rw [decode_sref] at h
      cases payload with
      | nil => cases h
      | cons p rest =>
        rw [decodeSref_cons] at h
        cases h
        exact ⟨by rw [encode_sref]; rfl, rfl⟩
    | run =>
      match payload, h with
      | lo :: hi :: v :: rest, rfl => exact ⟨by simp [encode], rfl⟩
    | lref =>
      match payload, h with
      | nl :: nh :: pl :: ph :: rest, rfl => exact ⟨by simp [encode], rfl⟩
    | mref c le =>
      rw [decode_mref le] at h
      match payload with
      | lo :: hi :: rest =>
        rw [decodeMref_cons] at h
        cases h
        exact ⟨by simp [encode], decide_eq_true le⟩

theorem encode_of_decode_lcwMode (h : decode .lcwMode bytes = .code i rest) :
    bytes = encode i ++ rest ∧ WellFormed i := by
  cases bytes with
  | nil => cases h
  | cons b rest =>
    rw [decode, decodeMode] at h
    split at h
    next hb => cases h; exact ⟨congrArg (· :: rest) hb, rfl⟩
    · cases h

theorem encode_of_decode_zrle (h : decode .zrle bytes = .code i rest) : bytes = encode i ++ rest ∧ WellFormed i := by
  cases bytes with
  | nil => cases h
  | cons b rest =>
    by_cases hb : b = 0#8
    · subst hb
      cases rest with
      | nil => cases h
      | cons n rest => cases h; exact ⟨rfl, rfl⟩
    · cases (if_neg hb).symm.trans h
      exact ⟨rfl, decide_eq_true hb⟩

theorem encode_of_decode_cmd (h : decode .cmd bytes = .code i rest) : bytes = encode i ++ rest ∧ WellFormed i := by
  obtain ⟨-, -, -, -, hwf⟩ := command_op (decode_codeSet h)
  match bytes with
  | b0 :: b1 :: b2 :: b3 :: payload =>
    rw [decode, decodeCmdBytes] at h
    split at h
    next hd => cases h; exact ⟨by rw [encode_of_decodeCmd hd]; rfl, hwf⟩
    · cases h

end

end Sys2Proof.Machine
end

section
/-! The statements of 30_encoding.md. -/

namespace Sys2Proof.Machine

/-- Settles O2: an LCW command's first byte selects its decoder by the fields that the encoder wrote. -/
theorem decodeOfEncodeIsTheInstruction : Obligations.DecodeOfEncodeIsTheInstruction := by
  intro i rest hwf
  cases i with
  | modeRel | endMark | zrun => rfl
  | lit bytes =>
    simp only [WellFormed, Instr.wellFormed, Bool.and_eq_true, decide_eq_true_eq] at hwf
    have hn : (BitVec.ofNat 6 bytes.length).toNat = bytes.length := Nat.mod_eq_of_lt (by omega)
    have pos : BitVec.ofNat 6 bytes.length ≠ 0#6 := fun h => by simp [h] at hn; omega
    refine (decode_lit pos (bytes ++ rest)).trans ?_
    simp [hn]
  | sref c p =>
    refine (decode_sref c _ _).trans ((decodeSref_cons c _ _ rest).trans ?_)
    rw [append_extractLsb' (m := 4) (n := 8) p]
  | run n v => simp [encode, Instr.codeSet, decode, decodeLcw, decodeRun]
  | lref n p => simp [encode, Instr.codeSet, decode, decodeLcw, decodeLref]
  | mref c p =>
    refine (decode_mref (of_decide_eq_true hwf) _).trans ((decodeMref_cons c _ _ rest).trans ?_)
    rw [u16_lo_hi]
  | zlit v => exact if_neg (of_decide_eq_true hwf)
  | lcwDecode | zrleExpand | blit | fill | palClear | palPush | palLoad6 | palFind | palRead =>
    exact decode_command rfl rest

/-- Settles O3, by code set. -/
theorem decodedBytesAreTheEncoding : Obligations.DecodedBytesAreTheEncoding := by
  intro cs bytes i rest h
  rw [← and_assoc]
  refine ⟨?_, decode_codeSet h⟩
  cases cs with
  | lcwMode => exact encode_of_decode_lcwMode h
  | lcw => exact encode_of_decode_lcw h
  | zrle => exact encode_of_decode_zrle h
  | cmd => exact encode_of_decode_cmd h

/-- Settles O4: the fields of the first byte tell its range, its length and its decoder. -/
theorem lcwFirstByteSelectsTheForm : Obligations.LcwFirstByteSelectsTheForm := by
  intro b rest hlen
  cases lcwFirst b with
  | endMark => exact ⟨_, rfl, by simp⟩
  | lit n pos =>
    have hlength : lcwLength (0b10#2 ++ n) = 1 + n.toNat := by
      simpa using Laws.EncodedLength.lit_first n.toFin fun h => pos (BitVec.eq_of_toNat_eq h)
    obtain ⟨hlow, hhigh⟩ := lit_range n pos
    rw [hlength] at hlen ⊢
    rw [decode_lit pos, if_neg (by omega), Nat.add_sub_cancel_left]
    exact ⟨_, rfl, by omega, by omega, fun _ => ⟨_, rfl⟩, by omega, by omega, by omega⟩
  | sref c q =>
    have hhigh := sref_range c q
    have hlength : lcwLength (0#1 ++ c ++ q) = 2 := Laws.EncodedLength.sref_first c.toFin q.toFin
    rw [hlength] at hlen ⊢
    match rest, hlen with
    | p :: rest, _ =>
      exact ⟨_, (decode_sref c q _).trans (decodeSref_cons c q p rest),
        fun _ => ⟨_, _, rfl⟩, by omega, by omega, by omega, by omega, by omega⟩
  | run =>
    match rest, hlen with
    | lo :: hi :: v :: rest, _ => exact ⟨_, rfl, by simp⟩
  | lref =>
    match rest, hlen with
    | nl :: nh :: pl :: ph :: rest, _ => exact ⟨_, rfl, by simp⟩
  | mref c le =>
    obtain ⟨hlow, hhigh⟩ := mref_range c le
    have hlength : lcwLength (0b11#2 ++ c) = 3 := Laws.EncodedLength.mref_first c.toFin le
    rw [hlength] at hlen ⊢
    match rest, hlen with
    | lo :: hi :: rest, _ =>
      exact ⟨_, (decode_mref le _).trans (decodeMref_cons c lo hi rest),
        by omega, by omega, by omega, fun _ => ⟨_, _, rfl⟩, by omega, by omega⟩

/-- Settles O7. -/
theorem unassignedCmdIsIllegal : Obligations.UnassignedCmdIsIllegal := by
  intro s hhost hp hu hcmd
  have hnone : decodeCmd s.cmd = none := Option.eq_none_iff_forall_ne_some.mpr fun _ h => hcmd (decodeCmd_assigned h)
  rw [step_engine hhost, engineStep_moved (fetch_illegal hp hnone), abort_accepted hu hp]
  rfl

/-- Settles O1. -/
theorem writtenOutWordsDecode : Obligations.WrittenOutWordsDecode := by
  unfold Obligations.WrittenOutWordsDecode
  decide

end Sys2Proof.Machine
end

section
/-! SUPPORT. A running command makes progress (R133): each engine step ends it, or leaves it fewer steps to take. -/

namespace Sys2Proof.Machine

/-- How many input bytes the stream's cursor has before it. -/
def inputLeft (s : State) : Nat := s.opr.srcLen.toNat - s.eng.inPos.toNat

/-- How many engine steps the running command can still take at most: one for each input byte that is left (R133), its end,
the mode byte and the start. -/
def stepsLeft (s : State) : Nat :=
  match s.phase with
  | .idle => 0
  | .accepted => s.opr.srcLen.toNat + 3
  | .lcwMode => inputLeft s + 2
  | .lcwCode => inputLeft s + 1
  | .zrle => inputLeft s + 1

theorem stepsLeft_accepted {s : State} (h : s.phase = .accepted) : stepsLeft s = s.opr.srcLen.toNat + 3 := by
  simp [stepsLeft, h]

theorem stepsLeft_mode {s : State} (h : s.phase = .lcwMode) : stepsLeft s = inputLeft s + 2 := by simp [stepsLeft, h]

theorem stepsLeft_code {s : State} (h : s.phase = .lcwCode ∨ s.phase = .zrle) : stepsLeft s = inputLeft s + 1 := by
  rcases h with h | h <;> simp [stepsLeft, h]

theorem stepsLeft_stream_le {s : State} (h : s.phase = .lcwMode ∨ s.phase = .lcwCode ∨ s.phase = .zrle) :
    stepsLeft s ≤ s.opr.srcLen.toNat + 2 := by
  have hle : inputLeft s ≤ s.opr.srcLen.toNat := Nat.sub_le _ _
  rcases h with h | h
  · rw [stepsLeft_mode h]; omega
  · rw [stepsLeft_code h]; omega

theorem stepsLeft_le_stepBound (s : State) : stepsLeft s ≤ stepBound s := by
  have hle : inputLeft s ≤ s.opr.srcLen.toNat := Nat.sub_le _ _
  unfold stepsLeft stepBound
  split <;> omega

theorem stepsLeft_pos {s : State} (h : s.phase ≠ .idle) : 0 < stepsLeft s := by
  unfold stepsLeft
  split
  · rename_i idle; exact absurd idle h
  all_goals omega

/-- What an engine step makes of a running command: its end, with exactly one of `DONE` and `ERR`, or a stream that has
fewer steps to take. -/
inductive Progress (s t : State) : Prop where
  | ends (phase : t.phase = .idle) (flags : t.status.done ≠ t.status.err)
  | goesOn (host : t.host = s.host) (stream : t.phase = .lcwMode ∨ t.phase = .lcwCode ∨ t.phase = .zrle)
      (fewer : stepsLeft t < stepsLeft s)

theorem Progress.of_end {s u t : State} (h : Underway s) (same : SameCommand s u) (how : EndStep u t) : Progress s t :=
  .ends how.phase (how.flags (same.underway h).done (same.underway h).err)

theorem CommandStep.progress {i : Instr} {s t : State} (k : CommandStep i s t) (h : Underway s)
    (hp : s.phase = .accepted) : Progress s t := by
  cases k with
  | check e n =>
    have same : SameCommand s { s with inUsed := n } := ⟨rfl, rfl, rfl, rfl, fun h => h.congr rfl rfl rfl rfl⟩
    exact .of_end h same (abort_step e 0#32 _)
  | done u inRange body => exact .of_end h body.sameCommand (complete_step u)
  | error u inRange body e a => exact .of_end h body.sameCommand (abort_step e a u)
  | begin _ inRange which start frame =>
    have stream : t.phase = .lcwMode ∨ t.phase = .lcwCode ∨ t.phase = .zrle := which.imp And.right fun h => .inr h.2
    have opr : t.opr = s.opr := by rw [frame]; rfl
    refine .goesOn (by rw [frame]; rfl) stream ?_
    have hle := stepsLeft_stream_le stream
    rw [opr] at hle
    rw [stepsLeft_accepted hp]
    omega

/-- A code consumes at least one input byte, and the mode byte leaves a step less for itself. -/
theorem StreamMove.progress {s t : State} (k : StreamMove s t) (h : Underway s) (b : StreamBounds s)
    (hp : s.phase = .lcwMode ∨ s.phase = .lcwCode ∨ s.phase = .zrle) : Progress s t := by
  cases k with
  | stop u stream e a => exact .of_end h stream.sameCommand (abort_step e a u)
  | finish u stream => exact .of_end h stream.sameCommand (complete_step u)
  | mode u stream m phase =>
    have hf := BitVec.le_def.mp (stream.forward b)
    refine .goesOn (by rw [stream.frame]) (.inr (.inl rfl)) ?_
    rw [stepsLeft_mode phase, stepsLeft_code (.inl rfl)]
    simp only [inputLeft, stream.opr]
    omega
  | code _ stream phase progress =>
    have same : t.phase = s.phase := by rw [stream.frame]
    have hlt := BitVec.lt_def.mp (progress b)
    have hin := BitVec.le_def.mp (stream.bounds b).inPos
    have code := hp.resolve_left phase
    refine .goesOn (by rw [stream.frame]) (by rwa [same]) ?_
    rw [stepsLeft_code code, stepsLeft_code (by rwa [same])]
    simp only [inputLeft, stream.opr] at hin ⊢
    omega

theorem engineStep_progress {s t : State} (h : s.Inv) (hb : s.phase ≠ .idle) (he : engineStep s = .next t) :
    Progress s t := by
  have under := h.underway (decide_eq_true hb)
  cases engineStep_move he with
  | idle phase => exact absurd phase hb
  | illegal phase => exact .of_end under (.refl s) (abort_step _ _ s)
  | command i _ phase cmd how => exact how.progress under phase
  | stream _ phase how => exact how.progress under (h.stream phase) phase

/-- A run of a step more begins with that step. -/
theorem run_succ {s t : State} (h : step s = .next t) (k : Nat) :
    Sys2Proof.core.run (k + 1) s = Sys2Proof.core.run k t := by
  have hcore : Sys2Proof.core.step s = .next t := h
  simp only [Host.Core.run, hcore]

/-- A command with at most `n` steps to take ends within `n` steps, by induction on `n`. -/
theorem run_ends {n : Nat} {s : State} (hi : s.Inv) (hh : s.host = []) (hb : s.phase ≠ .idle)
    (hd : s.phase = .accepted → ∀ i, decodeCmd s.cmd = some i → overDevice i s = false) (hn : stepsLeft s ≤ n) :
    ∃ k t, k ≤ n ∧ Sys2Proof.core.run k s = .next t ∧ t.phase = .idle ∧ t.status.done ≠ t.status.err := by
  induction n generalizing s with
  | zero => exact absurd hn (Nat.not_le.mpr (stepsLeft_pos hb))
  | succ n ih =>
    obtain ⟨t, he⟩ := engineStep_next hd
    have hstep : step s = .next t := (step_engine hh).trans he
    cases engineStep_progress hi hb he with
    | ends phase flags => exact ⟨1, t, by omega, run_succ hstep 0, phase, flags⟩
    | goesOn host stream fewer =>
      obtain ⟨k, u, hk, hrun, hend⟩ := ih ((engineStep_outlook he).inv hi) (host.trans hh)
        (fun idle => by simp [idle] at stream) (fun accepted => by simp [accepted] at stream) (by omega)
      exact ⟨k + 1, u, by omega, (run_succ hstep k).trans hrun, hend⟩

end Sys2Proof.Machine
end

section
/-! SUPPORT. The frame of every instruction: what a stream code appends and leaves alone, which pixels a blit writes, and
what the end of a command adds. -/

namespace Sys2Proof.Machine

/-! ### Appends -/

/-- The state `t` that some steps of a stream code lead to from `s`, by which at most `n` bytes are appended to the output. It
speaks of every state `s`, also of one whose cursor is outside its windows. -/
structure AppendsAtMost (n : Nat) (s t : State) : Prop where
  frame : t = { s with phase := t.phase, mem := t.mem, eng := t.eng }
  grown : ∃ m, m ≤ n ∧ t.eng.outLen = s.eng.outLen + BitVec.ofNat 32 m
  kept : ∀ a, (∀ j, j < n → a ≠ (outAddr s (s.eng.outLen.toNat + j)).toNat) → t.mem.read a = s.mem.read a
  mem : n = 0 → t.mem = s.mem

/-- Steps that append nothing. -/
theorem AppendsAtMost.of_cursor {s t : State} (hf : t = { s with phase := t.phase, eng := t.eng })
    (ho : t.eng.outLen = s.eng.outLen) : AppendsAtMost 0 s t := by
  have hm : t.mem = s.mem := by rw [hf]
  exact ⟨by rw [hf], ⟨0, le_rfl, by simp [ho]⟩, fun a _ => by rw [hm], fun _ => hm⟩

theorem AppendsAtMost.refl (s : State) : AppendsAtMost 0 s s := .of_cursor rfl rfl

theorem AppendsAtMost.mono {m n : Nat} {s t : State} (h : AppendsAtMost m s t) (hn : m ≤ n) : AppendsAtMost n s t := by
  obtain ⟨k, hk, ho⟩ := h.grown
  exact ⟨h.frame, ⟨k, hk.trans hn, ho⟩, fun a ha => h.kept a fun j hj => ha j (hj.trans_le hn),
    fun hz => h.mem (by omega)⟩

/-- The output address that stands `j` bytes behind the end of the output. -/
theorem outAddr_end (s : State) (j : Nat) :
    outAddr s (s.eng.outLen.toNat + j) = s.opr.dstAddr + (s.eng.outLen + BitVec.ofNat 32 j) := by
  simp [outAddr, BitVec.ofNat_add]

theorem AppendsAtMost.trans {m n : Nat} {s t u : State} (h : AppendsAtMost m s t) (k : AppendsAtMost n t u) :
    AppendsAtMost (m + n) s u := by
  obtain ⟨i, hi, ht⟩ := h.grown
  obtain ⟨j, hj, hu⟩ := k.grown
  have opr : t.opr = s.opr := by rw [h.frame]
  refine ⟨by rw [k.frame, h.frame], ⟨i + j, by omega, ?_⟩, fun a ha => ?_, fun hz => ?_⟩
  · rw [hu, ht, BitVec.ofNat_add, BitVec.add_assoc]
  · have later : ∀ l, l < n → a ≠ (outAddr t (t.eng.outLen.toNat + l)).toNat := by
      intro l hl
      have hne := ha (i + l) (by omega)
      rwa [outAddr_end, BitVec.ofNat_add, ← BitVec.add_assoc s.eng.outLen, ← ht, ← opr, ← outAddr_end] at hne
    exact (k.kept a later).trans (h.kept a fun l hl => ha l (by omega))
  · exact (k.mem (by omega)).trans (h.mem (by omega))

theorem AppendsAtMost.andThen {α β : Type} {m n : Nat} {s : State} {x : Eff α} {f : α → State → Eff β}
    (h : AppendsAtMost m s x.state) (k : ∀ v t, x = .ok v t → AppendsAtMost n t (f v t).state) :
    AppendsAtMost (m + n) s (x.andThen f).state := by
  cases x with
  | ok v t => exact h.trans (k v t rfl)
  | raise e a t => exact h.mono (Nat.le_add_right m n)

/-- Then, when the first part appends nothing. -/
theorem AppendsAtMost.after {α β : Type} {n : Nat} {s : State} {x : Eff α} {f : α → State → Eff β}
    (h : AppendsAtMost 0 s x.state) (k : ∀ v t, AppendsAtMost n t (f v t).state) :
    AppendsAtMost n s (x.andThen f).state := by
  simpa using h.andThen fun v t _ => k v t

/-! ### Input appends nothing -/

theorem AppendsAtMost.takeByte (s : State) : AppendsAtMost 0 s (takeByte s).state :=
  .after (by rw [memRead_state]; exact .refl s) fun _ _ => .of_cursor rfl rfl

theorem AppendsAtMost.inByte (s : State) : AppendsAtMost 0 s (inByte s).state := by
  unfold Machine.inByte
  split
  · exact .refl s
  · exact .takeByte s

theorem AppendsAtMost.countByte (s : State) : AppendsAtMost 0 s (countByte s).state := by
  unfold Machine.countByte
  split
  · exact .refl s
  · exact .takeByte s

theorem AppendsAtMost.inBytes (n : Nat) (s : State) : AppendsAtMost 0 s (inBytes n s).state := by
  induction n generalizing s with
  | zero => exact .refl s
  | succ n ih => exact .after (.inByte s) fun _ t => ih t

theorem AppendsAtMost.lcwCode {n : Nat} {rest : State → Eff Unit} (h : ∀ s, AppendsAtMost n s (rest s).state)
    (s : State) : AppendsAtMost n s (lcwCode rest s).state :=
  .after ((AppendsAtMost.of_cursor (t := markStart s) rfl rfl).trans (.inByte _)) fun _ t => h t

theorem AppendsAtMost.zrleCode {n : Nat} {rest : State → Eff Unit} (h : ∀ s, AppendsAtMost n s (rest s).state)
    (s : State) : AppendsAtMost n s (zrleCode rest s).state :=
  .after ((AppendsAtMost.of_cursor (t := markStart s) rfl rfl).trans (.takeByte _)) fun _ t => h t

/-! ### Output -/

theorem AppendsAtMost.outByte (v : Byte) (s : State) : AppendsAtMost 1 s (outByte v s).state := by
  rcases outByte_cases v s with ⟨e, a, hstop⟩ | ⟨-, -, hok⟩
  · rw [hstop v]
    exact (AppendsAtMost.refl s).mono (Nat.zero_le 1)
  · rw [hok]
    exact ⟨rfl, ⟨1, le_rfl, rfl⟩, fun a ha => Memory.read_write_ne _ _ (ha 0 Nat.one_pos), fun h => by simp at h⟩

theorem AppendsAtMost.forEach {α : Type} {f : α → State → Eff Unit} (h : ∀ x s, AppendsAtMost 1 s (f x s).state)
    (xs : List α) (s : State) : AppendsAtMost xs.length s (forEach xs f s).state := by
  induction xs generalizing s with
  | nil => exact .refl s
  | cons x rest ih =>
    rw [List.length_cons, Nat.add_comm]
    exact .andThen (h x s) fun _ t _ => ih t

theorem AppendsAtMost.outRepeat (n : Nat) (v : Byte) (s : State) : AppendsAtMost n s (outRepeat n v s).state := by
  have h := AppendsAtMost.forEach (fun v s => .outByte v s) (List.replicate n v) s
  rwa [List.length_replicate] at h

theorem AppendsAtMost.outRead (i : Int) (s : State) : AppendsAtMost 0 s (outRead i s).state := by
  rw [outRead_state]; exact .refl s

theorem AppendsAtMost.copyLoop (n : Nat) (i : Int) (s : State) : AppendsAtMost n s (copyLoop n i s).state := by
  induction n generalizing i s with
  | zero => exact .refl s
  | succ n ih =>
    have h : AppendsAtMost (1 + n) s (Machine.copyLoop (n + 1) i s).state :=
      .after (.outRead i s) fun v t => .andThen (.outByte v t) fun _ u _ => ih _ u
    rwa [Nat.add_comm 1 n] at h

theorem AppendsAtMost.srefBody (n : Nat) (p : BitVec 12) (s : State) : AppendsAtMost n s (srefBody n p s).state := by
  unfold Machine.srefBody
  split
  · split
    · exact (AppendsAtMost.refl s).mono (Nat.zero_le n)
    · exact .after (.outRead _ s) fun v t => .outRepeat n v t
  · exact .copyLoop _ _ s

/-! ### Stream codes -/

theorem endCode_cases {x : Eff Unit} {t : State} (h : endCode x = .next t) : t = x.state ∨ EndStep x.state t := by
  cases x with
  | ok v u => cases h; exact .inl rfl
  | raise e a u => cases h; exact .inr (abort_step e a u)

theorem endBody_end {x : Eff Unit} {t : State} (h : endBody x = .next t) : EndStep x.state t := by
  cases x with
  | ok v u => cases h; exact complete_step u
  | raise e a u => cases h; exact abort_step e a u

/-- A stream code appends at most the bytes of `appendCount`, and then it may end the command. -/
theorem exec_code {i : Instr} {s t : State} (hi : i.codeSet ≠ .cmd) (h : exec i s = .next t) :
    ∃ u, AppendsAtMost (appendCount i) s u ∧ (t = u ∨ EndStep u t) := by
  cases i with
  | modeRel => exact ⟨_, .after (.inByte s) fun _ t => .of_cursor rfl rfl, endCode_cases h⟩
  | endMark => exact ⟨_, .lcwCode .refl s, .inr (endBody_end h)⟩
  | lit bytes =>
    exact ⟨_, .lcwCode (.forEach (fun b t => .after (.inByte t) fun _ u => .outByte b u) bytes) s, endCode_cases h⟩
  | sref c p => exact ⟨_, .lcwCode (fun t => .after (.inBytes 1 t) fun _ u => .srefBody _ p u) s, endCode_cases h⟩
  | run n v => exact ⟨_, .lcwCode (fun t => .after (.inBytes 3 t) fun _ u => .outRepeat _ v u) s, endCode_cases h⟩
  | lref n p => exact ⟨_, .lcwCode (fun t => .after (.inBytes 4 t) fun _ u => .copyLoop _ _ u) s, endCode_cases h⟩
  | mref c p => exact ⟨_, .lcwCode (fun t => .after (.inBytes 2 t) fun _ u => .copyLoop _ _ u) s, endCode_cases h⟩
  | zrun n => exact ⟨_, .zrleCode (fun t => .after (.countByte t) fun _ u => .outRepeat _ _ u) s, endCode_cases h⟩
  | zlit v => exact ⟨_, .zrleCode (.outByte v) s, endCode_cases h⟩
  | lcwDecode | zrleExpand | blit | fill | palClear | palPush | palLoad6 | palFind | palRead =>
    exact absurd rfl hi

/-! ### Pixels -/

/-- `t` differs from `s` in no byte of memory but the pixels of the clipped destination rect. -/
def OnlyPixels (s t : State) : Prop := ∀ a,
  (∀ ij ∈ offsets (clippedDest s.opr).width (clippedDest s.opr).height, a ≠ (destPixel s.opr ij).toNat) →
    t.mem.read a = s.mem.read a

theorem OnlyPixels.refl (s : State) : OnlyPixels s s := fun _ _ => rfl

theorem OnlyPixels.write {s t : State} (h : OnlyPixels s t) {ij : Nat × Nat}
    (hij : ij ∈ offsets (clippedDest s.opr).width (clippedDest s.opr).height) (v : Byte) :
    OnlyPixels s (memWrite (destPixel s.opr ij) v t).state := by
  unfold memWrite
  split
  · exact fun a ha => (Memory.read_write_ne _ _ (ha ij hij)).trans (h a ha)
  · exact h

theorem fillBody_onlyPixels (s : State) : OnlyPixels s (fillBody s).state :=
  forEach_inv_mem _ (fun _ hij _ ht => ht.write hij _) (.refl s)

theorem blitBody_onlyPixels (s : State) : OnlyPixels s (blitBody s).state := by
  unfold blitBody
  split
  · exact .refl s
  · refine forEach_inv_mem _ (fun ij hij t ht => ?_) (.refl s)
    unfold blitPixel memRead
    split
    · exact ht.write hij _
    · exact ht

/-! ### The frame of an instruction -/

/-- The results and the memory that instruction `i` leaves, when its results are specified. -/
structure SettledFrame (i : Instr) (s t : State) : Prop where
  index : i ∉ [.palPush, .palLoad6, .palFind] → t.palIndex = s.palIndex ∧ t.status.found = s.status.found
  entries : i ∉ [.palClear, .palPush, .palLoad6] → t.palette = s.palette
  memory : i ∈ [.modeRel, .endMark, .lcwDecode, .zrleExpand, .palClear, .palPush, .palLoad6, .palFind, .palRead] →
    t.mem = s.mem
  output : i.codeSet = .lcw ∨ i.codeSet = .zrle → ∀ a,
    (∀ j, j < appendCount i → a ≠ (outAddr s (s.eng.outLen.toNat + j)).toNat) → t.mem.read a = s.mem.read a
  pixels : i = .blit ∨ i = .fill → OnlyPixels s t

/-- What instruction `i` leaves unchanged from `s` to `t`, before or after the end of the command. -/
structure InstrFrame (i : Instr) (s t : State) : Prop where
  opr : t.opr = s.opr
  irqEn : t.irqEn = s.irqEn
  cmd : t.cmd = s.cmd
  platform : t.platform = s.platform
  host : t.host = s.host
  busReply : t.busReply = s.busReply
  palColor : i ≠ .palRead → t.palColor = s.palColor
  settled : s.unsettled = false → windowsOverlap i s.opr = false → t.unsettled = false
  results : s.unsettled = false → windowsOverlap i s.opr = false → SettledFrame i s t

/-- The end of a command whose results are specified keeps the palette, its results and memory. -/
theorem SettledFrame.ends {i : Instr} {s u t : State} (h : SettledFrame i s u) (k : EndStep u t)
    (hu : u.unsettled = false) : SettledFrame i s t := by
  obtain ⟨mem, palette, palIndex, found⟩ := k.specified hu
  obtain ⟨index, entries, memory, output, pixels⟩ := h
  constructor
  · rwa [palIndex, found]
  · rwa [palette]
  · rwa [mem]
  · rwa [mem]
  · unfold OnlyPixels; rwa [mem]

theorem InstrFrame.ends {i : Instr} {s u t : State} (h : InstrFrame i s u) (k : EndStep u t) : InstrFrame i s t where
  opr := k.opr.trans h.opr
  irqEn := k.irqEn.trans h.irqEn
  cmd := k.cmd.trans h.cmd
  platform := k.platform.trans h.platform
  host := k.host.trans h.host
  busReply := k.busReply.trans h.busReply
  palColor := fun hi => k.palColor.trans (h.palColor hi)
  settled := fun _ _ => k.settled
  results := fun hu ho => (h.results hu ho).ends k (h.settled hu ho)

theorem AppendsAtMost.instrFrame {i : Instr} {s u : State} (h : AppendsAtMost (appendCount i) s u)
    (hi : i.codeSet ≠ .cmd) : InstrFrame i s u := by
  have results : SettledFrame i s u := by
    refine ⟨fun _ => ?_, fun _ => ?_, fun hm => h.mem ?_, fun _ => h.kept, ?_⟩
    · rw [h.frame]; exact ⟨rfl, rfl⟩
    · rw [h.frame]
    · simp only [List.mem_cons, List.not_mem_nil, or_false] at hm
      rcases hm with rfl | rfl | rfl | rfl | rfl | rfl | rfl | rfl | rfl <;> rfl
    · rintro (rfl | rfl) <;> exact absurd rfl hi
  refine ⟨?_, ?_, ?_, ?_, ?_, ?_, fun _ => ?_, fun hu _ => ?_, fun _ _ => results⟩ <;> rw [h.frame]
  exact hu

/-- A host command, after some steps of its body. -/
theorem BodyStep.instrFrame {i : Instr} {s u : State} (h : BodyStep i (markOverlap i s) u) (hi : i.codeSet = .cmd)
    (pixels : i = .blit ∨ i = .fill → OnlyPixels s u) : InstrFrame i s u := by
  have results : SettledFrame i s u := by
    refine ⟨h.index, h.entries, fun hm => h.memory ?_ ?_, ?_, pixels⟩
    · rintro rfl; simp at hm
    · rintro rfl; simp at hm
    · simp [hi]
  obtain ⟨opr, irqEn, platform, cmd, -⟩ := h.sameCommand
  refine ⟨opr, irqEn, cmd, platform, ?_, ?_, h.palColor, fun hu ho => ?_, fun _ _ => results⟩ <;> rw [h.frame]
  exacts [rfl, rfl, Bool.or_eq_false_iff.mpr ⟨hu, ho⟩]

/-- A start check that fails has written `IN_USED` only. -/
theorem InstrFrame.inUsed (i : Instr) (s : State) (n : Word) : InstrFrame i s { s with inUsed := n } :=
  ⟨rfl, rfl, rfl, rfl, rfl, rfl, fun _ => rfl, fun hu _ => hu, fun _ _ =>
    ⟨fun _ => ⟨rfl, rfl⟩, fun _ => rfl, fun _ => rfl, fun _ _ _ => rfl, fun _ => .refl s⟩⟩

/-- The engine's own phase and stream state are no part of the frame. -/
theorem InstrFrame.stream {i : Instr} {s u : State} (h : InstrFrame i s u) (p : Phase) (e : Engine) :
    InstrFrame i s { u with phase := p, eng := e } := by
  obtain ⟨opr, irqEn, cmd, platform, host, busReply, palColor, settled, results⟩ := h
  refine ⟨opr, irqEn, cmd, platform, host, busReply, palColor, settled, fun hu ho => ?_⟩
  obtain ⟨index, entries, memory, output, pixels⟩ := results hu ho
  exact ⟨index, entries, memory, output, pixels⟩

/-- BLIT and FILL. -/
theorem runBody_instrFrame {i : Instr} {body : State → Eff Unit} {s t : State} (hi : i.codeSet = .cmd)
    (hb : ∀ u, BodyStep i u (body u).state) (hp : ∀ u, OnlyPixels u (body u).state)
    (h : runBody i false (fun u => endBody (body u)) s = .next t) : InstrFrame i s t := by
  rcases runBody_cases h with ⟨e, rfl⟩ | ⟨-, hbody⟩
  · exact (InstrFrame.inUsed i s s.inUsed).ends (abort_step e 0#32 s)
  · exact ((hb _).instrFrame hi fun _ => hp (markOverlap i s)).ends (endBody_end hbody)

/-- A host command other than BLIT and FILL. -/
theorem CommandStep.instrFrame {i : Instr} {s t : State} (k : CommandStep i s t) (hi : i.codeSet = .cmd)
    (hn : ¬(i = .blit ∨ i = .fill)) : InstrFrame i s t := by
  have body {u : State} (b : BodyStep i (markOverlap i s) u) : InstrFrame i s u :=
    b.instrFrame hi fun h => absurd h hn
  cases k with
  | check e n => exact (InstrFrame.inUsed i s n).ends (abort_step e 0#32 _)
  | begin _ inRange which start frame =>
    rw [frame]
    exact (body (.refl i _)).stream t.phase t.eng
  | done u inRange b => exact (body b).ends (complete_step u)
  | error u inRange b e a => exact (body b).ends (abort_step e a u)

theorem exec_instrFrame {i : Instr} {s t : State} (h : exec i s = .next t) : InstrFrame i s t := by
  by_cases hi : i.codeSet = .cmd
  · by_cases hp : i = .blit ∨ i = .fill
    · rcases hp with rfl | rfl
      · exact runBody_instrFrame rfl blitBody_step blitBody_onlyPixels h
      · exact runBody_instrFrame rfl fillBody_step fillBody_onlyPixels h
    · exact (exec_command hi h).instrFrame hi hp
  · obtain ⟨u, hu, rfl | hend⟩ := exec_code hi h
    · exact hu.instrFrame hi
    · exact (hu.instrFrame hi).ends hend

end Sys2Proof.Machine
end

section
/-! The statements of 40_command_interface.md. -/

namespace Sys2Proof.Machine

/-- Settles O55: an idle block has nothing to end, and a running command has at most `stepBound` steps to take. -/
theorem everyCommandEnds : Obligations.EveryCommandEnds := by
  intro s hi hh hd
  by_cases hp : s.phase = .idle
  · exact ⟨0, s, Nat.zero_le _, rfl, hp, by simp [busy_of_idle hp]⟩
  · have device : s.phase = .accepted → ∀ i, decodeCmd s.cmd = some i → overDevice i s = false :=
      fun accepted i hc => hd i (by simp [running, accepted, hc])
    obtain ⟨k, t, hk, hrun, idle, flags⟩ := run_ends hi hh hp device (stepsLeft_le_stepBound s)
    exact ⟨k, t, hk, hrun, idle, fun _ => flags⟩

/-- Settles O58: the frame of an instruction, its results being specified. -/
theorem instructionFrame : Obligations.InstructionFrame := by
  intro i s t h
  obtain ⟨opr, irqEn, cmd, platform, host, busReply, palColor, -, results⟩ := exec_instrFrame h
  refine ⟨opr, irqEn, cmd, platform, host, busReply, palColor, fun hu ho => ?_⟩
  obtain ⟨index, entries, memory, output, pixels⟩ := results hu ho
  exact ⟨index, entries, memory, output, pixels⟩

/-- Settles O6. -/
theorem cmdWriteStartsTheCommand : Obligations.CmdWriteStartsTheCommand := by
  intro s w later hp hh
  have start : writeReg 0x00#8 w { s with host := later } = startCommand w { s with host := later } :=
    writeCmd_idle (s := { s with host := later }) hp w
  rw [step_regWrite hh rfl, start]
  rfl

end Sys2Proof.Machine
end

section
/-! SUPPORT. The codes of an LCW stream (R150 to R159): what the engine runs at a cursor where a code stands, the whole effect
of a code whose input and output are ready, and how a code fails at the end of the input or outside the history. -/

namespace Sys2Proof.Machine

/-! ### The engine's next code -/

/-- The code at a cursor where the platform answers. -/
theorem fetchCode_run {cs : CodeSet} {s : State} {i : Instr} {rest : List Byte} (hlt : s.eng.inPos < s.opr.srcLen)
    (ha : admits s.platform (inAddr s) = true) (hd : decode cs (codeAt cs s) = .code i rest) :
    fetchCode cs s = .run i := by
  rw [fetchCode, if_neg (BitVec.not_le.mpr hlt), ha, if_neg (by decide), hd]

theorem codeByte_zero (s : State) : codeByte s 0 = s.mem.read (inAddr s).toNat := by simp [codeByte]

/-- R151: a mode byte other than 0x00. -/
theorem fetchCode_absolute {s : State} (hi : InputReady s 1) (h : s.mem.read (inAddr s).toNat ≠ 0#8) :
    fetchCode .lcwMode s = .moved (selectAbsolute s) := by
  rw [← codeByte_zero] at h
  have hd : decode .lcwMode (codeAt .lcwMode s) = .reject .absoluteMode := if_neg h
  rw [fetchCode, if_neg (BitVec.not_le.mpr (hi.cursor_lt (n := 0))), hi.cursor_admitted (n := 0), if_neg (by decide), hd]

/-- R150, R190: a stream command that is ready begins at cursor 0. -/
theorem exec_lcwDecode_ready {s : State} (h : Ready .lcwDecode s) : exec .lcwDecode s = .next { s with
    phase := .lcwMode, eng := { s.eng with inPos := 0#32, outLen := 0#32, cmdStart := 0#32 } } := by
  rw [exec, execLcwDecode, runBody_ready h rfl]

theorem exec_zrleExpand_ready {s : State} (h : Ready .zrleExpand s) : exec .zrleExpand s = .next { s with
    phase := .zrle, eng := { s.eng with inPos := 0#32, outLen := 0#32 } } := by
  rw [exec, execZrleExpand, runBody_ready h rfl]

/-! ### Codes that succeed -/

/-- R151: the relative mode byte. -/
theorem exec_modeRel_ready {s : State} (h : InputReady s 1) : exec .modeRel s = .next { s with
    phase := .lcwCode, eng := { s.eng with mode := .rel, inPos := s.eng.inPos + 1#32 } } := by
  rw [exec, execModeRel, inByte_ready (n := 0) h, Eff.ok_andThen, endCode_ok]
  rfl

/-- The completion of a stream command (R53, R135). -/
theorem complete_stream {s : State} (h : s.unsettled = false)
    (hp : s.phase = .lcwMode ∨ s.phase = .lcwCode ∨ s.phase = .zrle) : complete s = { s with
      status := setDone s.status, outLen := s.eng.outLen, inUsed := s.eng.inPos, phase := .idle, startMem := [] } := by
  rw [complete_settled h, streamResults_stream hp]
  simp [h]

/-- R153: END has read its byte when the command completes. -/
theorem exec_endMark_ready {s : State} (hi : InputReady s 1) :
    exec .endMark s = .next (complete (codeState 1 [] s)) := by
  rw [exec, execEndMark, lcwCode_ready (n := 0) _ hi, endBody_ok, codeState_nil]

/-- R154. -/
theorem exec_lit_append {s : State} {bytes : List Byte} (hi : InputReady s (1 + bytes.length))
    (ho : OutputReady s bytes.length) : exec (.lit bytes) s = .next (codeState (1 + bytes.length) bytes s) := by
  rw [exec_lit_ready (hi.mono (by omega)),
    forEach_literalByte_ready (s := codeState 1 [] s) hi.markStart.advanceBy ho.markStart.advanceBy, endCode_ok,
    codeState_advanceBy]
  rfl

/-- R156. -/
theorem exec_run_append {s : State} {n : BitVec 16} {v : Byte} (hi : InputReady s 4) (ho : OutputReady s n.toNat) :
    exec (.run n v) s = .next (codeState 4 (List.replicate n.toNat v) s) := by
  have hready : OutputReady (codeState 4 [] s) n.toNat := ho.markStart.advanceBy
  rw [exec_run_ready hi, (outRepeat_ready n.toNat v (m := 0) hready).1, endCode_ok]
  rfl

/-- R152, R159: a back-reference whose base is in the history. -/
theorem exec_copy_append {s : State} {i : Instr} {base n used : Nat} (hc : CopiesFrom s i base n used)
    (hb : base < s.eng.outLen.toNat) (hi : InputReady s used) (ho : OutputReady s n) (hh : HistoryReady s) :
    exec i s = .next (codeState used (copied (outputByte s) s.eng.outLen.toNat base n) s) := by
  have hready : OutputReady (codeState used [] s) n := ho.markStart.advanceBy
  have hcopy : copyBytes (codeState used [] s) n base = copied (outputByte s) s.eng.outLen.toNat base n :=
    copyBytes_eq_copied (s := codeState used [] s) (m := 0) n hready hb
  rw [exec_copiesFrom hc hi ho.canonical, copyLoop_ready (s := codeState used [] s) (m := 0) n hh hready hb, endCode_ok,
    hcopy]
  rfl

/-- The same with its effect. -/
theorem exec_copy_effect {s : State} {i : Instr} {base n used : Nat} (hc : CopiesFrom s i base n used)
    (hb : base < s.eng.outLen.toNat) (hi : InputReady s used) (ho : OutputReady s n) (hh : HistoryReady s) :
    ∃ t, exec i s = .next t ∧ CodeEffect s t used (copied (outputByte s) s.eng.outLen.toNat base n) :=
  ⟨_, exec_copy_append hc hb hi ho hh, codeEffect_codeState (by simpa [copied] using ho)⟩

/-- R157, R159: a count of 0 checks nothing. -/
theorem exec_lref_zero {s : State} {n p : BitVec 16} (hn : n.toNat = 0) (hi : InputReady s 5) :
    exec (.lref n p) s = .next (codeState 5 [] s) := by
  refine (congrArg endCode (lcwPayload_ready (k := 4) _ hi)).trans ?_
  rw [hn]
  rfl

/-- The effect of a code that appends nothing needs no room in the output window. -/
theorem codeEffect_codeState_nil (used : Nat) (s : State) : CodeEffect s (codeState used [] s) used [] :=
  ⟨codeState_frame used [] s, fun j hj => absurd hj (Nat.not_lt_zero j), fun _ _ => rfl⟩

/-! ### The end of the input -/

/-- R76: a code that has read the whole input. -/
theorem codeState_exhausted {s : State} {used : Nat} (h : s.opr.srcLen.toNat = s.eng.inPos.toNat + used)
    (out : List Byte) : InputStops (codeState used out s) .inputExhausted s.eng.inPos := by
  have hpos : (s.eng.inPos + BitVec.ofNat 32 used).toNat = s.eng.inPos.toNat + used :=
    toNat_add_small h.ge s.opr.srcLen.isLt
  have hend : s.opr.srcLen ≤ s.eng.inPos + BitVec.ofNat 32 used := by rw [BitVec.le_def]; omega
  rw [InputStops, inByte, codeState_frame, if_pos hend]
  rfl

/-- Its cursor stands at the end of the input. -/
theorem inPos_exhausted {s : State} {used : Nat} (h : s.opr.srcLen.toNat = s.eng.inPos.toNat + used) :
    s.eng.inPos + BitVec.ofNat 32 used = s.opr.srcLen :=
  BitVec.eq_of_toNat_eq ((toNat_add_small h.ge s.opr.srcLen.isLt).trans h.symm)

/-! ### Outside the history -/

/-- R78, R152: a copy of at least one byte that starts outside the history. -/
theorem copyLoop_outside {s : State} {n : Nat} (hn : n ≠ 0) {i : Int} (h : i < 0 ∨ (s.eng.outLen.toNat : Int) ≤ i) :
    copyLoop n i s = .raise .lcwBounds s.eng.cmdStart s := by
  obtain ⟨n, rfl⟩ := Nat.exists_eq_succ_of_ne_zero hn
  rw [copyLoop, outRead_outside h, Eff.raise_andThen]

/-- R155: SREF's position 1 is outside the history of an empty output only. -/
theorem srefBody_outside {s : State} {n : Nat} (hn : n ≠ 0) {p : BitVec 12}
    (h : p.toNat = 0 ∨ s.eng.outLen.toNat < p.toNat) : srefBody n p s = .raise .lcwBounds s.eng.cmdStart s := by
  unfold srefBody
  split
  next hp =>
    have hempty : s.eng.outLen.toNat = 0 := by
      rw [hp] at h
      exact Nat.lt_one_iff.mp (h.resolve_left (by decide))
    rw [if_pos (BitVec.eq_of_toNat_eq hempty)]
    rfl
  next => exact copyLoop_outside hn (by omega)

theorem copyBase_outside {mode : LcwMode} {outLen : Word} {p : BitVec 16}
    (hrel : mode = .rel → p.toNat = 0 ∨ outLen.toNat < p.toNat) (habs : mode = .abs → outLen.toNat ≤ p.toNat) :
    copyBase mode outLen p < 0 ∨ (outLen.toNat : Int) ≤ copyBase mode outLen p := by
  cases mode with
  | rel => have := hrel rfl; simp only [copyBase]; omega
  | abs => have := habs rfl; simp only [copyBase]; omega

/-- An LCW command that raises `LcwBounds` after it has read its bytes. -/
theorem endCode_bounds {s : State} (hp : s.phase = .lcwCode) (hu : s.unsettled = false) {used : Nat} {x : Eff Unit}
    (hx : x = .raise .lcwBounds s.eng.inPos (codeState used [] s)) :
    endCode x = .next (streamFailed 0x04#8 s.eng.inPos (codeState used [] s)) := by
  rw [hx, endCode_raise, abort_codeState hu (.inr (.inl hp))]
  rfl

end Sys2Proof.Machine
end

section
/-! The statements of 41_lcw.md about single codes. -/

namespace Sys2Proof.Machine

/-- Settles O5: whose turn it is, and what the engine's phase makes it fetch. -/
theorem stepRunsTheDecodedInstruction : Obligations.StepRunsTheDecodedInstruction := by
  intro s t i rest hturn hfetch
  have hstep : step s = engineStep t := by
    rcases hturn with ⟨hhost, rfl⟩ | ⟨n, act, later, hhost, rfl⟩
    · exact step_engine hhost
    · exact step_waiting hhost
  have hrun : fetch t = .run i := by
    rcases hfetch with ⟨hp, hc⟩ | ⟨hlt, ha, ⟨hp, hd⟩ | ⟨hp, hd⟩ | ⟨hp, hd⟩⟩
    · exact fetch_accepted hp hc
    · exact (fetch_lcwMode hp).trans (fetchCode_run hlt ha hd)
    · exact (fetch_lcwCode hp).trans (fetchCode_run hlt ha hd)
    · rw [fetch_zrle hp, if_neg (BitVec.not_le.mpr hlt), fetchCode_run hlt ha hd]
  rw [hstep, engineStep_run hrun]

/-- Settles O8. -/
theorem streamCommandsBeginAtZero : Obligations.StreamCommandsBeginAtZero :=
  ⟨fun _ h => exec_lcwDecode_ready h, fun _ h => exec_zrleExpand_ready h⟩

/-- Settles O9. -/
theorem modeByteSelectsTheAddressing : Obligations.ModeByteSelectsTheAddressing := by
  refine ⟨fun s hi => exec_modeRel_ready hi, fun s hhost hp hi hb => ?_⟩
  rw [step_engine hhost, engineStep_moved ((fetch_lcwMode hp).trans (fetchCode_absolute hi hb))]
  rfl

/-- Settles O10. -/
theorem endCompletesTheDecode : Obligations.EndCompletesTheDecode := by
  intro s hp hu hi
  rw [exec_endMark_ready hi, complete_stream (s := codeState 1 [] s) hu (.inr (.inl hp))]
  rfl

/-- Settles O11. -/
theorem litAppendsItsBytes : Obligations.LitAppendsItsBytes := fun _ _ hi ho =>
  ⟨_, exec_lit_append hi ho, codeEffect_codeState ho⟩

/-- Settles O12: SREF is a copy from `p` bytes before the end of the output. -/
theorem srefCopiesBackFromTheEnd : Obligations.SrefCopiesBackFromTheEnd := fun s c p hpos hp hi ho hh =>
  exec_copy_effect (.inl ⟨c, p, rfl, rfl, rfl, Nat.add_sub_of_le hp⟩) (by omega) hi ho hh

/-- Settles O13. -/
theorem runAppendsItsValue : Obligations.RunAppendsItsValue := fun _ _ _ hi ho =>
  ⟨_, exec_run_append hi ho, codeEffect_codeState (by simpa using ho)⟩

/-- Settles O14: a copy from the base that the mode gives, or of no byte. -/
theorem backReferencesCopyByTheMode : Obligations.BackReferencesCopyByTheMode := by
  intro s base hh
  have byMode : ∀ p : BitVec 16, (s.eng.mode = .rel → p.toNat + base = s.eng.outLen.toNat) →
      (s.eng.mode = .abs → base = p.toNat) → CopiesFrom.byMode s base p := by
    intro p hrel habs
    cases hm : s.eng.mode with
    | rel => exact .inl ⟨hm, hrel hm⟩
    | abs => exact .inr ⟨hm, habs hm⟩
  refine ⟨fun n p hi ho hrel habs hb => ?_, fun p hi => ?_, fun c p hi ho hrel habs hb => ?_⟩
  · exact exec_copy_effect (.inr (.inl ⟨n, p, rfl, rfl, rfl, byMode p hrel habs⟩)) hb hi ho hh
  · exact ⟨_, exec_lref_zero rfl hi, codeEffect_codeState_nil 5 s⟩
  · exact exec_copy_effect (.inr (.inr ⟨c, p, rfl, rfl, rfl, byMode p hrel habs⟩)) hb hi ho hh

/-- Settles O15: the first byte of the copy lies outside the history. -/
theorem backReferenceOutsideTheHistoryFails : Obligations.BackReferenceOutsideTheHistoryFails := by
  intro s hp hu
  refine ⟨fun c p hi hout => ?_, fun n p hi hn hrel habs => ?_, fun c p hi hrel habs => ?_⟩
  · exact endCode_bounds hp hu (used := 2) ((lcwPayload_ready (k := 1) _ hi).trans
      (srefBody_outside (s := codeState 2 [] s) (Nat.succ_ne_zero _) hout))
  · have hcount : n.toNat ≠ 0 := fun h => hn (BitVec.eq_of_toNat_eq h)
    exact endCode_bounds hp hu (used := 5) ((lcwPayload_ready (k := 4) _ hi).trans
      (copyLoop_outside (s := codeState 5 [] s) hcount (copyBase_outside hrel habs)))
  · exact endCode_bounds hp hu (used := 3) ((lcwPayload_ready (k := 2) _ hi).trans
      (copyLoop_outside (s := codeState 3 [] s) (Nat.succ_ne_zero _) (copyBase_outside hrel habs)))

/-- Settles O17: the input ends at the literal's byte `m`. -/
theorem truncatedLiteralKeepsItsBytes : Obligations.TruncatedLiteralKeepsItsBytes := by
  intro s bytes m hp hu hm hi hlen ho
  have hround : literalByte bytes[m] (codeState (1 + m) (bytes.take m) s) =
      .raise .inputExhausted s.eng.inPos (codeState (1 + m) (bytes.take m) s) := by
    rw [literalByte, codeState_exhausted (by omega), Eff.raise_andThen]
  refine ⟨_, codeEffect_codeState (by rwa [List.length_take_of_le hm.le]), ?_⟩
  rw [exec_lit_stop hm hi ho hround, abort_codeState hu (.inr (.inl hp))]
  rfl

/-- Settles O18: the input ends at payload byte `m`. -/
theorem truncatedPayloadAppendsNothing : Obligations.TruncatedPayloadAppendsNothing := by
  intro s i m hp hu hpayload hi hlen
  have hend : s.opr.srcLen.toNat = s.eng.inPos.toNat + (1 + m) := by omega
  rw [exec_payload_stop hpayload hi (codeState_exhausted hend []), abort_codeState hu (.inr (.inl hp)),
    ← inPos_exhausted hend]
  rfl

end Sys2Proof.Machine
end

section
/-! SUPPORT. A stream command part of the way through its stream (R150, R190): the bytes it has read and produced, the code
that stands at its cursor, and LCW_DECODE from there to its end. -/

namespace Sys2Proof.Machine

/-! ### A running stream -/

/-- No byte of the input window stands in the output window (R75, R91). -/
def InputApart (s : State) : Prop := ∀ k j, k < s.opr.srcLen.toNat → j < s.opr.dstCap.toNat →
  (s.opr.srcAddr + BitVec.ofNat 32 k).toNat ≠ (outAddr s j).toNat

/-- Every address of a window that ends below 2^32 is in it: none wraps. -/
theorem Window.contains_address {base : Word} {len k : Nat} (hr : Window.inRange ⟨base.toNat, len⟩ = true)
    (hk : k < len) : Window.contains ⟨base.toNat, len⟩ (base + BitVec.ofNat 32 k).toNat = true := by
  have hend : base.toNat + len ≤ 4294967296 := of_decide_eq_true hr
  have haddr : (base + BitVec.ofNat 32 k).toNat = base.toNat + k :=
    toNat_add_small (b := 4294967295) (by omega) (by omega)
  rw [haddr]
  exact Window.contains_iff.mpr ⟨Nat.le_add_right _ _, Nat.add_lt_add_left hk _⟩

theorem Ready.inputApart {i : Instr} {s : State} (h : Ready i s) (hr : readWindows i s.opr = [inputWindow s.opr])
    (hw : writtenWindows i s.opr = [outputWindow s.opr]) : InputApart s := by
  have hrange : (inputWindow s.opr).inRange = true ∧ (outputWindow s.opr).inRange = true := by
    simpa [windowsInRange, windows, hr, hw] using h.inRange
  have hapart : (inputWindow s.opr).overlaps (outputWindow s.opr) = false := by
    simpa [windowsOverlap, hr, hw] using h.apart
  intro k j hk hj heq
  have hin := Window.contains_address hrange.1 hk
  have hout := Window.contains_address hrange.2 hj
  have hshared : (inputWindow s.opr).overlaps (outputWindow s.opr) = true :=
    Window.overlaps_iff.mpr ⟨_, hin, heq ▸ hout⟩
  rw [hapart] at hshared
  cases hshared

/-- The state `t` of a stream command that began in `s`, has read `read` and produced `out`, and stands in phase `p`. -/
structure Streaming (p : Phase) (s t : State) (read out : List Byte) : Prop where
  frame : t = { s with phase := p, mem := t.mem, eng := t.eng }
  canonical : t.mem.wf = true
  inPos : t.eng.inPos = BitVec.ofNat 32 read.length
  outLen : t.eng.outLen = BitVec.ofNat 32 out.length
  room : out.length ≤ s.opr.dstCap.toNat
  output : ∀ j (h : j < out.length), t.mem.read (outAddr s j).toNat = out[j]
  kept : ∀ a, (∀ j, j < out.length → a ≠ (outAddr s j).toNat) → t.mem.read a = s.mem.read a

/-- Before the first code nothing is produced. -/
theorem Streaming.begin {s : State} (hwf : s.mem.wf = true) {e : Engine} {read : List Byte}
    (hi : e.inPos = BitVec.ofNat 32 read.length) (ho : e.outLen = 0#32) (p : Phase) :
    Streaming p s { s with phase := p, eng := e } read [] :=
  ⟨rfl, hwf, hi, ho, Nat.zero_le _, fun _ hj => absurd hj (Nat.not_lt_zero _), fun _ _ => rfl⟩

section
variable {p : Phase} {s t : State} {read out : List Byte} (h : Streaming p s t read out)
include h

theorem Streaming.outLen_toNat : t.eng.outLen.toNat = out.length := by
  have hroom := h.room
  have hcap := s.opr.dstCap.isLt
  rw [h.outLen, BitVec.toNat_ofNat, Nat.mod_eq_of_lt (by omega)]

theorem Streaming.outAddr (k : Nat) : outAddr t k = outAddr s k := by rw [h.frame]; rfl

theorem Streaming.history : history t = out := by
  refine List.ext_getElem (by simp [Machine.history, h.outLen_toNat]) fun j _ hj => ?_
  simpa [Machine.history, outputByte, h.outAddr] using h.output j hj

theorem Streaming.historyReady (ha : OutputAnswers s) : HistoryReady t := by
  intro k hk
  rw [h.outLen_toNat] at hk
  rw [h.outAddr, h.frame]
  exact ha k (hk.trans_le h.room)

theorem Streaming.outputReady (ha : OutputAnswers s) {n : Nat} (hn : out.length + n ≤ s.opr.dstCap.toNat) :
    OutputReady t n := by
  have hopr : t.opr = s.opr := by rw [h.frame]
  refine ⟨h.canonical, by rwa [h.outLen_toNat, hopr], fun k hk => ?_⟩
  rw [h.outLen_toNat, h.outAddr, h.frame]
  exact ha _ (by omega)

theorem Streaming.inAddr (k : Nat) :
    inAddr t + BitVec.ofNat 32 k = s.opr.srcAddr + BitVec.ofNat 32 (read.length + k) := by
  have hopr : t.opr = s.opr := by rw [h.frame]
  rw [Machine.inAddr, h.inPos, hopr, BitVec.ofNat_add, BitVec.add_assoc]

/-- The code at the cursor can be read. -/
theorem Streaming.inputReady {code rest : List Byte} (hin : InputIs s (read ++ (code ++ rest))) :
    InputReady t code.length := by
  have hlen := hin.len
  have hsrc := s.opr.srcLen.isLt
  have hopr : t.opr = s.opr := by rw [h.frame]
  simp only [List.length_append] at hlen
  refine ⟨?_, fun k hk => ?_⟩
  · rw [h.inPos, hopr, BitVec.toNat_ofNat, Nat.mod_eq_of_lt (by omega)]
    omega
  · rw [h.inAddr, h.frame]
    exact hin.answers _ (by simp only [List.length_append]; omega)

/-- The code at the cursor still stands in memory: the output is elsewhere. -/
theorem Streaming.codeByte (hap : InputApart s) {code rest : List Byte} (hin : InputIs s (read ++ (code ++ rest)))
    {k : Nat} (hk : k < code.length) : codeByte t k = code[k] := by
  have hpos : read.length + k < (read ++ (code ++ rest)).length := by simp only [List.length_append]; omega
  have hout : ∀ j, j < out.length → (s.opr.srcAddr + BitVec.ofNat 32 (read.length + k)).toNat ≠
      (Machine.outAddr s j).toNat := fun j hj => hap _ j (hin.len ▸ hpos) (hj.trans_le h.room)
  rw [Machine.codeByte, h.inAddr, h.kept _ hout, hin.byte _ hpos, List.getElem_append_right (Nat.le_add_right _ _),
    List.getElem_append_left (by simpa using hk)]
  simp

/-- A code reads its bytes and appends what it produces. -/
theorem Streaming.code {more : List Byte} (ho : OutputReady t more.length) (code : List Byte) :
    Streaming p s (codeState code.length more t) (read ++ code) (out ++ more) := by
  have heffect := codeEffect_codeState (used := code.length) ho
  have hcap := s.opr.dstCap.isLt
  have hopr : t.opr = s.opr := by rw [h.frame]
  have hroom := ho.room
  rw [h.outLen_toNat, hopr] at hroom
  have happended := heffect.appended
  have hkept := heffect.kept
  simp only [h.outAddr, h.outLen_toNat] at happended hkept
  refine ⟨?_, appendBytes_wf h.canonical, ?_, ?_, by rwa [List.length_append], fun j hj => ?_, fun a ha => ?_⟩
  · rw [heffect.frame, h.frame]
  · rw [heffect.frame, List.length_append, BitVec.ofNat_add, ← h.inPos]
  · rw [heffect.frame, List.length_append, BitVec.ofNat_add, ← h.outLen]
  · have hj' := List.length_append ▸ hj
    by_cases hold : j < out.length
    · rw [List.getElem_append_left hold, hkept _ fun k hk heq => ?_, h.output j hold]
      have := outAddr_inj (by omega) (by omega) heq
      omega
    · have hlast := happended (j - out.length) (by omega)
      rw [Nat.add_sub_of_le (Nat.not_lt.mp hold)] at hlast
      rw [hlast, List.getElem_append_right (Nat.not_lt.mp hold)]
  · rw [List.length_append] at ha
    rw [hkept a fun j hj => ha _ (by omega), h.kept a fun j hj => ha j (by omega)]

/-- The end of the command (R135). -/
theorem Streaming.complete (hu : s.unsettled = false) (hp : p = .lcwMode ∨ p = .lcwCode ∨ p = .zrle) :
    StreamDone s (complete t) read.length out := by
  have hend : Machine.complete t = { t with
      status := setDone t.status, outLen := t.eng.outLen, inUsed := t.eng.inPos, phase := .idle, startMem := [] } :=
    complete_stream (by rw [h.frame]; exact hu) (by rw [h.frame]; exact hp)
  refine ⟨?_, by rw [hend]; exact h.output, by rw [hend]; exact h.kept⟩
  rw [hend, h.inPos, h.outLen, h.frame]

end

/-! ### The code at the cursor -/

/-- R111: an LCW command's first byte tells how many bytes stand there. -/
theorem encode_lcw_length {i : Instr} (hi : i.codeSet = .lcw) (hw : WellFormed i) :
    ∃ b rest, encode i = b :: rest ∧ rest.length + 1 = lcwLength b := by
  cases i with
  | endMark => exact ⟨_, _, rfl, Laws.EncodedLength.endMark hw _ _ rfl⟩
  | lit bytes => exact ⟨_, _, rfl, Laws.EncodedLength.lit bytes hw _ _ rfl⟩
  | sref c p => exact ⟨_, _, rfl, Laws.EncodedLength.sref c p hw _ _ rfl⟩
  | run n v => exact ⟨_, _, rfl, Laws.EncodedLength.run n v hw _ _ rfl⟩
  | lref n p => exact ⟨_, _, rfl, Laws.EncodedLength.lref n p hw _ _ rfl⟩
  | mref c p => exact ⟨_, _, rfl, Laws.EncodedLength.mref c p hw _ _ rfl⟩
  | modeRel | zrun | zlit | lcwDecode | zrleExpand | blit | fill | palClear | palPush | palLoad6 | palFind | palRead =>
    cases hi

theorem codeBytes_eq {s : State} {code : List Byte} (h : ∀ k (hk : k < code.length), codeByte s k = code[k]) :
    codeBytes s code.length = code :=
  List.ext_getElem (by simp [codeBytes]) fun k _ hk => by simpa [codeBytes] using h k hk

/-- An LCW command whose bytes stand at the cursor runs. -/
theorem step_lcwCode {s : State} {i : Instr} (hhost : s.host = []) (hp : s.phase = .lcwCode) (hi : i.codeSet = .lcw)
    (hw : WellFormed i) (hready : InputReady s (encode i).length)
    (hcode : ∀ k (hk : k < (encode i).length), codeByte s k = (encode i)[k]) : step s = exec i s := by
  obtain ⟨b, rest, henc, hlen⟩ := encode_lcw_length hi hw
  have hsize : (encode i).length = lcwLength b := by rw [henc, List.length_cons, hlen]
  have hfirst : codeByte s 0 = b := by simpa [henc] using hcode 0 (by simp [henc])
  have hat : codeAt .lcw s = encode i := by rw [codeAt, hfirst, ← hsize, codeBytes_eq hcode]
  have hd : decode .lcw (codeAt .lcw s) = .code i [] := by
    rw [hat, ← hi]
    simpa using decodeOfEncodeIsTheInstruction i [] hw
  rw [henc, List.length_cons] at hready
  rw [step_engine hhost, engineStep_run ((fetch_lcwCode hp).trans (fetchCode_run hready.cursor_lt
    hready.cursor_admitted hd))]

/-! ### What a code appends -/

theorem lcwAppends_codeSet {mode : LcwMode} {out more : List Byte} {i : Instr}
    (h : lcwAppends mode out i = some more) : i.codeSet = .lcw := by
  cases i with
  | lit | sref | run | lref | mref => rfl
  | modeRel | endMark | zrun | zlit | lcwDecode | zrleExpand | blit | fill | palClear | palPush | palLoad6 | palFind
  | palRead => cases h

/-- The output only grows. -/
theorem lcwOutput_length_le {mode : LcwMode} {codes : List Instr} {out final : List Byte}
    (h : lcwOutput mode codes out = some final) : out.length ≤ final.length := by
  induction codes generalizing out with
  | nil => cases h; exact le_rfl
  | cons i codes ih =>
    rw [lcwOutput] at h
    split at h
    next more _ => exact (by simp : out.length ≤ (out ++ more).length).trans (ih h)
    next => cases h

theorem copied_length (byteAt : Nat → Byte) (len base n : Nat) : (copied byteAt len base n).length = n := by
  simp [copied]

theorem backReference_length {mode : LcwMode} {out more : List Byte} {n : Nat} {p : BitVec 16}
    (h : lcwAppends.backReference mode out n p = some more) : more.length = n := by
  by_cases hn : n = 0
  · cases (if_pos hn).symm.trans h
    exact hn.symm
  · replace h := (if_neg hn).symm.trans h
    cases mode with
    | rel => cases (Option.ite_none_left_eq_some.mp h).2; exact copied_length _ _ _ _
    | abs => cases (Option.ite_none_left_eq_some.mp h).2; exact copied_length _ _ _ _

theorem lcwAppends_length {mode : LcwMode} {out more : List Byte} {i : Instr}
    (h : lcwAppends mode out i = some more) : more.length = appendCount i := by
  cases i with
  | lit bytes => cases h; rfl
  | run n v => cases h; exact List.length_replicate
  | sref c p => cases (Option.ite_none_left_eq_some.mp h).2; exact copied_length _ _ _ _
  | lref n p => exact backReference_length h
  | mref c p => exact backReference_length h
  | modeRel | endMark | zrun | zlit | lcwDecode | zrleExpand | blit | fill | palClear | palPush | palLoad6 | palFind
  | palRead => cases h

/-- R154 to R159: a code appends what the history and the mode say, when its input and output are ready. -/
theorem exec_appends {s : State} {i : Instr} {more : List Byte}
    (happ : lcwAppends s.eng.mode (history s) i = some more) (hp : s.phase = .lcwCode)
    (hi : InputReady s (encode i).length) (ho : OutputReady s more.length) (hh : HistoryReady s) :
    exec i s = .next (codeState (encode i).length more s) := by
  have back : readsHistory i → appendCount i ≠ 0 → exec i s = .next (codeState (encode i).length more s) := by
    intro hr hcount
    have hne : more ≠ [] := List.ne_nil_of_length_pos (by rw [lcwAppends_length happ]; omega)
    obtain ⟨base, n, used, hc, hb, rfl, -⟩ := Appends.copies (.inl ⟨hp, happ⟩) hr hne
    have hused : (encode i).length = used := by
      rcases hc with ⟨c, p, rfl, -, rfl, -⟩ | ⟨k, p, rfl, -, rfl, -⟩ | ⟨c, p, rfl, -, rfl, -⟩ <;> rfl
    rw [hused] at hi ⊢
    exact exec_copy_append hc hb hi (by rwa [copied_length] at ho) hh
  cases i with
  | lit bytes =>
    cases happ
    rw [encode, List.length_cons, Nat.add_comm] at hi ⊢
    exact exec_lit_append hi ho
  | run n v =>
    cases happ
    exact exec_run_append hi (by simpa using ho)
  | sref c p => exact back (.inl ⟨c, p, rfl⟩) (Nat.succ_ne_zero _)
  | lref n p =>
    by_cases hn : n.toNat = 0
    · cases (if_pos hn).symm.trans happ
      exact exec_lref_zero hn hi
    · exact back (.inr (.inl ⟨n, p, rfl⟩)) hn
  | mref c p => exact back (.inr (.inr ⟨c, p, rfl⟩)) (Nat.succ_ne_zero _)
  | modeRel | endMark | zrun | zlit | lcwDecode | zrleExpand | blit | fill | palClear | palPush | palLoad6 | palFind
  | palRead => cases happ

/-! ### LCW_DECODE -/

/-- LCW_DECODE before its first code: the mode is chosen and `n` bytes have been read (R150, R151). -/
def lcwBegun (p : Phase) (mode : LcwMode) (n : Word) (s : State) : State :=
  { s with phase := p, eng := { inPos := n, outLen := 0#32, mode := mode, cmdStart := 0#32 } }

theorem lcwBegun_streaming {s : State} (hwf : s.mem.wf = true) (p : Phase) (mode : LcwMode) {n : Word}
    {read : List Byte} (hn : n = BitVec.ofNat 32 read.length) : Streaming p s (lcwBegun p mode n s) read [] :=
  .begin hwf hn rfl p

section
variable {s : State} (hs : Ready .lcwDecode s)
include hs

/-- The byte at the start of the input stands at the cursor and can be read. -/
theorem lcwBegun_first (mode : LcwMode) {b : Byte} {rest : List Byte} (hin : InputIs s (b :: rest)) :
    InputReady (lcwBegun .lcwMode mode 0#32 s) 1 ∧ codeByte (lcwBegun .lcwMode mode 0#32 s) 0 = b := by
  have ht := lcwBegun_streaming (read := []) hs.canonical .lcwMode mode rfl
  exact ⟨ht.inputReady (code := [b]) hin, ht.codeByte (hs.inputApart rfl rfl) (code := [b]) hin Nat.one_pos⟩

variable (hhost : s.host = [])
include hhost

theorem step_lcwDecode (hc : s.cmd = 0x01#32) : step s = .next (lcwBegun .lcwMode s.eng.mode 0#32 s) := by
  have hd : decodeCmd s.cmd = some .lcwDecode := by rw [hc]; decide
  rw [step_engine hhost, engineStep_run (fetch_accepted hs.accepted hd), exec_lcwDecode_ready hs]
  rfl

/-- R151: the mode byte 0x00. -/
theorem step_lcwBegun_rel (mode : LcwMode) {rest : List Byte} (hin : InputIs s (0x00#8 :: rest)) :
    step (lcwBegun .lcwMode mode 0#32 s) = .next (lcwBegun .lcwCode .rel 1#32 s) := by
  obtain ⟨hready, hb⟩ := lcwBegun_first hs mode hin
  have hd : decode .lcwMode (codeAt .lcwMode (lcwBegun .lcwMode mode 0#32 s)) = .code .modeRel [] := if_pos hb
  rw [step_engine (s := lcwBegun .lcwMode mode 0#32 s) hhost, engineStep_run ((fetch_lcwMode rfl).trans
    (fetchCode_run (hready.cursor_lt (n := 0)) (hready.cursor_admitted (n := 0)) hd)), exec_modeRel_ready hready]
  rfl

/-- R151: any other mode byte. -/
theorem step_lcwBegun_abs (mode : LcwMode) {b : Byte} {rest : List Byte} (hin : InputIs s (b :: rest))
    (hne : b ≠ 0x00#8) : step (lcwBegun .lcwMode mode 0#32 s) = .next (lcwBegun .lcwCode .abs 0#32 s) := by
  obtain ⟨hready, hb⟩ := lcwBegun_first hs mode hin
  rw [← hb, codeByte_zero] at hne
  exact modeByteSelectsTheAddressing.2 (lcwBegun .lcwMode mode 0#32 s) hhost rfl hready hne

/-- The code that comes next in the input is the one that runs. -/
theorem step_streaming {t : State} {i : Instr} {read out rest : List Byte} (ht : Streaming .lcwCode s t read out)
    (hi : i.codeSet = .lcw) (hw : WellFormed i) (hin : InputIs s (read ++ (encode i ++ rest))) : step t = exec i t :=
  step_lcwCode (by rw [ht.frame]; exact hhost) (by rw [ht.frame]) hi hw (ht.inputReady hin)
    fun _ hk => ht.codeByte (hs.inputApart rfl rfl) hin hk

/-- R150, R160: LCW_DECODE from a code on to its end, by induction on the codes. -/
theorem lcwCodes_end (ha : OutputAnswers s) {mode : LcwMode} {codes : List Instr} {final : List Byte}
    (hw : ∀ i ∈ codes, WellFormed i) (hcap : final.length ≤ s.opr.dstCap.toNat) {read out after : List Byte}
    (hout : lcwOutput mode codes out = some final)
    (hin : InputIs s (read ++ (encodeAll codes ++ encode .endMark ++ after))) {t : State}
    (ht : Streaming .lcwCode s t read out) (hm : t.eng.mode = mode) : ∃ k u, Sys2Proof.core.run k t = .next u ∧
      StreamDone s u (read ++ (encodeAll codes ++ encode .endMark)).length final := by
  induction codes generalizing t read out with
  | nil =>
    cases hout
    have hready : InputReady t 1 := ht.inputReady (code := encode .endMark) hin
    have hrun : step t = .next (complete (codeState (encode .endMark).length [] t)) :=
      (step_streaming hs hhost ht rfl rfl hin).trans (exec_endMark_ready hready)
    have hdone := ht.code (more := []) (ht.outputReady ha (by simpa using hcap)) (encode .endMark)
    exact ⟨1, _, run_succ hrun 0, by simpa [encodeAll] using hdone.complete hs.settled (.inr (.inl rfl))⟩
  | cons i codes ih =>
    rw [lcwOutput] at hout
    split at hout
    next more happ =>
      have hgrown := lcwOutput_length_le hout
      rw [List.length_append] at hgrown
      have hin' : InputIs s (read ++ (encode i ++ (encodeAll codes ++ encode .endMark ++ after))) := by
        simpa [encodeAll] using hin
      have hready := ht.outputReady ha (hgrown.trans hcap)
      rw [← ht.history, ← hm] at happ
      have hrun := (step_streaming hs hhost ht (lcwAppends_codeSet happ) (hw i (by simp)) hin').trans
        (exec_appends happ (by rw [ht.frame]) (ht.inputReady hin') hready (ht.historyReady ha))
      have hmode : (codeState (encode i).length more t).eng.mode = mode := by rw [codeState_frame]; exact hm
      obtain ⟨k, u, hk, hu⟩ := ih (fun j hj => hw j (by simp [hj])) hout (by simpa using hin')
        (ht.code hready (encode i)) hmode
      exact ⟨k + 1, u, (run_succ hrun k).trans hk, by simpa [encodeAll] using hu⟩
    next => cases hout

end

end Sys2Proof.Machine
end

section
/-! The statement of 41_lcw.md about a whole LCW_DECODE. -/

namespace Sys2Proof.Machine

/-- Settles O59: the command begins, its mode byte selects the mode, and its codes run to the end. -/
theorem lcwDecodeProducesItsStream : Obligations.LcwDecodeProducesItsStream := by
  intro s mode codes stream after out hc hhost hs ha hw hout hcap hrel habs hin
  have hbegin := step_lcwDecode hs hhost hc
  have finish : ∀ {read n}, n = BitVec.ofNat 32 read.length →
      stream = read ++ (encodeAll codes ++ encode .endMark) →
      step (lcwBegun .lcwMode s.eng.mode 0#32 s) = .next (lcwBegun .lcwCode mode n s) →
      ∃ k t, Sys2Proof.core.run k s = .next t ∧ StreamDone s t stream.length out := by
    rintro read n hn rfl hmode
    obtain ⟨k, t, hk, ht⟩ := lcwCodes_end hs hhost ha hw hcap hout (by simpa using hin)
      (lcwBegun_streaming hs.canonical .lcwCode mode hn) rfl
    exact ⟨k + 2, t, (run_succ hbegin (k + 1)).trans ((run_succ hmode k).trans hk), ht⟩
  cases mode with
  | rel =>
    have hstream : stream = [0x00#8] ++ (encodeAll codes ++ encode .endMark) := by simpa [encode] using hrel rfl
    exact finish rfl hstream (step_lcwBegun_rel hs hhost _ (rest := encodeAll codes ++ encode .endMark ++ after)
      (by simpa [hstream] using hin))
  | abs =>
    obtain ⟨hstream, hfirst⟩ := habs rfl
    obtain ⟨b, rest, hb⟩ := List.exists_cons_of_ne_nil (l := stream) (by simp [hstream, encode])
    refine finish (read := []) rfl hstream (step_lcwBegun_abs hs hhost _ (b := b) (rest := rest ++ after) ?_ ?_)
    · rwa [hb] at hin
    · simpa [hb] using hfirst

end Sys2Proof.Machine
end

section
/-! SUPPORT. The codes of a zero-run stream (R190 to R194): the whole effect of a code whose input and output are ready, what
the engine runs at a cursor where a code stands, and ZRLE_EXPAND from there to its end. -/

namespace Sys2Proof.Machine

/-! ### What a code appends -/

theorem zrleAppends_codeSet {i : Instr} {more : List Byte} (h : zrleAppends i = some more) : i.codeSet = .zrle := by
  cases i with
  | zrun | zlit => rfl
  | modeRel | endMark | lit | sref | run | lref | mref | lcwDecode | zrleExpand | blit | fill | palClear | palPush
  | palLoad6 | palFind | palRead => cases h

/-- R192: a zero run, whatever its count. -/
theorem exec_zrun_append {s : State} {n : Byte} (hi : InputReady s 2) (ho : OutputReady s n.toNat) :
    exec (.zrun n) s = .next (codeState 2 (List.replicate n.toNat 0x00#8) s) := by
  have hready : OutputReady (codeState 2 [] s) n.toNat := ho.markStart.advanceBy
  rw [exec_zrun_ready hi, (outRepeat_ready n.toNat 0x00#8 (m := 0) hready).1, endCode_ok]
  rfl

/-- R193: a literal byte. -/
theorem exec_zlit_append {s : State} {v : Byte} (hi : InputReady s 1) (ho : OutputReady s 1) :
    exec (.zlit v) s = .next (codeState 1 [v] s) := by
  have hready : OutputReady (codeState 1 [] s) 1 := ho.markStart.advanceBy
  rw [exec_zlit_ready hi, outByte_ready (n := 0) v hready, endCode_ok]
  rfl

/-- R192, R193: a code appends what it stands for, when its input and output are ready. -/
theorem exec_zrleAppends {s : State} {i : Instr} {more : List Byte} (happ : zrleAppends i = some more)
    (hi : InputReady s (encode i).length) (ho : OutputReady s more.length) :
    exec i s = .next (codeState (encode i).length more s) := by
  cases i with
  | zrun n => cases happ; exact exec_zrun_append hi (by simpa using ho)
  | zlit v => cases happ; exact exec_zlit_append hi ho
  | modeRel | endMark | lit | sref | run | lref | mref | lcwDecode | zrleExpand | blit | fill | palClear | palPush
  | palLoad6 | palFind | palRead => cases happ

/-! ### The end of the input -/

/-- R192: the input ends before the count of a zero run. -/
theorem countByte_exhausted {s : State} {used : Nat} (h : s.opr.srcLen.toNat = s.eng.inPos.toNat + used) :
    countByte (codeState used [] s) = .raise .zrleMissingCount s.eng.inPos (codeState used [] s) := by
  have hend : s.opr.srcLen ≤ s.eng.inPos + BitVec.ofNat 32 used := inPos_exhausted h ▸ BitVec.le_refl _
  rw [countByte, codeState_frame, if_pos hend]
  rfl

theorem exec_zrun_exhausted {s : State} {n : Byte} (hi : InputReady s 1)
    (h : s.opr.srcLen.toNat = s.eng.inPos.toNat + 1) :
    exec (.zrun n) s = .next (abort .zrleMissingCount s.eng.inPos (codeState 1 [] s)) := by
  rw [exec, execZrun, zrleCode_ready (n := 0) _ hi, ← codeState_nil, countByte_exhausted h, Eff.raise_andThen,
    endCode_raise]

/-- R191: the loop ends where the input ends. -/
theorem step_zrle_complete {s : State} (hhost : s.host = []) (hp : s.phase = .zrle) (hend : s.eng.inPos = s.opr.srcLen) :
    step s = .next (complete s) := by
  rw [step_engine hhost, engineStep_moved ((fetch_zrle hp).trans (if_pos (hend ▸ BitVec.le_refl _)))]

/-! ### The code at the cursor -/

theorem encode_zrle_length {i : Instr} (hi : i.codeSet = .zrle) : 0 < (encode i).length ∧ (encode i).length ≤ 2 := by
  cases i with
  | zrun | zlit => exact ⟨by simp [encode], by simp [encode]⟩
  | modeRel | endMark | lit | sref | run | lref | mref | lcwDecode | zrleExpand | blit | fill | palClear | palPush
  | palLoad6 | palFind | palRead => cases hi

/-- A code that stands at the cursor is the first part of the bytes that the decoder looks at. -/
theorem codeBytes_append {s : State} {code : List Byte} {n : Nat} (hn : code.length ≤ n)
    (h : ∀ k (hk : k < code.length), codeByte s k = code[k]) : ∃ rest, codeBytes s n = code ++ rest := by
  have htake : (codeBytes s n).take code.length = codeBytes s code.length := by
    rw [codeBytes, ← List.map_take, List.take_range, Nat.min_eq_left hn, codeBytes]
  exact ⟨_, (List.take_append_drop code.length (codeBytes s n)).symm.trans (by rw [htake, codeBytes_eq h])⟩

/-- A zero-run code whose bytes stand at the cursor runs: for a ZLIT the decoder looks one byte too far, and ignores it. -/
theorem step_zrleCode {s : State} {i : Instr} (hhost : s.host = []) (hp : s.phase = .zrle) (hi : i.codeSet = .zrle)
    (hw : WellFormed i) (hready : InputReady s (encode i).length)
    (hcode : ∀ k (hk : k < (encode i).length), codeByte s k = (encode i)[k]) : step s = exec i s := by
  obtain ⟨hpos, hle⟩ := encode_zrle_length hi
  obtain ⟨rest, hat⟩ := codeBytes_append hle hcode
  have hd : decode .zrle (codeAt .zrle s) = .code i rest := by
    rw [codeAt, hat, ← hi]
    exact decodeOfEncodeIsTheInstruction i rest hw
  have hfirst : InputReady s 1 := hready.mono hpos
  have hlt := hfirst.cursor_lt (n := 0)
  rw [step_engine hhost, engineStep_run]
  rw [fetch_zrle hp, if_neg (BitVec.not_le.mpr hlt), fetchCode_run hlt (hfirst.cursor_admitted (n := 0)) hd]

/-! ### ZRLE_EXPAND -/

/-- ZRLE_EXPAND before its first code (R190). -/
def zrleBegun (s : State) : State := { s with phase := .zrle, eng := { s.eng with inPos := 0#32, outLen := 0#32 } }

theorem zrleBegun_streaming {s : State} (hwf : s.mem.wf = true) : Streaming .zrle s (zrleBegun s) [] [] :=
  .begin hwf rfl rfl .zrle

/-- R191: with the whole input read, the command completes. -/
theorem step_zrleStreaming_end {s t : State} (hhost : s.host = []) {read out : List Byte}
    (ht : Streaming .zrle s t read out) (hin : InputIs s read) : step t = .next (complete t) := by
  have hend : t.eng.inPos = s.opr.srcLen := by rw [ht.inPos, ← hin.len, BitVec.ofNat_toNat, BitVec.setWidth_eq]
  exact step_zrle_complete (by rw [ht.frame]; exact hhost) (by rw [ht.frame]) (by rw [hend, ht.frame])

section
variable {s : State} (hs : Ready .zrleExpand s) (hhost : s.host = [])
include hs hhost

theorem step_zrleExpand (hc : s.cmd = 0x02#32) : step s = .next (zrleBegun s) := by
  have hd : decodeCmd s.cmd = some .zrleExpand := by rw [hc]; decide
  rw [step_engine hhost, engineStep_run (fetch_accepted hs.accepted hd), exec_zrleExpand_ready hs]
  rfl

/-- The code that comes next in the input runs and appends what it stands for. -/
theorem step_zrleStreaming {t : State} {i : Instr} {more read out rest : List Byte} (ht : Streaming .zrle s t read out)
    (happ : zrleAppends i = some more) (hw : WellFormed i) (hin : InputIs s (read ++ (encode i ++ rest)))
    (ho : OutputReady t more.length) : step t = .next (codeState (encode i).length more t) := by
  have hready := ht.inputReady hin
  have hrun : step t = exec i t := step_zrleCode (by rw [ht.frame]; exact hhost) (by rw [ht.frame])
    (zrleAppends_codeSet happ) hw hready fun _ hk => ht.codeByte (hs.inputApart rfl rfl) hin hk
  exact hrun.trans (exec_zrleAppends happ hready ho)

/-- R190, R191: ZRLE_EXPAND from a code on to its end, by induction on the codes. -/
theorem zrleCodes_end (ha : OutputAnswers s) {codes : List Instr} {later : List Byte}
    (hw : ∀ i ∈ codes, WellFormed i) (hlater : zrleOutput codes = some later) {read out : List Byte}
    (hcap : (out ++ later).length ≤ s.opr.dstCap.toNat) (hin : InputIs s (read ++ encodeAll codes)) {t : State}
    (ht : Streaming .zrle s t read out) : ∃ k u, Sys2Proof.core.run k t = .next u ∧
      StreamDone s u (read ++ encodeAll codes).length (out ++ later) := by
  induction codes generalizing t read out later with
  | nil =>
    cases hlater
    have hrun := step_zrleStreaming_end hhost ht (by simpa [encodeAll] using hin)
    exact ⟨1, _, run_succ hrun 0, by simpa [encodeAll] using ht.complete hs.settled (.inr (.inr rfl))⟩
  | cons i codes ih =>
    rw [zrleOutput] at hlater
    split at hlater
    next now rest happ hrest =>
      cases hlater
      have hin' : InputIs s (read ++ (encode i ++ encodeAll codes)) := by simpa [encodeAll] using hin
      have hready : OutputReady t now.length :=
        ht.outputReady ha (by simp only [List.length_append] at hcap; omega)
      have hrun := step_zrleStreaming hs hhost ht happ (hw i (by simp)) hin' hready
      obtain ⟨k, u, hk, hu⟩ := ih (fun j hj => hw j (by simp [hj])) hrest (by simpa using hcap) (by simpa using hin')
        (ht.code hready (encode i))
      exact ⟨k + 1, u, (run_succ hrun k).trans hk, by simpa [encodeAll] using hu⟩
    next => cases hlater

end

end Sys2Proof.Machine
end

section
/-! The statements of 42_zero_run.md. -/

namespace Sys2Proof.Machine

/-- Settles O60: the command begins, its codes run one by one, and it completes where its input ends. -/
theorem zrleExpandProducesItsStream : Obligations.ZrleExpandProducesItsStream := by
  intro s codes out hc hhost hs ha hw hout hcap hin
  obtain ⟨k, t, hk, ht⟩ := zrleCodes_end hs hhost ha hw hout (read := []) (out := []) hcap hin
    (zrleBegun_streaming hs.canonical)
  rw [hin.len]
  exact ⟨k + 1, t, (run_succ (step_zrleExpand hs hhost hc) k).trans hk, ht⟩

/-- Settles O20. -/
theorem zeroRunCodesAppend : Obligations.ZeroRunCodesAppend :=
  ⟨fun _ _ hi ho => ⟨_, exec_zrun_append hi ho, codeEffect_codeState (by simpa using ho)⟩,
    fun _ _ hi ho => ⟨_, exec_zlit_append hi ho, codeEffect_codeState ho⟩⟩

/-- Settles O21: the input ends after the code's first byte. -/
theorem zeroRunWithoutItsCountFails : Obligations.ZeroRunWithoutItsCountFails := by
  intro s n hp hu hi hlen
  rw [exec_zrun_exhausted hi hlen, abort_codeState hu (.inr (.inr hp)), ← inPos_exhausted hlen]
  rfl

/-- Settles O22. -/
theorem zeroRunStreamEndsWithItsInput : Obligations.ZeroRunStreamEndsWithItsInput := by
  intro s hhost hp hu hend
  rw [step_zrle_complete hhost hp hend, complete_stream hu (.inr (.inr hp)), hend]
  rfl

end Sys2Proof.Machine
end

section
/-! SUPPORT. Rects by their points and the per-axis map by its laws (R210 to R217), the pixels of the clipped destination
rect by point, and BLIT and FILL that run to their end. -/

namespace Sys2Proof.Machine

/-! ### Intersection and clip -/

theorem Rect.intersect_comm (a b : Rect) : a.intersect b = b.intersect a := by
  rw [Rect.intersect, max_comm a.left, max_comm a.top, min_comm a.right, min_comm a.bottom]
  rfl

theorem Rect.intersect_some {a b r : Rect} (h : a.intersect b = some r) : 0 < r.width ∧ 0 < r.height ∧
    ∀ x y : Int, r.hasPoint x y ↔ a.hasPoint x y ∧ b.hasPoint x y := by
  simp only [Rect.intersect] at h
  split at h
  next hne =>
    cases h
    refine ⟨by dsimp only; omega, by dsimp only; omega, fun x y => ?_⟩
    simp only [Rect.hasPoint, Rect.right, Rect.bottom] at *
    omega
  next => cases h

theorem Rect.intersect_none {a b : Rect} :
    a.intersect b = none ↔ ∀ x y : Int, ¬(a.hasPoint x y ∧ b.hasPoint x y) := by
  constructor
  · intro h x y
    simp only [Rect.intersect] at h
    split at h
    next => cases h
    next hne => simp only [Rect.hasPoint]; omega
  · intro h
    cases hr : a.intersect b with
    | none => rfl
    | some r =>
      obtain ⟨hw, hh, hp⟩ := Rect.intersect_some hr
      have hcorner : r.hasPoint r.left r.top := by simp only [Rect.hasPoint, Rect.right, Rect.bottom]; omega
      exact absurd ((hp _ _).mp hcorner) (h _ _)

/-- The points of a bitmap, taken as a rect. -/
theorem Rect.hasPoint_bitmap {w h : Nat} {x y : Int} :
    Rect.hasPoint ⟨0, 0, w, h⟩ x y ↔ 0 ≤ x ∧ x < w ∧ 0 ≤ y ∧ y < h := by
  simp [Rect.hasPoint, Rect.right, Rect.bottom]

theorem Rect.not_hasPoint_empty (x y : Int) : ¬Rect.empty.hasPoint x y := by
  simp only [Rect.hasPoint, Rect.right, Rect.empty]
  omega

theorem Rect.hasPoint_clip {rc : Rect} {w h : Nat} {x y : Int} :
    (rc.clip w h).hasPoint x y ↔ rc.hasPoint x y ∧ 0 ≤ x ∧ x < w ∧ 0 ≤ y ∧ y < h := by
  rw [← Rect.hasPoint_bitmap, Rect.clip]
  split
  next r hr => exact (Rect.intersect_some hr).2.2 x y
  next hr => exact iff_of_false (Rect.not_hasPoint_empty x y) (Rect.intersect_none.mp hr x y)

/-! ### The per-axis map -/

theorem mapAxis_ge (edge : Int) (cs cd d : Nat) : edge ≤ mapAxis edge cs cd d :=
  Int.le_add_of_nonneg_right (Int.natCast_nonneg _)

theorem mapAxis_lt {cs cd d : Nat} (hcs : 0 < cs) (hd : d < cd) (edge : Int) : mapAxis edge cs cd d < edge + cs :=
  Int.add_lt_add_left (Int.ofNat_lt.mpr (mapped_lt hcs hd)) _

theorem mapAxis_mono (edge : Int) (cs cd : Nat) {d d' : Nat} (h : d ≤ d') :
    mapAxis edge cs cd d ≤ mapAxis edge cs cd d' :=
  Int.add_le_add_left (Int.ofNat_le.mpr (Nat.div_le_div_right (Nat.mul_le_mul_right cs h))) _

theorem mapAxis_upscale {cs : Nat} (hcs : 0 < cs) (edge : Int) (k d : Nat) :
    mapAxis edge cs (k * cs) d = edge + (d / k : Nat) := by
  rw [mapAxis, Nat.mul_div_mul_right _ _ hcs]

theorem mapAxis_downscale {cd : Nat} (hcd : 0 < cd) (edge : Int) (k d : Nat) :
    mapAxis edge (k * cd) cd d = edge + (k * d : Nat) := by
  rw [mapAxis, ← Nat.mul_assoc, Nat.mul_div_cancel _ hcd, Nat.mul_comm d]

theorem mapAxis_same {cs : Nat} (hcs : 0 < cs) (edge : Int) (d : Nat) : mapAxis edge cs cs d = edge + d := by
  rw [mapAxis, Nat.mul_div_cancel _ hcs]

/-! ### Pixels by point -/

/-- The column of point number `k` of a rect, in row-major order (R214). -/
def Rect.pointX (r : Rect) (k : Nat) : Int := r.left + (k % r.width : Nat)

/-- Its row. -/
def Rect.pointY (r : Rect) (k : Nat) : Int := r.top + (k / r.width : Nat)

theorem Rect.hasPoint_number {r : Rect} {k : Nat} (hk : k < r.width * r.height) :
    r.hasPoint (r.pointX k) (r.pointY k) := by
  have hx : k % r.width < r.width := Nat.mod_lt _ (Nat.pos_of_mul_pos_right (Nat.zero_lt_of_lt hk))
  have hy : k / r.width < r.height := Nat.div_lt_of_lt_mul hk
  exact ⟨Int.le_add_of_nonneg_right (Int.natCast_nonneg _), Int.add_lt_add_left (Int.ofNat_lt.mpr hx) _,
    Int.le_add_of_nonneg_right (Int.natCast_nonneg _), Int.add_lt_add_left (Int.ofNat_lt.mpr hy) _⟩

/-- R214: the traversal in row-major order meets every point of the rect. -/
theorem Rect.exists_number {r : Rect} {x y : Int} (h : r.hasPoint x y) :
    ∃ k, k < r.width * r.height ∧ r.pointX k = x ∧ r.pointY k = y := by
  obtain ⟨hx, hx', hy, hy'⟩ := h
  obtain ⟨i, rfl⟩ := Int.le.dest hx
  obtain ⟨j, rfl⟩ := Int.le.dest hy
  have hi : i < r.width := by simp only [Rect.right] at hx'; omega
  have hj : j < r.height := by simp only [Rect.bottom] at hy'; omega
  refine ⟨j * r.width + i, pixel_lt hi hj, ?_, ?_⟩
  · rw [Rect.pointX, Nat.mul_add_mod', Nat.mod_eq_of_lt hi]
  · rw [Rect.pointY, Nat.mul_comm, Nat.mul_add_div (Nat.zero_lt_of_lt hi), Nat.div_eq_of_lt hi, Nat.add_zero]

/-- The address of the destination pixel at a point, in numbers (R80). -/
def destAddr (o : Operands) (px py : Int) : Nat := o.bdAddr.toNat + py.toNat * bitmapW o.bdDim + px.toNat

/-- The address of the source pixel that the per-axis map gives that point, in numbers (R80, R216). -/
def sourceAddr (o : Operands) (px py : Int) : Nat :=
  o.bsAddr.toNat +
      ((sourceClip o).top + (py - (destClip o).top) * (sourceClip o).height / (destClip o).height).toNat *
        bitmapW o.bsDim +
    ((sourceClip o).left + (px - (destClip o).left) * (sourceClip o).width / (destClip o).width).toNat

theorem pixelTo_eq_destAddr {o : Operands} (hr : (destBitmap o).inRange = true) {k : Nat} (hk : k < pixelCount o) :
    (pixelTo o k).toNat = destAddr o ((destClip o).pointX k) ((destClip o).pointY k) := by
  obtain ⟨hl, -, ht, -⟩ := destClip_bounds o
  rw [(pixelTo_toNat hr hk).1, destAddr, Rect.pointX, Rect.pointY, Int.toNat_add hl (Int.natCast_nonneg _),
    Int.toNat_add ht (Int.natCast_nonneg _), Int.toNat_natCast, Int.toNat_natCast]

/-- The map of the offset of a coordinate from the destination's edge. -/
theorem mapAxis_offset (edge edge' : Int) (cs cd d : Nat) :
    edge + (edge' + (d : Nat) - edge') * cs / cd = mapAxis edge cs cd d := by
  rw [mapAxis, add_sub_cancel_left, Int.natCast_div, Int.natCast_mul]

theorem pixelFrom_eq_sourceAddr {o : Operands} (hr : (sourceBitmap o).inRange = true)
    (hs : (sourceClip o).isEmpty = false) {k : Nat} (hk : k < pixelCount o) :
    (pixelFrom o k).toNat = sourceAddr o ((destClip o).pointX k) ((destClip o).pointY k) := by
  obtain ⟨hl, hw, ht, hh⟩ := sourceClip_bounds o
  simp only [Rect.isEmpty, Bool.or_eq_false_iff, decide_eq_false_iff_not] at hs
  have hx := mapAxis_lt (Nat.pos_of_ne_zero hs.1) (column_lt hk) (sourceClip o).left
  have hy := mapAxis_lt (Nat.pos_of_ne_zero hs.2) (row_lt hk) (sourceClip o).top
  rw [sourceAddr, Rect.pointX, Rect.pointY, mapAxis_offset, mapAxis_offset, ← blitFrom_eq, blitFrom, clippedSource_eq,
    clippedDest_eq, dimW_eq]
  exact (pixAddr_toNat (bitmap_inRange hr) (hl.trans (mapAxis_ge ..)) (hx.trans_le hw) (ht.trans (mapAxis_ge ..))
    (hy.trans_le hh)).1

/-- An address of no point of the clipped destination rect is the address of no pixel of it. -/
theorem ne_pixelTo {o : Operands} (hr : (destBitmap o).inRange = true) {a : Nat}
    (ha : ∀ px py, (destClip o).hasPoint px py → a ≠ destAddr o px py) :
    ∀ k, k < pixelCount o → a ≠ (pixelTo o k).toNat := by
  intro k hk
  rw [pixelTo_eq_destAddr hr hk]
  exact ha _ _ (Rect.hasPoint_number hk)

/-! ### The whole command -/

/-- The addresses of a bitmap, by its registers. -/
theorem bitmap_contains {base dim : Word} {a : Nat} : Window.contains ⟨base.toNat, dimW dim * dimH dim⟩ a = true ↔
    base.toNat ≤ a ∧ a < base.toNat + bitmapW dim * bitmapH dim := by
  rw [Window.contains_iff, dimW_eq, dimH_eq]

/-- The destination bitmap of a FILL that is ready. -/
theorem Ready.fillBitmap {s : State} (h : Ready .fill s) : (destBitmap s.opr).inRange = true := by
  simpa [windowsInRange, windows, readWindows, writtenWindows] using h.inRange

/-- FILL's first `n` pixels hold its value. -/
theorem filled_read {s : State} (h : Ready .fill s) {n k : Nat} (hk : k < n) :
    (filled n s).mem.read (pixelTo s.opr k).toNat = s.opr.fillVal :=
  paint_read h.canonical (fun _ _ _ _ _ => rfl) hk

/-- R218: FILL's loop when the platform answers at every pixel. -/
theorem fillBody_ready {s : State} (ha : ∀ k, k < pixelCount s.opr → admits s.platform (pixelTo s.opr k) = true) :
    fillBody s = .ok () (filled (pixelCount s.opr) s) := by
  rw [fillBody_eq]
  exact forEach_range (S := fun k => filled k s) fun k hk => memWrite_painted (ha k hk)

/-- FILL when the platform answers at every pixel. -/
theorem exec_fill_ready {s : State} (h : Ready .fill s)
    (ha : ∀ k, k < pixelCount s.opr → admits s.platform (pixelTo s.opr k) = true) :
    exec .fill s = .next (completed (filled (pixelCount s.opr) s)) := by
  rw [exec, execFill, runBody_ready h rfl, fillBody_ready ha, endBody_ok,
    complete_accepted (s := filled _ s) h.settled h.accepted]

/-- R215: BLIT's loop when the platform answers at every pixel of both bitmaps. -/
theorem blitBody_ready {s : State} (h : Ready .blit s) (hs : (sourceClip s.opr).isEmpty = false)
    (hd : (destClip s.opr).isEmpty = false)
    (ha : ∀ k, k < pixelCount s.opr → admits s.platform (pixelFrom s.opr k) = true ∧
      admits s.platform (pixelTo s.opr k) = true) :
    blitBody s = .ok () (blitted (pixelCount s.opr) s) := by
  rw [blitBody_eq hs hd]
  refine forEach_range (S := fun k => blitted k s) fun k hk => ?_
  obtain ⟨hfrom, hto⟩ := ha k hk
  rw [blitRound, memRead_admitted (s := blitted k s) hfrom, Eff.ok_andThen, blitted_read_source h hs hk hk.le]
  exact memWrite_painted (val := fun j => s.mem.read (pixelFrom s.opr j).toNat) hto

/-- BLIT when the platform answers at every pixel of both bitmaps. -/
theorem exec_blit_ready {s : State} (h : Ready .blit s) (hs : (sourceClip s.opr).isEmpty = false)
    (hd : (destClip s.opr).isEmpty = false)
    (ha : ∀ k, k < pixelCount s.opr → admits s.platform (pixelFrom s.opr k) = true ∧
      admits s.platform (pixelTo s.opr k) = true) :
    exec .blit s = .next (completed (blitted (pixelCount s.opr) s)) := by
  rw [exec, execBlit, runBody_ready h rfl, blitBody_ready h hs hd ha, endBody_ok,
    complete_accepted (s := blitted _ s) h.settled h.accepted]

theorem blitBody_empty {s : State} (h : (sourceClip s.opr).isEmpty = true ∨ (destClip s.opr).isEmpty = true) :
    blitBody s = .ok () s := by
  rw [blitBody, clippedSource_eq, clippedDest_eq, if_pos (Bool.or_eq_true_iff.mpr h)]

end Sys2Proof.Machine
end

section
/-! The statements of 43_blit.md. -/

namespace Sys2Proof.Machine

/-- Settles O25. -/
theorem intersectionIsTheCommonPoints : Obligations.IntersectionIsTheCommonPoints :=
  fun a b => ⟨Rect.intersect_comm a b, fun _ => Rect.intersect_some, Rect.intersect_none⟩

/-- Settles O26. -/
theorem clippedRectLiesInTheBitmap : Obligations.ClippedRectLiesInTheBitmap := by
  intro rc w h
  obtain ⟨hleft, hright, htop, hbottom⟩ := clip_bounds rc w h
  exact ⟨hleft, hright, htop, hbottom, fun _ _ => Rect.hasPoint_clip⟩

/-- Settles O27, law by law. -/
theorem axisMapLaws : Obligations.AxisMapLaws := by
  intro edge cs cd d hcs hd
  refine ⟨mapAxis_ge .., mapAxis_lt hcs hd edge, fun _ => mapAxis_mono edge cs cd, ?_, ?_, ?_⟩
  · rintro rfl
    exact mapAxis_same hcs edge d
  · rintro k rfl
    exact mapAxis_upscale hcs edge k d
  · rintro k rfl
    exact mapAxis_downscale (Nat.zero_lt_of_lt hd) edge k d

/-- Settles O28: the pixels by number are the points of the clipped destination rect. -/
theorem blitMapsEveryDestinationPixel : Obligations.BlitMapsEveryDestinationPixel := by
  intro s h ha cs cd hs hd from_ to_
  obtain ⟨hsrc, hdst, -⟩ := h.bitmaps
  obtain ⟨hwritten, hkept⟩ := blitted_read h le_rfl
  refine ⟨(blitted (pixelCount s.opr) s).mem, exec_blit_ready h hs hd fun k hk => ⟨ha _ (.inl ?_), ha _ (.inr ?_)⟩,
    fun px py hp => ?_, fun a hne => hkept a (ne_pixelTo hdst hne)⟩
  · exact bitmap_contains.mp (pixelFrom_mem hsrc hs hk)
  · exact bitmap_contains.mp (pixelTo_toNat hdst hk).2.2
  · obtain ⟨k, hk, rfl, rfl⟩ := Rect.exists_number hp
    have hpixel := hwritten k hk
    rwa [pixelTo_eq_destAddr hdst hk, pixelFrom_eq_sourceAddr hsrc hs hk] at hpixel

/-- Settles O29. -/
theorem blitWithAnEmptyClipDoesNothing : Obligations.BlitWithAnEmptyClipDoesNothing := by
  intro s h hempty
  rw [exec, execBlit, runBody_ready h rfl, blitBody_empty hempty, endBody_ok, complete_accepted h.settled h.accepted]

/-- Settles O30: the pixels by number are the points of the clipped destination rect. -/
theorem fillWritesTheClippedRect : Obligations.FillWritesTheClippedRect := by
  intro s h ha cd to_
  have hdst := h.fillBitmap
  refine ⟨(filled (pixelCount s.opr) s).mem, exec_fill_ready h fun k hk => ?_, fun px py hp => ?_,
    fun a hne => paint_read_other (ne_pixelTo hdst hne)⟩
  · obtain ⟨hge, hlt⟩ := bitmap_contains.mp (pixelTo_toNat hdst hk).2.2
    exact ha _ hge hlt
  · obtain ⟨k, hk, rfl, rfl⟩ := Rect.exists_number hp
    have hpixel := filled_read h hk
    rwa [pixelTo_eq_destAddr hdst hk] at hpixel

end Sys2Proof.Machine
end

section
/-! SUPPORT. What a push does by where its colour stands (R252), several pushes in a row (R256), and the palette commands when
they are ready (R251 to R256). -/

namespace Sys2Proof.Machine

/-! ### Pushes -/

theorem pushColor_present {p : List Color} {c : Color} {i : Nat} (h : findColor p c = some i) :
    pushColor p c = some (p, i, true) := by simp [pushColor, h]

theorem pushColor_absent {p : List Color} {c : Color} (hc : c ∉ p) (hl : p.length < Config.palCap) :
    pushColor p c = some (p ++ [c], p.length, false) := by
  simp [pushColor, findColor_none.mpr hc, hl]

theorem pushColor_full {p : List Color} {c : Color} (hc : c ∉ p) (hl : Config.palCap ≤ p.length) :
    pushColor p c = none := by simp [pushColor, findColor_none.mpr hc, hl]

theorem pushMany_append (xs ys : List Color) (r : List Color × BitVec 16 × Bool) :
    pushMany (xs ++ ys) r = (pushMany xs r).bind (pushMany ys) := by
  induction xs generalizing r with
  | nil => rfl
  | cons c rest ih =>
    simp only [List.cons_append, pushMany]
    cases pushColor r.1 c with
    | none => rfl
    | some q => exact ih _

/-- One more push after several, the converse of `pushMany_snoc`. -/
theorem pushMany_concat {xs : List Color} {c : Color} {r : List Color × BitVec 16 × Bool} {p q : List Color}
    {j : BitVec 16} {g found : Bool} {i : Nat} (h : pushMany xs r = some (p, j, g))
    (hp : pushColor p c = some (q, i, found)) :
    pushMany (xs ++ [c]) r = some (q, BitVec.ofNat 16 i, found) := by
  simp [pushMany_append, h, pushMany, hp]

/-! ### The body of a palette command -/

theorem endBody_completed {s : State} (hu : s.unsettled = false) (hp : s.phase = .accepted) :
    endBody (.ok () s) = .next (completed s) := by rw [endBody_ok, complete_accepted hu hp]

theorem endBody_failed {e : Error} {a : Word} {s : State} (hu : s.unsettled = false) (hp : s.phase = .accepted) :
    endBody (.raise e a s) = .next (failed (errorCode e) a s) := by rw [endBody_raise, abort_accepted hu hp]

/-! ### PAL_PUSH -/

theorem exec_palPush_pushed {s : State} (h : Ready .palPush s) {p : List Color} {i : Nat} {found : Bool}
    (hp : pushColor s.palette s.palColor = some (p, i, found)) :
    exec .palPush s = .next (completed { s with
      palette := p, palIndex := BitVec.ofNat 16 i, status := { s.status with found := found } }) := by
  rw [exec, execPalPush, runBody_ready h rfl, push, hp]
  exact endBody_completed h.settled h.accepted

theorem exec_palPush_full {s : State} (h : Ready .palPush s) (hp : pushColor s.palette s.palColor = none) :
    exec .palPush s = .next (failed 0x07#8 0#32 s) := by
  rw [exec, execPalPush, runBody_ready h rfl, push, hp]
  exact endBody_failed h.settled h.accepted

/-- A push that succeeds leaves its colour in the palette. -/
theorem mem_palette_of_palPush {s t : State} (h : Ready .palPush s) (he : exec .palPush s = .next t)
    (ht : t.status.err = false) : s.palColor ∈ t.palette := by
  cases hp : pushColor s.palette s.palColor with
  | none =>
    cases (exec_palPush_full h hp).symm.trans he
    cases ht
  | some r =>
    obtain ⟨q, i, found⟩ := r
    cases (exec_palPush_pushed h hp).symm.trans he
    exact List.mem_of_getElem? (pushColor_some hp).2.2.1

/-! ### PAL_FIND and PAL_READ -/

theorem exec_palFind_hit {s : State} (h : Ready .palFind s) {i : Nat} (hf : findColor s.palette s.palColor = some i) :
    exec .palFind s = .next (completed { s with
      palIndex := BitVec.ofNat 16 i, status := { s.status with found := true } }) := by
  rw [exec, execPalFind, runBody_ready h rfl, hf]
  exact endBody_completed h.settled h.accepted

theorem exec_palFind_miss {s : State} (h : Ready .palFind s) (hf : findColor s.palette s.palColor = none) :
    exec .palFind s = .next (completed { s with status := { s.status with found := false } }) := by
  rw [exec, execPalFind, runBody_ready h rfl, hf]
  exact endBody_completed h.settled h.accepted

theorem exec_palRead_valid {s : State} (h : Ready .palRead s) {c : Color} (hc : s.palette[s.palIndex.toNat]? = some c) :
    exec .palRead s = .next (completed { s with palColor := c }) := by
  rw [exec, execPalRead, runBody_ready h rfl, hc]
  exact endBody_completed h.settled h.accepted

theorem exec_palRead_invalid {s : State} (h : Ready .palRead s) (hi : s.palette.length ≤ s.palIndex.toNat) :
    exec .palRead s = .next (failed 0x08#8 0#32 s) := by
  rw [exec, execPalRead, runBody_ready h rfl, List.getElem?_eq_none hi]
  exact endBody_failed h.settled h.accepted

/-- A valid index fits in `PAL_INDEX`. -/
theorem toNat_ofNat_validIndex {p : List Color} {c : Color} {i : Nat} (hl : p.length ≤ Config.palCap) (h : p[i]? = some c) :
    (BitVec.ofNat 16 i).toNat = i := by
  obtain ⟨hi, -⟩ := List.getElem?_eq_some_iff.mp h
  rw [Config.palCap] at hl
  rw [BitVec.toNat_ofNat, Nat.mod_eq_of_lt (by omega)]

/-! ### PAL_LOAD6 -/

/-- PAL_LOAD6 runs its loop with no entry pushed yet. -/
theorem exec_palLoad6_ready {s : State} (h : Ready .palLoad6 s) (hlen : s.opr.srcLen.toNat % 3 = 0) :
    exec .palLoad6 s =
      endBody (forEach (List.range (s.opr.srcLen.toNat / 3)) loadEntry { s with inUsed := 0#32 }) := by
  rw [exec, execPalLoad6, runBody_ready (h.inUsed 0#32) (by simp [hlen])]

/-- The first entries, when their bytes can be read and each finds room. -/
theorem forEach_loadEntry_loaded {s : State} {e : Nat}
    (hadm : ∀ j, j < 3 * e → admits s.platform (rawAddr s j) = true) {p : List Color} {i : BitVec 16} {found : Bool}
    (hp : pushMany ((List.range e).map (rawColor s)) (s.palette, s.palIndex, s.status.found) = some (p, i, found)) :
    forEach (List.range e) loadEntry { s with inUsed := 0#32 } = .ok () (loaded e p i found s) :=
  forEach_loadEntry (s := { s with inUsed := 0#32 }) rfl hadm hp

theorem exec_palLoad6_loaded {s : State} (h : Ready .palLoad6 s) (hlen : s.opr.srcLen.toNat % 3 = 0)
    (hadm : ∀ k, k < s.opr.srcLen.toNat → admits s.platform (rawAddr s k) = true) {p : List Color} {i : BitVec 16}
    {found : Bool} (hp : pushMany ((List.range (s.opr.srcLen.toNat / 3)).map (rawColor s))
      (s.palette, s.palIndex, s.status.found) = some (p, i, found)) :
    exec .palLoad6 s = .next (completed (loaded (s.opr.srcLen.toNat / 3) p i found s)) := by
  rw [exec_palLoad6_ready h hlen, forEach_loadEntry_loaded (fun j hj => hadm j (by omega)) hp]
  exact endBody_completed h.settled h.accepted

/-- An entry whose bytes can be read and that finds no room. -/
theorem loadEntry_full {s : State} {e : Nat} (hadm : ∀ r, r < 3 → admits s.platform (rawAddr s (3 * e + r)) = true)
    (hp : pushColor s.palette (rawColor s e) = none) :
    loadEntry e s = .raise .palFull (BitVec.ofNat 32 (3 * e)) s := by
  rw [loadEntry_ready hadm, push, hp]
  rfl

theorem exec_palLoad6_full {s : State} (h : Ready .palLoad6 s) (hlen : s.opr.srcLen.toNat % 3 = 0) {e : Nat}
    (he : e < s.opr.srcLen.toNat / 3)
    (hadm : ∀ k, k < s.opr.srcLen.toNat → admits s.platform (rawAddr s k) = true) {p : List Color} {i : BitVec 16}
    {found : Bool}
    (hp : pushMany ((List.range e).map (rawColor s)) (s.palette, s.palIndex, s.status.found) = some (p, i, found))
    (hfull : pushColor p (rawColor s e) = none) :
    exec .palLoad6 s = .next (failed 0x07#8 (BitVec.ofNat 32 (3 * e)) (loaded e p i found s)) := by
  have hentries := forEach_loadEntry_loaded (fun j hj => hadm j (by omega)) hp
  have hentry := loadEntry_full (s := loaded e p i found s) (fun r hr => hadm (3 * e + r) (by omega)) hfull
  rw [exec_palLoad6_ready h hlen, forEach_stop (m := e) (by simpa using he)
    (by rwa [List.take_range, Nat.min_eq_left he.le]) (by simpa using hentry)]
  exact endBody_failed h.settled h.accepted

end Sys2Proof.Machine
end

section
/-! The statements of 44_palette.md. -/

namespace Sys2Proof.Machine

/-- Settles O32. -/
theorem palClearEmptiesThePalette : Obligations.PalClearEmptiesThePalette := by
  intro s h
  rw [exec, execPalClear, runBody_ready h rfl]
  exact endBody_completed h.settled h.accepted

/-- Settles O33, by where the colour stands. -/
theorem palPushAppendsOrFinds : Obligations.PalPushAppendsOrFinds := fun _ h hnodup =>
  ⟨fun _ hi => exec_palPush_pushed h (pushColor_present (findColor_of_getElem? hnodup hi)),
    fun hc hl => exec_palPush_pushed h (pushColor_absent hc hl), fun hc hl => exec_palPush_full h (pushColor_full hc hl)⟩

/-- Settles O34. -/
theorem palFindHitsOrMisses : Obligations.PalFindHitsOrMisses := fun _ h hnodup =>
  ⟨fun _ hi => exec_palFind_hit h (findColor_of_getElem? hnodup hi),
    fun hc => exec_palFind_miss h (findColor_none.mpr hc)⟩

/-- Settles O35. -/
theorem palReadGivesTheEntry : Obligations.PalReadGivesTheEntry := fun _ h =>
  ⟨fun _ => exec_palRead_valid h, exec_palRead_invalid h⟩

/-- Settles O36: three times the number of entries is the length. -/
theorem palLoadPushesTheEntries : Obligations.PalLoadPushesTheEntries := by
  intro s p i found h hlen hadm hp
  have hused : BitVec.ofNat 32 (3 * (s.opr.srcLen.toNat / 3)) = s.opr.srcLen := by
    rw [Nat.mul_div_cancel' (Nat.dvd_of_mod_eq_zero hlen), BitVec.ofNat_toNat, BitVec.setWidth_eq]
  rw [exec_palLoad6_loaded h hlen hadm hp, loaded, hused]

/-- Settles O37, by induction on the entries from the last one: each is absent from those before it. -/
theorem distinctEntriesKeepTheirIndex : Obligations.DistinctEntriesKeepTheirIndex := by
  intro cs i found hnodup hlen
  induction cs using List.reverseRecOn with
  | nil => exact ⟨i, found, rfl, fun h => absurd rfl h⟩
  | append_singleton cs c ih =>
    rw [List.length_append, List.length_singleton] at hlen
    obtain ⟨hc, hcs⟩ := List.nodup_cons.mp ((List.perm_append_singleton c cs).nodup hnodup)
    obtain ⟨j, g, hpushed, -⟩ := ih hcs (by omega)
    exact ⟨_, _, pushMany_concat hpushed (pushColor_absent hc hlen), fun _ => by simp⟩

/-- Settles O38. -/
theorem palLoadKeepsTheEntriesBeforeAFullPalette : Obligations.PalLoadKeepsTheEntriesBeforeAFullPalette :=
  fun _ _ _ _ _ h hlen he hadm hp hc hl => exec_palLoad6_full h hlen he hadm hp (pushColor_full hc hl)

/-- Settles O39: a search hits at an entry of the colour, and that entry's index fits in `PAL_INDEX`. -/
theorem paletteRoundTrip : Obligations.PaletteRoundTrip := by
  refine ⟨fun s t u later hs hpush herr hu hpal hlen hcolor => ?_, fun s u hs hnodup hi => ?_⟩
  · have hmem : s.palColor ∈ u.palette := hpal ▸ List.mem_append_left _ (mem_palette_of_palPush hs hpush herr)
    obtain ⟨i, hfind⟩ : ∃ i, findColor u.palette s.palColor = some i :=
      Option.ne_none_iff_exists'.mp fun hnone => findColor_none.mp hnone hmem
    have hentry := findColor_some hfind
    refine ⟨_, exec_palFind_hit hu (hcolor ▸ hfind), rfl, fun w hw hwpal hwindex => ?_⟩
    have hindex : w.palIndex.toNat = i := hwindex ▸ toNat_ofNat_validIndex hlen hentry
    have hread : w.palette[w.palIndex.toNat]? = some s.palColor := by rw [hwpal, hindex, hentry]
    exact ⟨_, exec_palRead_valid hw hread, rfl, rfl⟩
  · have hentry := List.getElem?_eq_getElem hi
    refine ⟨_, exec_palRead_valid hs hentry, fun hu hpal hcolor => ?_⟩
    have hfind : findColor u.palette u.palColor = some s.palIndex.toNat := by
      rw [hpal, hcolor]
      exact findColor_of_getElem? hnodup hentry
    exact ⟨_, exec_palFind_hit hu hfind, rfl, by simp [completed]⟩

end Sys2Proof.Machine
end

section
/-! SUPPORT. The bits of the `STATUS` word (10_state.md R24) and the interrupt line (60_exceptions.md R290). -/

namespace Sys2Proof.Machine

theorem statusWord_eq_concat (s : State) :
    statusWord s = ((((0#28).concat s.status.found).concat s.status.err).concat s.status.done).concat s.busy := rfl

theorem statusWord_getLsbD_busy (s : State) : (statusWord s).getLsbD 0 = s.busy := by
  rw [statusWord_eq_concat, BitVec.getLsbD_concat_zero]

theorem statusWord_getLsbD_done (s : State) : (statusWord s).getLsbD 1 = s.status.done := by
  rw [statusWord_eq_concat, BitVec.getLsbD_concat_succ, BitVec.getLsbD_concat_zero]

theorem statusWord_getLsbD_err (s : State) : (statusWord s).getLsbD 2 = s.status.err := by
  rw [statusWord_eq_concat, BitVec.getLsbD_concat_succ, BitVec.getLsbD_concat_succ, BitVec.getLsbD_concat_zero]

theorem statusWord_getLsbD_found (s : State) : (statusWord s).getLsbD 3 = s.status.found := by
  rw [statusWord_eq_concat]
  iterate 3 rw [BitVec.getLsbD_concat_succ]
  rw [BitVec.getLsbD_concat_zero]

theorem statusWord_getLsbD_reserved (s : State) {k : Nat} (hk : 4 ≤ k) : (statusWord s).getLsbD k = false := by
  obtain ⟨j, rfl⟩ := Nat.exists_eq_add_of_le' hk
  rw [statusWord_eq_concat]
  iterate 4 rw [BitVec.getLsbD_concat_succ]
  exact BitVec.getLsbD_zero

theorem busy_iff {s : State} : s.busy = true ↔ s.phase ≠ .idle := decide_eq_true_iff

theorem irq_iff {s : State} : irq s = true ↔
    (s.status.done = true ∧ s.irqEn.doneIe = true) ∨ (s.status.err = true ∧ s.irqEn.errIe = true) := by
  rw [irq, Bool.or_eq_true, Bool.and_eq_true, Bool.and_eq_true]

theorem step_sampleIrq {s : State} {later : List HostEvent} (h : s.host = ⟨0, .sampleIrq⟩ :: later) :
    step s = .next { s with host := later, busReply := .line (irq { s with host := later }) } := step_host h

end Sys2Proof.Machine
end

section
/-! The statements of 60_exceptions.md. -/

namespace Sys2Proof.Machine

/-- Settles O48: the host's read gives `statusWord`, and its sample of the line gives `irq`. -/
theorem statusBitsAndInterruptLine : Obligations.StatusBitsAndInterruptLine := by
  refine fun s later => ⟨fun h => ⟨_, step_regRead h rfl, ?_⟩, fun h => ⟨_, step_sampleIrq h, irq_iff⟩⟩
  have hread : readReg 0x04#8 { s with host := later } = statusWord { s with host := later } := rfl
  rw [hread, statusWord_getLsbD_busy]
  exact ⟨busy_iff, statusWord_getLsbD_done _, statusWord_getLsbD_err _, statusWord_getLsbD_found _,
    fun _ => statusWord_getLsbD_reserved _⟩

end Sys2Proof.Machine
end

section
/-! SUPPORT. What the reset input leaves in memory (70_reset_and_hazards.md R321): the live written windows settle, and every
other byte stays. -/

namespace Sys2Proof.Machine

theorem inSome_cons (w : Window) (ws : List Window) (a : Nat) :
    inSome (w :: ws) a = (w.contains a || inSome ws a) := rfl

/-- Overwriting windows that lie below 2^32 gives each address inside one of them the value `f` has for it. Windows that
overlap agree there, because the value depends on the address only. -/
theorem Memory.read_overwriteAll_inside {m : Memory} (hm : m.wf = true) {ws : List Window}
    (h : ∀ w ∈ ws, w.inRange = true) (f : Nat → Byte) {a : Nat} (ha : inSome ws a = true) :
    (m.overwriteAll ws f).read a = f a := by
  induction ws generalizing m with
  | nil => simp [inSome] at ha
  | cons w rest ih =>
    have hrest : ∀ v ∈ rest, v.inRange = true := fun v hv => h v (List.mem_cons_of_mem _ hv)
    have hw : w.base + w.len ≤ Config.addrSpace := of_decide_eq_true (h w List.mem_cons_self)
    show Memory.read (Memory.overwriteAll rest f (m.overwrite w.len w.base f)) a = f a
    cases hin : inSome rest a with
    | true => exact ih (Memory.wf_overwrite hm _ _ _) hrest hin
    | false =>
      have hself : w.contains a = true := by simpa [inSome_cons, hin] using ha
      rw [Memory.read_overwriteAll_outside hrest f hin,
        Memory.read_overwrite_inside hm hw f (Window.contains_iff.mp hself)]

theorem liveWritten_idle {s : State} (h : s.phase = .idle) : liveWritten s = [] := by simp [liveWritten, running, h]

theorem assertReset_mem_idle {s : State} (h : s.phase = .idle) : (assertReset s).mem = s.mem := by
  rw [assertReset, liveWritten_idle h, Memory.overwriteAll, List.foldl_nil]

theorem assertReset_read_outside {s : State} {a : Nat} (h : inSome (liveWritten s) a = false) :
    (assertReset s).mem.read a = s.mem.read a :=
  Memory.read_overwriteAll_outside (fun _ hw => liveWritten_inRange hw) _ h

theorem assertReset_read_live {s : State} (hm : s.mem.wf = true) {a : Nat} (h : inSome (liveWritten s) a = true) :
    (assertReset s).mem.read a = settleByte s a :=
  Memory.read_overwriteAll_inside hm (fun _ hw => liveWritten_inRange hw) _ h

/-- R321: a byte that the command may have written is the old one, or the one the command would have written. -/
theorem assertReset_read_oldOrWritten {s : State} {i : Instr} (hi : running s = some i) (hm : s.mem.wf = true)
    (hu : s.unsettled = false) (ho : windowsOverlap i s.opr = false) {a : Nat} (ha : inSome (liveWritten s) a = true) :
    (assertReset s).mem.read a = s.startMem.read a ∨ (assertReset s).mem.read a = (finalMem s).read a := by
  rw [assertReset_read_live hm ha]
  exact settleByte_cases hi hu ho a

end Sys2Proof.Machine
end

section
/-! The statements of 70_reset_and_hazards.md. -/

namespace Sys2Proof.Machine

/-- Settles O52: the next state is `assertReset`'s, which is `State.reset` but for memory, the platform, the host's later
actions and the count of free values; what is left to show is memory. -/
theorem resetInputAbandonsTheCommand : Obligations.ResetInputAbandonsTheCommand := by
  intro s later hhost
  refine ⟨assertReset { s with host := later }, step_host hhost, rfl, fun hp => ?idle, fun a ha => ?outside,
    fun i a hi hm hu ho ha => ?live⟩
  case idle => exact assertReset_mem_idle hp
  case outside => exact assertReset_read_outside ha
  case live => exact assertReset_read_oldOrWritten (s := { s with host := later }) hi hm hu ho ha

end Sys2Proof.Machine
end
